-- ==== Sys2Proof/Word.lean ====
section
/-!
DEFINITION. The word, symbol and sequence types of the engine (spec/00_scope.md R5 to R7).
-/
namespace Sys2Proof

/-- A command word, a status register or a word of the output buffer: 32 bits (R5, `CMD_W`, `WORD_W`). -/
abbrev Word := BitVec 32

/-- The 24-bit operand field of a command word (R5, `CODE_W`; R71). -/
abbrev Arg := BitVec 24

/-- A symbol of the alphabet 0 to 255 (R5, `SYM_W`). -/
abbrev Symbol := BitVec 8

/-- A symbol sequence (R7): a finite ordered list of symbols, `[]` being `<>`. -/
abbrev SymSeq := List Symbol

end Sys2Proof
end

