-- ==== Sys2Proof/Syntax.lean ====
section
/-!
DEFINITION. The commands of DLE-1: one constructor per row of spec/opcode_table.json (spec/30_encoding.md R72).
-/
namespace Sys2Proof

/-- A command. The two operand forms are the 24-bit symbol value and the 24-bit code (R74), kept whole: an `ENCS`
operand above 255 is a legal command that faults when it executes. -/
inductive Instr where
  /-- `DRST`: dictionary reset and abort (R97). -/
  | drst
  /-- `ENCB`: encode begin (R110). -/
  | encb
  /-- `ENCS sym`: encode step (R111). -/
  | encs (sym : Arg)
  /-- `ENCE`: encode end (R112). -/
  | ence
  /-- `DECB`: decode begin (R130). -/
  | decb
  /-- `DECC code`: decode step (R131). -/
  | decc (code : Arg)
  /-- `DECE`: decode end (R132). -/
  | dece
  deriving DecidableEq, Repr

/-- What a 32-bit word is (R73): one of the seven commands, or illegal. R75: every illegal word has the one outcome
"illegal". -/
inductive Decoded where
  | command (i : Instr)
  | illegal
  deriving DecidableEq, Repr

end Sys2Proof
end

