-- ==== Sys2Proof/Machine/Fields.lean ====
section
/-!
DEFINITION. The three fields of format C (spec/30_encoding.md R71).
-/
namespace Sys2Proof.Machine

/-- `OP = w[31:28]`. -/
def opField (w : Word) : BitVec 4 := w.extractLsb' 28 4

/-- `RSV = w[27:24]`. -/
def rsvField (w : Word) : BitVec 4 := w.extractLsb' 24 4

/-- `ARG = w[23:0]`. -/
def argField (w : Word) : Arg := w.extractLsb' 0 24

/-- `w == OP :: RSV :: ARG` with `RSV == 0`: a command word made from its operation code and operand. -/
def wordOf (op : BitVec 4) (arg : Arg) : Word := op ++ 0#4 ++ arg

/-- `zext_32` of a 24-bit operand (R6). -/
def zextArg (a : Arg) : Word := a.setWidth 32

/-- `zext_32` of a symbol (R6, R25). -/
def zextSymbol (a : Symbol) : Word := a.setWidth 32

/-- `zext_32` of a code or a count (R6, R33): exact for values below 2^32, which R96 shows are the only ones. -/
def zextNat (n : Nat) : Word := BitVec.ofNat 32 n

end Sys2Proof.Machine
end

