-- ==== Sys2Proof/Config.lean ====
section
/-!
DEFINITION. What an implementation fixes and the free values (spec/00_scope.md R5, spec/92_eei_decisions.md D6, D7, D30).
-/
namespace Sys2Proof

/-- `SEED_COUNT`: codes 0 to 255 are the single-symbol seed (R5, decision D4). -/
def Config.seedCount : Nat := 256

/-- `FIRST_CODE`: the next-code counter after a dictionary reset (R5). -/
def Config.firstCode : Nat := 256

/-- The range the spec leaves open for `DICT_CAP`: 256 <= DICT_CAP <= 2^24 (R5, decision D6). -/
abbrev Config.dictCapInRange (n : Nat) : Prop := 256 ≤ n ∧ n ≤ 2 ^ 24

/-- The range the spec leaves open for `OBUF_CAP`: 1 <= OBUF_CAP <= 2^32 - 1 (R5, decision D7). -/
abbrev Config.obufCapInRange (n : Nat) : Prop := 1 ≤ n ∧ n ≤ 2 ^ 32 - 1

/-- DESIGN CHOICE (notes/assumptions/3.md), unsafe: the `DICT_CAP` of the one state `State.reset`. The spec leaves it
OPEN; every state carries its own value and every claim is made for all of them. The largest allowed value is the one
nearest to the document's unbounded machine (R5: the limit `DICT_CAP = OBUF_CAP = infinity`). -/
def Config.resetDictCap : Nat := 2 ^ 24

/-- DESIGN CHOICE (notes/assumptions/3.md), unsafe: the `OBUF_CAP` of the one state `State.reset`; see `resetDictCap`. -/
def Config.resetObufCap : Nat := 2 ^ 32 - 1

/-- The free values of host reads the spec leaves unspecified (R56, R57; spec/93_implementation_defined.md U10, U11):
the `k`-th such read returns `Config.freeWord k`, about which nothing can be proved (notes/assumptions/5.md), safe. -/
opaque Config.freeWord : Nat → Word

/-- `BITS_PER_SYMBOL`: used by the host-side ratio helper only (R5, decision D26). -/
def Config.bitsPerSymbol : Nat := 8

/-- `BITS_PER_CODE`: the ratio helper's default, never used by the engine (R5). -/
def Config.bitsPerCode : Nat := 12

end Sys2Proof
end

