-- ==== Sys2Proof/Machine/Table.lean ====
section
/-!
DEFINITION. Sparse tables (lists of key and value pairs in one canonical form), the comparator `SeqEq`, the dictionary's
two lookups, and the seed (spec/40_dictionary.md R90 to R94; spec/10_state.md R21, R22, R25).
-/
namespace Sys2Proof.Machine

/-- A sparse table: (key, value) pairs, keys strictly rising. -/
abbrev Table (α : Type) := List (Nat × α)

/-- The canonical form of a table: keys strictly rising, so that a key has at most one value and equal tables are equal
lists. An unlisted key has no value, so no listed value can equal the unlisted one. -/
abbrev tableWf {α : Type} (t : Table α) : Prop := t.Pairwise (fun p q => p.1 < q.1)

/-- The value listed under a key, none where there is none. -/
def tableRead {α : Type} (k : Nat) : Table α → Option α
  | [] => none
  | (j, v) :: t => if j = k then some v else tableRead k t

/-- The table with `v` under `k`, in canonical form when the table was. -/
def tableWrite {α : Type} (k : Nat) (v : α) : Table α → Table α
  | [] => [(k, v)]
  | (j, u) :: t =>
    if k < j then (k, v) :: (j, u) :: t
    else if k = j then (k, v) :: t
    else (j, u) :: tableWrite k v t

/-- `SeqEq(a, b)` (R91): the same length and the same symbol at every position. -/
def seqEq : SymSeq → SymSeq → Bool
  | [], [] => true
  | a :: s, b :: t => a == b && seqEq s t
  | _, _ => false

/-- A dictionary map, held as its entries (code, sequence) in rising order of code. `REV` is read by the code and `FWD` by
the sequence (R50): both maps are sets of such pairs. -/
abbrev Dict := Table SymSeq

/-- `FwdLookup(s)` (R92): the code stored for the sequence equal to `s`, none where `s` is not in `FWD`. -/
def fwdLookup (s : SymSeq) : Dict → Option Nat
  | [] => none
  | (c, t) :: d => if seqEq s t then some c else fwdLookup s d

/-- `RevLookup(c)` (R94): the sequence stored for the code `c`, none where `c` is not in `REV`. -/
def revLookup (c : Nat) (d : Dict) : Option SymSeq := tableRead c d

/-- `FWD` is a map from sequences: its entries are in canonical form and no sequence is listed twice (R21, R92). -/
abbrev fwdWf (d : Dict) : Prop := tableWf d ∧ (d.map Prod.snd).Nodup

/-- The seed (R90): code `s` stands for the one-symbol sequence `<s>`, for every `s` in 0 to 255, and nothing else. It is
`{ <s> -> s }` read by sequence and `{ s -> <s> }` read by code. -/
def seedDict : Dict := (List.range Config.seedCount).map (fun s => (s, [BitVec.ofNat 8 s]))

end Sys2Proof.Machine
end

