-- ==== Sys2Proof/Machine/State.lean ====
section
/-!
DEFINITION. The state of the engine, all of it (spec/10_state.md R20), the parameters and the host's side that the step
needs, the reasons a step of the model can stop, and the state after reset.
-/
namespace Sys2Proof.Machine

/-- `PHASE` (R26): which call is in progress. -/
inductive Phase where
  | idle
  | enc
  | dec
  | fault
  deriving DecidableEq, Repr

/-- `ARB` (R29): the match arbiter's last decision. -/
inductive Arb where
  | none
  | encExtend
  | encEmit
  | encFlush
  | decFirst
  | decKnown
  | decSelfref
  | decInvalid
  deriving DecidableEq, Repr

/-- `FCAUSE` (R30, R171): the cause of the fault the engine is in. -/
inductive Cause where
  | none
  | invalidCode
  | illegalCommand
  | protocol
  | badSymbol
  | obufFull
  | dictFull
  deriving DecidableEq, Repr

/-- What the host can do to the engine (spec/00_scope.md R8, spec/70_reset_and_hazards.md R210). -/
inductive HostOp where
  /-- `HostCmd(w)`: present a command word. -/
  | cmd (w : Word)
  /-- `HostReadReg(n)`: read status register `n`. -/
  | readReg (n : Nat)
  /-- `HostReadObuf(i)`: read output-buffer word `i`. -/
  | readObuf (i : Nat)
  /-- `HostReset()`: assert hardware reset. -/
  | reset
  deriving DecidableEq, Repr

/-- Where a step of the MODEL stops with a fault. The engine's own faults are none of these: they are next states, in phase
FAULT (R179). -/
inductive Fault where
  /-- Raised by `emit` when it would write at an index `OBUF_CAP` or above, which does not exist (R25, R58). Safe: only a
  state with `OLEN > OBUF_CAP` gets here, and no run reaches one. -/
  | obufIndex
  /-- Raised by `fwdInsert` and `revInsert` when they would store a code `DICT_CAP` or above, which cannot exist (R5, R93,
  R95). Safe: only a state with `NEXT > DICT_CAP` gets here, and no run reaches one. -/
  | dictCode
  deriving DecidableEq, Repr

/-- Where a step of the MODEL is refused, by name. -/
inductive Refusal where
  /-- Raised by an arm of `exec` whose instruction has no meaning yet; safe. No arm is such an arm. -/
  | notModelled (mnemonic : String)
  /-- Raised by `fwdInsert` and `revInsert` on an insert that would overwrite: R98 and U1 define no behaviour and tell a
  total function to refuse. Safe: no run reaches it. -/
  | insertOverwrites
  /-- Raised by `ENCS` and `ENCE` when they would read `FWD[CUR]` with `CUR` not in `FWD`: R92 defines `FWD[s]` only when
  `s in FWD`. Safe: no run reaches it (R111 b). -/
  | lookupUndefined
  /-- Raised by `DECC` when it would read the first symbol of an empty sequence, `CUR[0]` or `ENTRY[0]`: R7 defines no such
  symbol. Safe: no run reaches it (R131 f). -/
  | emptySequence
  deriving DecidableEq, Repr

/-- The state. The first twelve fields are the engine's, the whole of R20; the last five are the model's own
(notes/assumptions/1.md, 3.md, 5.md, 6.md) and no command writes them. -/
structure State where
  /-- `FWD`, the forward dictionary (R21), as its (code, sequence) entries. -/
  fwd : Dict
  /-- `REV`, the reverse dictionary (R22). -/
  rev : Dict
  /-- `NEXT`, the next-code counter (R23). -/
  nextCode : Nat
  /-- `CUR`, the symbol-sequence buffer (R32). -/
  cur : SymSeq
  /-- `OBUF`, the output buffer (R25): the words written since hardware reset, by index; an unlisted word is unspecified. -/
  obuf : Table Word
  /-- `OLEN`, the number of valid words in `OBUF` (R25). -/
  olen : Nat
  /-- `PHASE` (R26). -/
  phase : Phase
  /-- `DONE` (R27). -/
  doneFlag : Bool
  /-- `FIRST` (R28). -/
  firstFlag : Bool
  /-- `ARB` (R29). -/
  arb : Arb
  /-- `FCAUSE` (R30). -/
  fcause : Cause
  /-- `FINFO` (R31). -/
  finfo : Word
  /-- The parameter `DICT_CAP` (R5): read by commands, written by nothing. -/
  dictCap : Nat
  /-- The parameter `OBUF_CAP` (R5): read by commands, written by nothing. -/
  obufCap : Nat
  /-- The host operations not yet performed, oldest first (R211). -/
  hostIn : List HostOp
  /-- The words returned to the host by its reads, oldest first (R56, R57). -/
  hostOut : List Word
  /-- How many free values the host's reads have drawn (R56, R57). -/
  draws : Nat
  deriving DecidableEq, Repr

/-- The state after hardware reset of an engine with the given capacities (R20, R200), no word of `OBUF` specified and the
host not having done anything. -/
def State.resetWith (dictCap obufCap : Nat) : State where
  fwd := seedDict
  rev := seedDict
  nextCode := Config.firstCode
  cur := []
  obuf := []
  olen := 0
  phase := .idle
  doneFlag := false
  firstFlag := false
  arb := .none
  fcause := .none
  finfo := 0
  dictCap := dictCap
  obufCap := obufCap
  hostIn := []
  hostOut := []
  draws := 0

/-- The machine right after hardware reset (R200), with the capacities notes/assumptions/3.md names. -/
def State.reset : State := State.resetWith Config.resetDictCap Config.resetObufCap

end Sys2Proof.Machine
end

