-- ==== Sys2Proof/Machine/Operands.lean ====
section
/-!
DEFINITION. The two operand forms (spec/30_encoding.md R74): the symbol of `ENCS` and the code of `DECC`; and how a code is
resolved to an entry (spec/42_decode.md R131, R133).
-/
namespace Sys2Proof.Machine

/-- The symbol of an `ENCS` operand: `sym = zext(ARG)` is in the alphabet exactly when `sym <= 255` (R74, R111). -/
def symbolOperand (sym : Arg) : Option Symbol :=
  if sym.toNat ≤ 255 then some (sym.setWidth 8) else none

/-- The code of a `DECC` operand: `code = zext(ARG)`, an integer 0 to 2^24 - 1 (R74). -/
def codeOperand (code : Arg) : Nat := code.toNat

/-- What the decode-side arbiter makes of a code. -/
inductive Resolution where
  /-- It resolves to the sequence `ENTRY`, by the decision `arb`. -/
  | entry (seq : SymSeq) (arb : Arb)
  /-- It resolves by no case: INVALID_CODE. -/
  | invalid
  /-- The self-referential case would read `CUR[0]` of an empty `CUR`, which R131 (f) shows no run does. -/
  | undefined
  deriving DecidableEq, Repr

/-- The self-referential entry `CUR ++ <CUR[0]>` (R131). -/
def selfrefEntry : SymSeq → Resolution
  | [] => .undefined
  | a :: t => .entry (a :: t ++ [a]) .decSelfref

/-- The decode-side match arbiter (R131, R133): with `FIRST == 1` the reverse lookup alone; with `FIRST == 0` the reverse
lookup, then `code == NEXT`, then failure. -/
def resolveCode (code : Nat) (s : State) : Resolution :=
  match revLookup code s.rev with
  | some e => .entry e (if s.firstFlag then .decFirst else .decKnown)
  | none =>
    if s.firstFlag then .invalid
    else if code = s.nextCode then selfrefEntry s.cur
    else .invalid

end Sys2Proof.Machine
end

