-- ==== Sys2Proof/WellFormed.lean ====
section
/-!
DEFINITION. The well-formed command words: the predicate `Legal(w)` of spec/30_encoding.md R73. A term of `Instr` has no
ill-formed value, since its operands are the 24-bit fields themselves; what can be ill-formed is a word.
-/
namespace Sys2Proof

/-- The operation codes whose commands take no operand: DRST, ENCB, ENCE, DECB, DECE (R72). -/
def takesNoOperand (op : BitVec 4) : Bool := op == 0x1 || op == 0x2 || op == 0x4 || op == 0x5 || op == 0x7

/-- The operation codes whose commands take an operand: ENCS, DECC (R72). -/
def takesOperand (op : BitVec 4) : Bool := op == 0x3 || op == 0x6

/-- `Legal(w)` (R73): the reserved field is 0, the operation code is not reserved, and a command without an operand has
`ARG == 0`. -/
def legal (w : Word) : Bool :=
  if Machine.rsvField w ≠ 0 then false
  else if takesNoOperand (Machine.opField w) then Machine.argField w == 0
  else takesOperand (Machine.opField w)

end Sys2Proof
end

