-- ==== Sys2Proof/Decode.lean ====
section
/-!
DEFINITION. The decoder and the encoder of format C (spec/30_encoding.md R71 to R75, R77). The decoder is total on all
2^32 words; an illegal word has the one outcome `Decoded.illegal`.
-/
namespace Sys2Proof

/-- A command without an operand requires `ARG == 0` (R71, R73). -/
def noOperand (arg : Arg) (i : Instr) : Decoded :=
  if arg = 0 then .command i else .illegal

/-- The command of operation code `op` with operand field `arg`, the reserved field being 0 (R72). -/
def decodeOp (op : BitVec 4) (arg : Arg) : Decoded :=
  match op.toNat with
  | 1 => noOperand arg .drst
  | 2 => noOperand arg .encb
  | 3 => .command (.encs arg)
  | 4 => noOperand arg .ence
  | 5 => noOperand arg .decb
  | 6 => .command (.decc arg)
  | 7 => noOperand arg .dece
  | _ => .illegal

/-- The decoder of R73. -/
def decode (w : Word) : Decoded :=
  if Machine.rsvField w = 0 then decodeOp (Machine.opField w) (Machine.argField w) else .illegal

/-- `Encode` of R77: the word of a command. -/
def encode : Instr → Word
  | .drst => Machine.wordOf 0x1 0
  | .encb => Machine.wordOf 0x2 0
  | .encs sym => Machine.wordOf 0x3 sym
  | .ence => Machine.wordOf 0x4 0
  | .decb => Machine.wordOf 0x5 0
  | .decc code => Machine.wordOf 0x6 code
  | .dece => Machine.wordOf 0x7 0

/-- The word of a row of spec/opcode_table.json: its first `nbits` bits are those of `w`, every higher bit is 0. A command
is one word (R70), so nothing is laid out in bytes. -/
def tableWord (nbits w : Nat) : Word := BitVec.ofNat 32 (w % 2 ^ nbits)

/-- What the decoder reads from a word numbered as spec/opcode_table.json numbers it; none where it is illegal. -/
def decodeTableWord (nbits w : Nat) : Option Instr :=
  match decode (tableWord nbits w) with
  | .command i => some i
  | .illegal => none

end Sys2Proof
end

