-- ==== Sys2Proof/Machine/Flags.lean ====
section
/-!
DEFINITION. The numeric codes of PHASE, ARB and FCAUSE, the STATUS word and the six registers the host can read
(spec/10_state.md R26, R29, R30, R33).
-/
namespace Sys2Proof.Machine

/-- The value of `PHASE` in `STATUS[1:0]` (R26). -/
def phaseBits : Phase → BitVec 2
  | .idle => 0
  | .enc => 1
  | .dec => 2
  | .fault => 3

/-- The value of `ARB` in `STATUS[10:8]` (R29). -/
def arbBits : Arb → BitVec 3
  | .none => 0
  | .encExtend => 1
  | .encEmit => 2
  | .encFlush => 3
  | .decFirst => 4
  | .decKnown => 5
  | .decSelfref => 6
  | .decInvalid => 7

/-- The value of `FCAUSE` (R30, R171). -/
def causeCode : Cause → Nat
  | .none => 0
  | .invalidCode => 1
  | .illegalCommand => 2
  | .protocol => 3
  | .badSymbol => 4
  | .obufFull => 5
  | .dictFull => 6

/-- Register 0, `STATUS` (R33): `PHASE` in [1:0], `DONE` in [2], `FIRST` in [3], zeros in [7:4], `ARB` in [10:8], zeros in
[31:11]. -/
def statusWord (s : State) : Word :=
  0#21 ++ arbBits s.arb ++ 0#4 ++ BitVec.ofBool s.firstFlag ++ BitVec.ofBool s.doneFlag ++ phaseBits s.phase

/-- The defined registers (R33, R56); none for the reserved numbers 6 and above. -/
def regRead (n : Nat) (s : State) : Option Word :=
  match n with
  | 0 => some (statusWord s)
  | 1 => some (zextNat s.nextCode)
  | 2 => some (zextNat s.cur.length)
  | 3 => some (zextNat s.olen)
  | 4 => some (zextNat (causeCode s.fcause))
  | 5 => some s.finfo
  | _ => none

/-- The valid words of `OBUF` (R25, R57): `OBUF[i]` for `i < OLEN`, and none for every other index. -/
def obufRead (i : Nat) (s : State) : Option Word :=
  if i < s.olen then tableRead i s.obuf else none

end Sys2Proof.Machine
end

