-- ==== Sys2Proof/Machine/Ops.lean ====
section
/-!
DEFINITION. The operations every command is made of: chaining, fault entry and the fault state (spec/60_exceptions.md R179 to
R183), `DictReset` and the two inserts (spec/40_dictionary.md R90, R93, R95, R98), and `Emit` (spec/20_memory.md R58).
-/
namespace Sys2Proof.Machine

/-- The answer of a step or of part of one. -/
abbrev Result := Host.Outcome State Fault Refusal

/-- The first part of a command, then the rest of it: a stop of the first part is a stop of the whole. -/
def andThen (o : Result) (f : State → Result) : Result :=
  match o with
  | .next s => f s
  | .fault r => .fault r
  | .refused r => .refused r

/-- Fault entry (R179): exactly these writes and nothing else. It is the machine's one exception entry. -/
def faultEntry (cause : Cause) (info : Word) (s : State) : State :=
  { s with
    phase := .fault
    fcause := cause
    finfo := info
    olen := 0
    doneFlag := false
    arb := if cause = .invalidCode then .decInvalid else s.arb }

/-- `raise Fault(cause, info)` (R8, R179): the command is abandoned, none of its writes made. -/
def raiseFault (cause : Cause) (info : Word) (s : State) : Result := .next (faultEntry cause info s)

/-- In phase FAULT a word is discarded without any change of state (R180). -/
def discard (s : State) : Result := .next s

/-- A command legal in one phase only (R183): discarded in FAULT, a PROTOCOL fault that records the command word in any
other phase (R174), its own effect in its phase. -/
def inPhase (p : Phase) (i : Instr) (s : State) (effect : Result) : Result :=
  if s.phase = .fault then discard s
  else if s.phase = p then effect
  else raiseFault .protocol (encode i) s

/-- An illegal word (R173, R180): ILLEGAL_COMMAND, recording the word; discarded in FAULT. -/
def illegalCommand (w : Word) (s : State) : Result :=
  if s.phase = .fault then discard s else raiseFault .illegalCommand w s

/-- `DictReset()` (R90): both maps and `NEXT`, nothing else. -/
def dictReset (s : State) : State :=
  { s with fwd := seedDict, rev := seedDict, nextCode := Config.firstCode }

/-- The state in which `DRST` leaves the engine (R97), and the way out of phase FAULT (R181). Hardware reset differs in the
words of `OBUF` only (R201). -/
def clearEngine (s : State) : State :=
  { dictReset s with
    cur := []
    olen := 0
    phase := .idle
    doneFlag := false
    firstFlag := false
    arb := .none
    fcause := .none
    finfo := 0 }

/-- The begin of a call (R110, R130): reset the dictionary, empty `CUR` and `OBUF`, clear `DONE` and `ARB`, set `FIRST` and
`PHASE` as the direction wants. -/
def beginCall (p : Phase) (first : Bool) (s : State) : State :=
  { dictReset s with
    cur := []
    olen := 0
    doneFlag := false
    firstFlag := first
    arb := .none
    phase := p }

/-- `Emit(v)` (R58): word `OLEN`, then `OLEN + 1`. The caller has checked the room; past the capacity no word exists. -/
def emit (v : Word) (s : State) : Result :=
  if s.olen < s.obufCap then .next { s with obuf := tableWrite s.olen v s.obuf, olen := s.olen + 1 }
  else .fault .obufIndex

/-- `for i in 0 .. len(ENTRY)-1 : Emit(ENTRY[i])` (R131). -/
def emitAll : SymSeq → State → Result
  | [], s => .next s
  | a :: t, s => andThen (emit (zextSymbol a) s) (emitAll t)

/-- `FwdInsert(t)` (R93): `FWD[t] <- NEXT`, `NEXT <- NEXT + 1`. The callers establish the preconditions; an insert that
would overwrite is refused (R98, U1). -/
def fwdInsert (t : SymSeq) (s : State) : Result :=
  if s.nextCode < s.dictCap then
    if (fwdLookup t s.fwd).isSome || (tableRead s.nextCode s.fwd).isSome then .refused .insertOverwrites
    else .next { s with fwd := tableWrite s.nextCode t s.fwd, nextCode := s.nextCode + 1 }
  else .fault .dictCode

/-- `RevInsert(t)` (R95): `REV[NEXT] <- t`, `NEXT <- NEXT + 1`. The callers establish the preconditions; an insert that
would overwrite is refused (R98, U1). -/
def revInsert (t : SymSeq) (s : State) : Result :=
  if s.nextCode < s.dictCap then
    if (revLookup s.nextCode s.rev).isSome then .refused .insertOverwrites
    else .next { s with rev := tableWrite s.nextCode t s.rev, nextCode := s.nextCode + 1 }
  else .fault .dictCode

/-- Emit the code of `CUR` (R113: "Every emission is of the code of `CUR`"). -/
def emitCodeOfCur (s : State) : Result :=
  match fwdLookup s.cur s.fwd with
  | some c => emit (zextNat c) s
  | none => .refused .lookupUndefined

end Sys2Proof.Machine
end

