-- ==== Sys2Proof/Machine/Decoder.lean ====
section
/-!
DEFINITION. The decoder commands DECB, DECC, DECE (spec/42_decode.md R130 to R133).
-/
namespace Sys2Proof.Machine

/-- `DECB` (R130): legal in IDLE. -/
def execDecb (s : State) : Result := inPhase .idle .decb s (.next (beginCall .dec true s))

/-- The first code of a call, resolved to `e` (R131, step 3): output it, insert nothing. -/
def decFirst (e : SymSeq) (a : Arb) (s : State) : Result :=
  andThen (emitAll e s) fun s₁ => .next { s₁ with cur := e, firstFlag := false, arb := a }

/-- A subsequent code, resolved to `e` (R131, step 4): output it, insert `CUR ++ <ENTRY[0]>`, and make it `CUR`. -/
def decSubsequent (e : SymSeq) (a : Arb) (s : State) : Result :=
  match e with
  | [] => .refused .emptySequence
  | h :: _ =>
    andThen (emitAll e s) fun s₁ =>
      andThen (revInsert (s.cur ++ [h]) s₁) fun s₂ => .next { s₂ with cur := e, arb := a }

/-- A resolved code (R131): the room check on exact integers (R96), then for a subsequent code the dictionary's capacity;
`w` is the command word, which both faults record. -/
def decEntry (e : SymSeq) (a : Arb) (w : Word) (s : State) : Result :=
  if s.olen + e.length > s.obufCap then raiseFault .obufFull w s
  else if s.firstFlag then decFirst e a s
  else if s.nextCode = s.dictCap then raiseFault .dictFull w s
  else decSubsequent e a s

/-- `DECC code` in phase DEC (R131): the arbiter, then the resolved code or INVALID_CODE with the code (R172). -/
def decStep (code : Arg) (s : State) : Result :=
  match resolveCode (codeOperand code) s with
  | .entry e a => decEntry e a (encode (.decc code)) s
  | .invalid => raiseFault .invalidCode (zextArg code) s
  | .undefined => .refused .emptySequence

/-- `DECC code` (R131): legal in DEC. -/
def execDecc (code : Arg) (s : State) : Result := inPhase .dec (.decc code) s (decStep code s)

/-- `DECE` in phase DEC (R132): `ARB`, the dictionary and the output are left as they are. -/
def decFinish (s : State) : State :=
  { s with cur := [], firstFlag := false, phase := .idle, doneFlag := true }

/-- `DECE` (R132): legal in DEC. -/
def execDece (s : State) : Result := inPhase .dec .dece s (.next (decFinish s))

end Sys2Proof.Machine
end

