-- ==== Sys2Proof/Machine/Dictionary.lean ====
section
/-!
DEFINITION. The command DRST (spec/40_dictionary.md R97).
-/
namespace Sys2Proof.Machine

/-- `DRST` (R97): legal in every phase, FAULT included; it cannot fault. -/
def execDrst (s : State) : Result := .next (clearEngine s)

end Sys2Proof.Machine
end

