-- ==== Sys2Proof/Machine/Encoder.lean ====
section
/-!
DEFINITION. The encoder commands ENCB, ENCS, ENCE (spec/41_encode.md R110 to R113).
-/
namespace Sys2Proof.Machine

/-- `ENCB` (R110): legal in IDLE. -/
def execEncb (s : State) : Result := inPhase .idle .encb s (.next (beginCall .enc false s))

/-- The arbiter's extend (R111): `CUR <- CAND`. -/
def encExtend (a : Symbol) (s : State) : State :=
  { s with cur := s.cur ++ [a], arb := .encExtend }

/-- The arbiter's emit, insert, restart (R111): emit the code of `CUR`, insert `CAND`, restart with the symbol. -/
def encEmit (a : Symbol) (s : State) : Result :=
  andThen (emitCodeOfCur s) fun s₁ =>
    andThen (fwdInsert (s.cur ++ [a]) s₁) fun s₂ => .next { s₂ with cur := [a], arb := .encEmit }

/-- One symbol of the alphabet through the comparator and the arbiter (R111, R113); `w` is the command word, which the
capacity faults record (R176, R177). -/
def encSymbol (a : Symbol) (w : Word) (s : State) : Result :=
  if (fwdLookup (s.cur ++ [a]) s.fwd).isSome then .next (encExtend a s)
  else if s.olen = s.obufCap then raiseFault .obufFull w s
  else if s.nextCode = s.dictCap then raiseFault .dictFull w s
  else encEmit a s

/-- `ENCS sym` in phase ENC (R111): BAD_SYMBOL is tested before the dictionary is read (R175). -/
def encStep (sym : Arg) (s : State) : Result :=
  match symbolOperand sym with
  | none => raiseFault .badSymbol (zextArg sym) s
  | some a => encSymbol a (encode (.encs sym)) s

/-- `ENCS sym` (R111): legal in ENC. -/
def execEncs (sym : Arg) (s : State) : Result := inPhase .enc (.encs sym) s (encStep sym s)

/-- The end of an encode call (R112): `CUR` cleared, back to IDLE with `DONE`. -/
def encFinish (a : Arb) (s : State) : State :=
  { s with cur := [], phase := .idle, doneFlag := true, arb := a }

/-- `ENCE` in phase ENC (R112): flush the pending match, if there is one. -/
def encFlush (s : State) : Result :=
  if s.cur = [] then .next (encFinish .none s)
  else if s.olen = s.obufCap then raiseFault .obufFull (encode .ence) s
  else andThen (emitCodeOfCur s) fun s₁ => .next (encFinish .encFlush s₁)

/-- `ENCE` (R112): legal in ENC. -/
def execEnce (s : State) : Result := inPhase .enc .ence s (encFlush s)

end Sys2Proof.Machine
end

