-- ==== Sys2Proof/Machine/Dispatch.lean ====
section
/-!
DEFINITION. What each command does: one arm per constructor of Instr.
-/
namespace Sys2Proof.Machine

def exec (i : Instr) (s : State) : Host.Outcome State Fault Refusal :=
  match i with
  | .drst => Sys2Proof.Machine.execDrst s
  | .encb => Sys2Proof.Machine.execEncb s
  | .encs sym => Sys2Proof.Machine.execEncs sym s
  | .ence => Sys2Proof.Machine.execEnce s
  | .decb => Sys2Proof.Machine.execDecb s
  | .decc code => Sys2Proof.Machine.execDecc code s
  | .dece => Sys2Proof.Machine.execDece s

end Sys2Proof.Machine
end

