-- ==== Sys2Proof/Machine/HostPort.lean ====
section
/-!
DEFINITION. The four host operations (spec/20_memory.md R56, R57, R59; spec/70_reset_and_hazards.md R200, R210).
-/
namespace Sys2Proof.Machine

/-- `HostCmd(w)` (R59): the word is executed to completion, a fault entry included. -/
def hostCmd (w : Word) (s : State) : Result :=
  match decode w with
  | .command i => exec i s
  | .illegal => illegalCommand w s

/-- A read returns `v` to the host; where the spec leaves the value unspecified (none) it returns a free value, a new one
for every such read (R56, R57). No engine state changes (R54). -/
def hostReturn (v : Option Word) (s : State) : State :=
  match v with
  | some w => { s with hostOut := s.hostOut ++ [w] }
  | none => { s with hostOut := s.hostOut ++ [Config.freeWord s.draws], draws := s.draws + 1 }

/-- `HostReset()` (R200): every item of R20 takes its reset value and every word of `OBUF` becomes unspecified; what the
host has still to do and has got back is not the engine's. -/
def hostReset (s : State) : State := { clearEngine s with obuf := [] }

/-- One host operation (R210). -/
def hostOp (op : HostOp) (s : State) : Result :=
  match op with
  | .cmd w => hostCmd w s
  | .readReg n => .next (hostReturn (regRead n s) s)
  | .readObuf i => .next (hostReturn (obufRead i s) s)
  | .reset => .next (hostReset s)

/-- The host presents the word `w` next. -/
def presentWord (w : Word) (s : State) : State := { s with hostIn := .cmd w :: s.hostIn }

/-- Take the oldest pending host operation and perform it; with none pending the engine does nothing (R10, R189, R211). -/
def performNext (s : State) : Result :=
  match s.hostIn with
  | [] => .next s
  | op :: rest => hostOp op { s with hostIn := rest }

end Sys2Proof.Machine
end

