-- ==== Sys2Proof/Machine/Step.lean ====
section
/-!
DEFINITION. One step of the machine: the oldest pending host operation, performed to completion (spec/20_memory.md R59).
-/
namespace Sys2Proof.Machine

/-- One step (R59): the host's next operation. There is no program counter and no fetch (R35). -/
def step (s : State) : Host.Outcome State Fault Refusal := performNext s

/-- `s` with the word of a row of the opcode table as the host's next operation, so that the very next step executes it. -/
def State.withFetchWord (s : State) (nbits w : Nat) : State := presentWord (tableWord nbits w) s

end Sys2Proof.Machine
end

