-- ==== Sys2Proof/Machine/Arena.lean ====
section
/-!
DEFINITION. The storage form the document recommends (spec/10_state.md R37, informative): each code of 256 or more as a
parent code and one appended symbol. It is a refinement of the maps of R21 and R22, and no command reads it.
-/
namespace Sys2Proof.Machine

/-- An arena: the pair `(PARENT[c], SYM[c])` of each code `c >= 256`. -/
abbrev Arena := Table (Nat × Symbol)

/-- `seq(c)` (R37), by at most `fuel` parent steps: `<c>` for a seed code, else the parent's sequence and the symbol. A parent
is a smaller code. -/
def arenaSeq (fuel : Nat) (a : Arena) (c : Nat) : Option SymSeq :=
  if c < Config.seedCount then some [BitVec.ofNat 8 c]
  else
    match fuel with
    | 0 => none
    | f + 1 =>
      match tableRead c a with
      | some (p, x) => if p < c then (arenaSeq f a p).map (fun t => t ++ [x]) else none
      | none => none

/-- The forward lookup in arena form (R37): the code whose parent is `p` and whose symbol is `x`. -/
def arenaChild (p : Nat) (x : Symbol) : Arena → Option Nat
  | [] => none
  | (c, e) :: a => if e.1 = p ∧ e.2 = x then some c else arenaChild p x a

/-- The arena of a dictionary: for each entry with a code of 256 or more, the code of its one-shorter sequence and its last
symbol. -/
def arenaOf (d : Dict) : Arena :=
  d.filterMap fun e =>
    if e.1 < Config.seedCount then none
    else
      match fwdLookup e.2.dropLast d, e.2.getLast? with
      | some p, some x => some (e.1, (p, x))
      | _, _ => none

end Sys2Proof.Machine
end

