-- ==== Sys2Proof/Machine/Assembler.lean ====
section
/-!
DEFINITION. The textual form of commands and the two pseudo-instructions (spec/30_encoding.md R77, R78): the assembler the
host uses. A line is a list of characters; it assembles to commands or is refused (none).
-/
namespace Sys2Proof.Machine

/-- What separates a mnemonic from its operand (notes/assumptions/16.md). -/
def isBlank (c : Char) : Bool := c == ' ' || c == '\t'

/-- A line without the blanks at its two ends. -/
def trimBlanks (l : List Char) : List Char := ((l.dropWhile isBlank).reverse.dropWhile isBlank).reverse

/-- The quotation mark that opens and closes a text (R78). -/
def quoteMark : Char := Char.ofNat 34

/-- The single quote that stands on both sides of a character operand (R77). -/
def singleQuote : Char := Char.ofNat 39

/-- The value of a digit in base 10 or 16. -/
def digitValue (base : Nat) (c : Char) : Option Nat :=
  let v :=
    if '0' ≤ c ∧ c ≤ '9' then some (c.toNat - 48)
    else if 'a' ≤ c ∧ c ≤ 'f' then some (c.toNat - 87)
    else if 'A' ≤ c ∧ c ≤ 'F' then some (c.toNat - 55)
    else none
  v.filter (fun n => n < base)

/-- The value of a digit string after `acc`; none where a character is no digit. -/
def digitsValue (base acc : Nat) : List Char → Option Nat
  | [] => some acc
  | c :: cs =>
    match digitValue base c with
    | some v => digitsValue base (acc * base + v) cs
    | none => none

/-- A numeral (R77): decimal, or hexadecimal after `0x`. -/
def numeral (l : List Char) : Option Nat :=
  match l with
  | [] => none
  | [c] => digitsValue 10 0 [c]
  | a :: b :: ds =>
    if a = '0' ∧ b = 'x' then (if ds.isEmpty then none else digitsValue 16 0 ds)
    else digitsValue 10 0 (a :: b :: ds)

/-- The assembler refuses an operand that does not fit 24 bits (R77). -/
def fitArg (n : Nat) : Option Arg := if n < 2 ^ 24 then some (BitVec.ofNat 24 n) else none

/-- A numeral operand (R77). -/
def numeralOperand (l : List Char) : Option Arg := (numeral l).bind fitArg

/-- The ordinal of a character, which must be 0 to 255 (R77). -/
def charOrdinal (c : Char) : Option Arg := if c.toNat ≤ 255 then some (BitVec.ofNat 24 c.toNat) else none

/-- The operand of `ENCS` (R77): a numeral, or a character in single quotes. -/
def encsOperand (l : List Char) : Option Arg :=
  match l with
  | [a, c, b] => if a = singleQuote ∧ b = singleQuote then charOrdinal c else numeralOperand l
  | _ => numeralOperand l

/-- The items of a list, between its commas; `acc` is the item being read, reversed. DEDUCED
(notes/assumptions/16.md): a comma in single quotes is a character operand (R77) and separates nothing. -/
def splitItems (acc : List Char) : List Char → List (List Char)
  | [] => [acc.reverse]
  | a :: b :: c :: t =>
    if a = singleQuote ∧ c = singleQuote then splitItems (c :: b :: a :: acc) t
    else if a = ',' then acc.reverse :: splitItems [] (b :: c :: t)
    else splitItems (a :: acc) (b :: c :: t)
  | a :: t => if a = ',' then acc.reverse :: splitItems [] t else splitItems (a :: acc) t

/-- All of a list's answers, or none. -/
def allSome {α β : Type} (f : α → Option β) : List α → Option (List β)
  | [] => some []
  | x :: xs =>
    match f x, allSome f xs with
    | some y, some ys => some (y :: ys)
    | _, _ => none

/-- The inside of a bracketed list (R78): operands between commas, `operand` reading each as the command the item expands to
does. An empty item is no operand (notes/assumptions/16.md). -/
def operandList (operand : List Char → Option Arg) (l : List Char) : Option (List Arg) :=
  if (trimBlanks l).isEmpty then some []
  else allSome (fun p => operand (trimBlanks p)) (splitItems [] l)

/-- What stands between the opening mark `o` and the closing mark `c` at the two ends; none where they do not stand there. -/
def between (o c : Char) (l : List Char) : Option (List Char) :=
  match l with
  | [] => none
  | a :: t =>
    match t.getLast? with
    | some b => if a = o ∧ b = c then some t.dropLast else none
    | none => none

/-- The symbols of a quoted text (R7, R78): the ordinals of its characters. DESIGN CHOICE (notes/assumptions/16.md): a text
that itself holds a quotation mark is refused, since R7 and R78 give no escape and do not say how such a text reads. -/
def quotedText (l : List Char) : Option (List Arg) :=
  match between quoteMark quoteMark l with
  | some t => if quoteMark ∈ t then none else allSome charOrdinal t
  | none => none

/-- The operand of `ENCODE` (R78): a quoted text, or a list in angle brackets of `ENCS` operands. -/
def encodeOperand (l : List Char) : Option (List Arg) :=
  match quotedText l with
  | some xs => some xs
  | none => (between '<' '>' l).bind (operandList encsOperand)

/-- A command without an operand: nothing may follow its mnemonic. -/
def bareLine (rest : List Char) (i : Instr) : Option (List Instr) := if rest.isEmpty then some [i] else none

/-- The commands of a mnemonic and the text after it (R72, R77, R78). -/
def assembleMnemonic (m rest : List Char) : Option (List Instr) :=
  if m = ['D', 'R', 'S', 'T'] then bareLine rest .drst
  else if m = ['E', 'N', 'C', 'B'] then bareLine rest .encb
  else if m = ['E', 'N', 'C', 'S'] then (encsOperand rest).map (fun a => [.encs a])
  else if m = ['E', 'N', 'C', 'E'] then bareLine rest .ence
  else if m = ['D', 'E', 'C', 'B'] then bareLine rest .decb
  else if m = ['D', 'E', 'C', 'C'] then (numeralOperand rest).map (fun a => [.decc a])
  else if m = ['D', 'E', 'C', 'E'] then bareLine rest .dece
  else if m = ['E', 'N', 'C', 'O', 'D', 'E'] then
    (encodeOperand rest).map (fun xs => .encb :: xs.map .encs ++ [.ence])
  else if m = ['D', 'E', 'C', 'O', 'D', 'E'] then
    ((between '[' ']' rest).bind (operandList numeralOperand)).map (fun cs => .decb :: cs.map .decc ++ [.dece])
  else none

/-- One line (R77): the comment removed, then nothing, or a mnemonic and its operand. -/
def assembleLine (line : List Char) : Option (List Instr) :=
  let l := trimBlanks (line.takeWhile (fun c => c != '#'))
  if l.isEmpty then some []
  else assembleMnemonic (l.takeWhile (fun c => !isBlank c)) (trimBlanks (l.dropWhile (fun c => !isBlank c)))

/-- The command words of a line (R77, R78). -/
def assembleWords (line : List Char) : Option (List Word) := (assembleLine line).map (fun is => is.map encode)

end Sys2Proof.Machine
end

