-- ==== Sys2Proof/Machine/Ratio.lean ====
section
/-!
DEFINITION. The host-side ratio helper (spec/43_contracts_and_helpers.md R160): no command of the engine computes it.
-/
namespace Sys2Proof.Machine

/-- Original bits over compressed bits, an exact rational; none (refused) where the denominator is 0 (R160, U8). -/
def ratio (nSym nCode bitsPerCode : Nat) : Option Rat :=
  if nCode * bitsPerCode = 0 then none
  else some (mkRat (nSym * Config.bitsPerSymbol) (nCode * bitsPerCode))

/-- The helper with its documented default of 12 bits per code (R160). -/
def ratioDefault (nSym nCode : Nat) : Option Rat := ratio nSym nCode Config.bitsPerCode

end Sys2Proof.Machine
end

