-- ==== Sys2Proof/Machine/Reference.lean ====
section
/-!
DEFINITION. The reference functions `encode_ref` and `decode_ref` (spec/41_encode.md R114, spec/42_decode.md R134): the
document's unbounded algorithm, on sequences, with no capacity and no engine.
-/
namespace Sys2Proof.Machine

/-- The codes the rest of an encode call appends to `out` (R114), from the local dictionary `d`, the local counter `next` and
the local `cur`, on the input still to come. `D[cur]` is written as the list of the codes `d` gives `cur`: exactly one
wherever the algorithm reads it, since there `cur` is in `d` (notes/assumptions/18.md). -/
def encodeFrom (d : Dict) (next : Nat) (cur : SymSeq) : SymSeq → List Nat
  | [] => if cur = [] then [] else (fwdLookup cur d).toList
  | a :: x =>
    if (fwdLookup (cur ++ [a]) d).isSome then encodeFrom d next (cur ++ [a]) x
    else (fwdLookup cur d).toList ++ encodeFrom (d ++ [(next, cur ++ [a])]) (next + 1) [a] x

/-- `encode_ref(x)` (R114). -/
def encodeRef (x : SymSeq) : List Nat := encodeFrom seedDict Config.firstCode [] x

/-- How many symbols of the input still to come extend a non-empty `cur` (R118). -/
def extendsFrom (d : Dict) (next : Nat) (cur : SymSeq) : SymSeq → Nat
  | [] => 0
  | a :: x =>
    if (fwdLookup (cur ++ [a]) d).isSome then
      (if cur = [] then 0 else 1) + extendsFrom d next (cur ++ [a]) x
    else extendsFrom (d ++ [(next, cur ++ [a])]) (next + 1) [a] x

/-- How many `ENCS` commands of an encode call on `x` take the extend branch with `CUR` non-empty (R118). -/
def encodeExtends (x : SymSeq) : Nat := extendsFrom seedDict Config.firstCode [] x

/-- What `decode_ref` returns (R134): a symbol sequence, or `InvalidCodeError(code)` in its place. -/
inductive RefDecoded where
  | symbols (y : SymSeq)
  | invalidCode (code : Nat)
  deriving DecidableEq, Repr

/-- `out ++ e` before the rest of the output; an error stays the error, with no partial output (R134). -/
def prependOutput (e : SymSeq) : RefDecoded → RefDecoded
  | .symbols y => .symbols (e ++ y)
  | .invalidCode c => .invalidCode c

/-- The entry of a subsequent code (R134): known, or self-referential `cur ++ <cur[0]>`, or none. `<cur[0]>` is `cur.take 1`,
one symbol wherever the algorithm reads it, since there `cur` is not empty (notes/assumptions/18.md). -/
def refEntry (c : Nat) (r : Dict) (next : Nat) (cur : SymSeq) : Option SymSeq :=
  match revLookup c r with
  | some e => some e
  | none => if c = next then some (cur ++ cur.take 1) else none

/-- What the rest of a decode call returns (R134), from the local dictionary `r`, the local counter and the local `cur`, on
the codes still to come. -/
def decodeFrom (r : Dict) (next : Nat) (cur : SymSeq) : List Nat → RefDecoded
  | [] => .symbols []
  | c :: cs =>
    match refEntry c r next cur with
    | some e => prependOutput e (decodeFrom (r ++ [(next, cur ++ e.take 1)]) (next + 1) e cs)
    | none => .invalidCode c

/-- `decode_ref(cs)` (R134): the first code resolves by the reverse lookup alone (decision D13). -/
def decodeRef : List Nat → RefDecoded
  | [] => .symbols []
  | c :: cs =>
    match revLookup c seedDict with
    | some e => prependOutput e (decodeFrom seedDict Config.firstCode e cs)
    | none => .invalidCode c

end Sys2Proof.Machine
end

