-- ==== Sys2Proof/Machine/Calls.lean ====
section
/-!
DEFINITION. Whole calls as the host makes them, and how the host reads their outcome (spec/30_encoding.md R78;
spec/41_encode.md R115; spec/42_decode.md R135; spec/60_exceptions.md R191; spec/70_reset_and_hazards.md R211).
-/
namespace Sys2Proof.Machine

/-- The commands of `ENCODE <x>` (R78, R115): `ENCB`, one `ENCS` per symbol, `ENCE`. -/
def encodeCommands (x : SymSeq) : List Instr := .encb :: x.map (fun a => .encs (a.setWidth 24)) ++ [.ence]

/-- One `DECC` (R135); a code of 2^24 or more cannot be put in a word and is never given to it. -/
def deccOf (c : Nat) : Instr := .decc (BitVec.ofNat 24 c)

/-- The commands of `DECODE [cs]` (R78, R135): `DECB`, one `DECC` per code, `DECE`. -/
def decodeCommands (cs : List Nat) : List Instr := .decb :: cs.map deccOf ++ [.dece]

/-- The host presents commands in order. -/
def hostCmds (is : List Instr) : List HostOp := is.map (fun i => .cmd (encode i))

/-- The host issues exactly these commands, in order, and no other operation (the single-host premise, R203). -/
def performCommands (is : List Instr) (s : State) : Result :=
  core.run is.length { s with hostIn := hostCmds is }

/-- The output buffer holds exactly the words `ws` as its valid words (R25, R57). -/
abbrev holdsWords (s : State) (ws : List Word) : Prop :=
  s.olen = ws.length ∧ ∀ i, obufRead i s = ws[i]?

/-- A call ended well with the result `ws` (R27, R115, R135, R211). -/
abbrev callResult (s : State) (ws : List Word) : Prop :=
  s.phase = .idle ∧ s.doneFlag = true ∧ s.fcause = .none ∧ holdsWords s ws

/-- A call ended in a capacity failure (R115, R135): FAULT with OBUF_FULL or DICT_FULL, no result. -/
abbrev capacityFailure (s : State) : Prop :=
  s.phase = .fault ∧ (s.fcause = .obufFull ∨ s.fcause = .dictFull) ∧ s.olen = 0 ∧ s.doneFlag = false

/-- The reading of a call's outcome against the document (R191, R211). -/
inductive CallOutcome where
  /-- Ended well; the result is in `OBUF`. -/
  | success
  /-- `InvalidCodeError(code)` (cause 1). -/
  | invalidCode (code : Nat)
  /-- An input outside the alphabet (cause 4): the precondition violation. -/
  | badSymbol (value : Nat)
  /-- Not one of the two command sequences (causes 2 and 3). -/
  | misuse (w : Word)
  /-- Too large for this engine (causes 5 and 6), or for any engine (R135). -/
  | capacity
  /-- The call has not ended, or there was none. -/
  | unfinished
  deriving DecidableEq, Repr

/-- What the host reads from the registers once a call's commands have been performed (R191, R204, R211). -/
def callOutcome (s : State) : CallOutcome :=
  match s.fcause with
  | .invalidCode => .invalidCode s.finfo.toNat
  | .badSymbol => .badSymbol s.finfo.toNat
  | .illegalCommand => .misuse s.finfo
  | .protocol => .misuse s.finfo
  | .obufFull => .capacity
  | .dictFull => .capacity
  | .none => if s.phase = .idle && s.doneFlag then .success else .unfinished

/-- The smallest position at or after `j` whose code cannot be put in a command word, with that code (R135). -/
def firstOversized (j : Nat) : List Nat → Option (Nat × Nat)
  | [] => none
  | c :: cs => if 2 ^ 24 ≤ c then some (j, c) else firstOversized (j + 1) cs

/-- What the host reports of the oversized code `c` at position `j`, without help from the engine (R135). -/
def oversizedReport (j c : Nat) : CallOutcome :=
  if 1 ≤ j ∧ c = 256 + (j - 1) then .capacity else .invalidCode c

/-- What the host issues for a decode call on any code sequence (R135): the whole call, or `DECB` and the codes before the
first oversized one. -/
def decodePlan (cs : List Nat) : List Instr :=
  match firstOversized 0 cs with
  | none => decodeCommands cs
  | some (j, _) => .decb :: (cs.take j).map deccOf

/-- What the host reports once the plan has been performed and `s` is the engine's state (R135): the engine's own outcome,
unless an oversized code stopped the host before the engine faulted. -/
def decodeReport (cs : List Nat) (s : State) : CallOutcome :=
  match firstOversized 0 cs with
  | none => callOutcome s
  | some (j, c) => if s.phase = .fault then callOutcome s else oversizedReport j c

/-- What the host issues after its report (R135): `DRST` where it stopped before an oversized code and made the report itself.
DEDUCED (notes/assumptions/19.md): nothing where the report is the engine's own outcome. -/
def decodeClosing (cs : List Nat) (s : State) : List Instr :=
  match firstOversized 0 cs with
  | none => []
  | some _ => if s.phase = .fault then [] else [.drst]

/-- All the host issues for a decode call on any code sequence (R135): the plan, then what follows the report. -/
def hostDecode (cs : List Nat) (s : State) : Result :=
  andThen (performCommands (decodePlan cs) s) (fun t => performCommands (decodeClosing cs t) t)

end Sys2Proof.Machine
end

