-- ==== Sys2Proof/Safety.lean ====
section
/-!
DEFINITION. The invariants of spec/10_state.md R38, with the facts of the other rules that make them inductive, and what an
observer of the engine sees.
-/
namespace Sys2Proof.Machine

/-- `DICT_CAP` and `OBUF_CAP` are in the ranges the spec leaves open (R5). -/
abbrev capsInRange (s : State) : Prop := Config.dictCapInRange s.dictCap ∧ Config.obufCapInRange s.obufCap

/-- A sequence is stored in a dictionary, under some code. -/
abbrev stored (t : SymSeq) (d : Dict) : Prop := ∃ e ∈ d, e.2 = t

/-- `FWD` holds exactly the codes 0 to NEXT - 1, and `REV` only the seeds (R38 item 2, R24). -/
abbrev denseFwd (s : State) : Prop := s.fwd.map Prod.fst = List.range s.nextCode ∧ s.rev = seedDict

/-- `REV` holds exactly the codes 0 to NEXT - 1, and `FWD` only the seeds (R38 item 2, R24). -/
abbrev denseRev (s : State) : Prop := s.rev.map Prod.fst = List.range s.nextCode ∧ s.fwd = seedDict

/-- The arbiter's decision was one of an encode call (R29). -/
def encodeDecision : Arb → Bool
  | .encExtend => true
  | .encEmit => true
  | .encFlush => true
  | _ => false

/-- The arbiter's decision was one of a decode call (R29). -/
def decodeDecision : Arb → Bool
  | .decFirst => true
  | .decKnown => true
  | .decSelfref => true
  | .decInvalid => true
  | _ => false

/-- A sequence of length 2 or more is stored with its one-shorter prefix under a smaller code (R38 item 3). -/
abbrev prefixClosed (d : Dict) : Prop :=
  ∀ e ∈ d, 2 ≤ e.2.length → ∃ f ∈ d, f.1 < e.1 ∧ f.2 = e.2.dropLast

/-- Lengths of stored sequences (R38 item 6): 1 for a seed code, 2 to `c - 254` for a code `c >= 256`. -/
abbrev lengthsOk (d : Dict) : Prop :=
  ∀ e ∈ d, (e.1 < 256 → e.2.length = 1) ∧ (256 ≤ e.1 → 2 ≤ e.2.length ∧ e.2.length ≤ e.1 - 254)

/-- The invariant of every state a run from hardware reset reaches. -/
structure State.Inv (s : State) : Prop where
  /-- The capacities are in range (R5). -/
  caps : capsInRange s
  /-- R38 item 1: the seeds are the first 256 entries of both maps. -/
  seeds : s.fwd.take 256 = seedDict ∧ s.rev.take 256 = seedDict
  /-- R38 item 2, R23: the range of `NEXT`. -/
  nextRange : 256 ≤ s.nextCode ∧ s.nextCode ≤ s.dictCap
  /-- R38 item 2: one of the maps holds exactly the codes 0 to NEXT - 1, the other its seeds. -/
  dense : denseFwd s ∨ denseRev s
  /-- R38 item 2: in phase ENC and after an encode call it is `FWD`. -/
  denseEnc : s.phase = .enc ∨ encodeDecision s.arb = true → denseFwd s
  /-- R38 item 2: in phase DEC and after a decode call it is `REV`. -/
  denseDec : s.phase = .dec ∨ decodeDecision s.arb = true → denseRev s
  /-- R38 item 2: `FWD` is injective, and a map (R92). -/
  fwdOnce : (s.fwd.map Prod.snd).Nodup
  /-- R38 item 3, both maps. -/
  closed : prefixClosed s.fwd ∧ prefixClosed s.rev
  /-- R38 item 6, both maps. -/
  lengths : lengthsOk s.fwd ∧ lengthsOk s.rev
  /-- `CUR` is empty between calls (R112, R132, D17). -/
  curIdle : s.phase = .idle → s.cur = []
  /-- R38 item 4: empty only before the first `ENCS` of the call. -/
  curEnc : s.phase = .enc → (s.cur = [] ∧ s.nextCode = 256 ∧ s.olen = 0) ∨ stored s.cur s.fwd
  /-- R38 item 5, `FIRST == 1`. -/
  curFirst : s.phase = .dec → s.firstFlag = true → s.cur = [] ∧ s.nextCode = 256 ∧ s.olen = 0
  /-- R38 item 5, `FIRST == 0`. -/
  curDec : s.phase = .dec → s.firstFlag = false → stored s.cur s.rev
  /-- In FAULT `CUR` is as the faulting command found it (R179). -/
  curFault : s.phase = .fault → s.cur = [] ∨ stored s.cur s.fwd ∨ stored s.cur s.rev
  /-- R38 item 7, R30. -/
  causeIffFault : s.phase = .fault ↔ s.fcause ≠ .none
  /-- R38 item 7. -/
  faultNoResult : s.phase = .fault → s.olen = 0 ∧ s.doneFlag = false
  /-- R31: `FINFO` is 0 outside FAULT. -/
  infoZero : s.phase ≠ .fault → s.finfo = 0
  /-- R38 item 8. -/
  doneIdle : s.doneFlag = true → s.phase = .idle ∧ s.cur = [] ∧ s.firstFlag = false
  /-- R38 item 9. -/
  firstDec : s.firstFlag = true → s.phase = .dec ∨ s.phase = .fault
  /-- `OBUF` is in canonical form and its words are at indices below `OBUF_CAP`, upper 8 bits 0 (R25, R58). -/
  obufOk : tableWf s.obuf ∧ ∀ e ∈ s.obuf, e.1 < s.obufCap ∧ e.2.toNat < 2 ^ 24
  /-- R25: `OLEN <= OBUF_CAP`, and every valid word has been written. -/
  validWords : s.olen ≤ s.obufCap ∧ ∀ i < s.olen, (tableRead i s.obuf).isSome

/-- The phase table (R183): the phase after a command that completes normally, none where the entry is a PROTOCOL fault. In
FAULT a command other than `DRST` is discarded. -/
def tablePhase (p : Phase) (i : Instr) : Option Phase :=
  match p, i with
  | _, .drst => some .idle
  | .fault, _ => some .fault
  | .idle, .encb => some .enc
  | .idle, .decb => some .dec
  | .enc, .encs _ => some .enc
  | .enc, .ence => some .idle
  | .dec, .decc _ => some .dec
  | .dec, .dece => some .idle
  | _, _ => none

/-- The fault causes a command may raise in a phase in which it is legal (R171, "raised by"). -/
def mayRaise : Instr → List Cause
  | .drst => []
  | .encb => []
  | .encs _ => [.badSymbol, .obufFull, .dictFull]
  | .ence => [.obufFull]
  | .decb => []
  | .decc _ => [.invalidCode, .obufFull, .dictFull]
  | .dece => []

/-- What a fault of the command `i` records (R31, R171): the operand for INVALID_CODE and BAD_SYMBOL, else the word. -/
def recordedInfo (c : Cause) (i : Instr) : Word :=
  if c = .invalidCode ∨ c = .badSymbol then zextArg (argField (encode i)) else encode i

/-- The capacities suffice for an output of `n` words and `k` codes of the call (R116, R136). -/
abbrev callFits (s : State) (n k : Nat) : Prop := n ≤ s.obufCap ∧ 256 + (k - 1) ≤ s.dictCap

/-- The engine's state is unchanged: every item of R20 (the host's side of the state may differ). -/
abbrev sameEngine (s t : State) : Prop :=
  t.fwd = s.fwd ∧ t.rev = s.rev ∧ t.nextCode = s.nextCode ∧ t.cur = s.cur ∧ t.obuf = s.obuf ∧ t.olen = s.olen ∧
  t.phase = s.phase ∧ t.doneFlag = s.doneFlag ∧ t.firstFlag = s.firstFlag ∧ t.arb = s.arb ∧ t.fcause = s.fcause ∧
  t.finfo = s.finfo

/-- The parameters and the host's side are unchanged: no command writes them. -/
abbrev sameHost (s t : State) : Prop :=
  t.dictCap = s.dictCap ∧ t.obufCap = s.obufCap ∧ t.hostIn = s.hostIn ∧ t.hostOut = s.hostOut ∧ t.draws = s.draws

/-- Every defined observation of the engine agrees (R56, R57, R201): the six registers and the valid words. -/
abbrev sameObserved (s t : State) : Prop := (∀ n, regRead n t = regRead n s) ∧ ∀ i, obufRead i t = obufRead i s

end Sys2Proof.Machine
end

