-- ==== Sys2Proof/Certificates/Slice0/Obligations.lean ====
section
/-!
DEFINITION. The statements about the machine, one definition each; OBLIGATIONS.json lists them with the rules they rest on.
-/
open Sys2Proof Sys2Proof.Machine

/-! Decoding and stepping -/

/-- R59, R10: a pending command word that decodes is executed by `exec`, on the state without it; an illegal one by the
illegal-command operation; the word `withFetchWord` places runs in the very next step; with nothing pending the engine does
nothing (the model's choice, notes/assumptions/2.md). -/
def Obligations.StepRunsDecodedCommand : Prop :=
  (∀ (s : State) (w : Word) (i : Instr) (rest : List HostOp), s.hostIn = .cmd w :: rest → decode w = .command i →
    step s = exec i { s with hostIn := rest }) ∧
  (∀ (s : State) (w : Word) (rest : List HostOp), s.hostIn = .cmd w :: rest → decode w = .illegal →
    step s = illegalCommand w { s with hostIn := rest }) ∧
  (∀ (s : State) (nbits w : Nat) (i : Instr), decodeTableWord nbits w = some i →
    step (s.withFetchWord nbits w) = exec i s) ∧
  (∀ s : State, s.hostIn = [] → step s = .next s)

/-- R72, R73, R75, vectors V-X1 to V-X15: words of every command, and words that are none. -/
def Obligations.TableWordsDecode : Prop :=
  decode 0x10000000 = .command .drst ∧ decode 0x20000000 = .command .encb ∧
  decode 0x30000041 = .command (.encs 65) ∧ decode 0x30000000 = .command (.encs 0) ∧ decode 0x30000100 = .command (.encs 256) ∧
  decode 0x40000000 = .command .ence ∧ decode 0x50000000 = .command .decb ∧
  decode 0x60000102 = .command (.decc 258) ∧ decode 0x60FFFFFF = .command (.decc 0xFFFFFF) ∧
  decode 0x70000000 = .command .dece ∧ decode 0x00000000 = .illegal ∧ decode 0x80000000 = .illegal ∧
  decode 0x61000000 = .illegal ∧ decode 0x40000001 = .illegal ∧ decode 0x70FFFFFF = .illegal

/-- R77: `Encode` followed by the decoder gives back the command and its operand, and every legal word is `Encode` of exactly
one command. -/
def Obligations.DecodeOfEncodeIsIdentity : Prop :=
  (∀ i : Instr, decode (encode i) = .command i) ∧ (∀ w : Word, legal w = true → ∃! i : Instr, encode i = w)

/-- R71, R73: the decoder is the table of masks and matches, and a word is illegal exactly when `Legal` is false. -/
def Obligations.DecoderIsMaskAndMatch : Prop :=
  ∀ w : Word,
    (decode w = .command .drst ↔ w &&& 0xFFFFFFFF = 0x10000000) ∧
    (decode w = .command .encb ↔ w &&& 0xFFFFFFFF = 0x20000000) ∧
    ((∃ sym, decode w = .command (.encs sym)) ↔ w &&& 0xFF000000 = 0x30000000) ∧
    (decode w = .command .ence ↔ w &&& 0xFFFFFFFF = 0x40000000) ∧
    (decode w = .command .decb ↔ w &&& 0xFFFFFFFF = 0x50000000) ∧
    ((∃ code, decode w = .command (.decc code)) ↔ w &&& 0xFF000000 = 0x60000000) ∧
    (decode w = .command .dece ↔ w &&& 0xFFFFFFFF = 0x70000000) ∧
    (decode w = .illegal ↔ legal w = false)

/-- R73: of the 2^32 words, 2 x 2^24 + 5 are legal. -/
def Obligations.LegalWordCount : Prop := {w : Word | legal w = true}.ncard = 2 * 2 ^ 24 + 5

/-! Host reads, registers and reset -/

/-- R56: a register read returns the register of the state left by the last operation, or for a reserved number a free value,
and changes nothing else. Where the free value comes from (`Config.freeWord` of the counter `draws`,
notes/assumptions/5.md) and where the host's words are kept (`hostOut`, notes/assumptions/6.md) are the model's choices. -/
def Obligations.RegisterReadReturnsRegister : Prop :=
  ∀ (s : State) (n : Nat) (rest : List HostOp), s.hostIn = .readReg n :: rest →
    ∃ v, step s = .next { s with
        hostIn := rest, hostOut := s.hostOut ++ [v], draws := if n < 6 then s.draws else s.draws + 1 } ∧
      (n < 6 → regRead n s = some v) ∧ (6 ≤ n → v = Config.freeWord s.draws)

/-- R57: an output-buffer read returns the valid word, or at and beyond `OLEN` a free value, and changes nothing else. Where
the free value comes from (`Config.freeWord` of the counter `draws`, notes/assumptions/5.md) and where the host's words are
kept (`hostOut`, notes/assumptions/6.md) are the model's choices. -/
def Obligations.ObufReadReturnsValidWord : Prop :=
  ∀ (s : State) (i : Nat) (rest : List HostOp), s.Inv → s.hostIn = .readObuf i :: rest →
    ∃ v, step s = .next { s with
        hostIn := rest, hostOut := s.hostOut ++ [v], draws := if i < s.olen then s.draws else s.draws + 1 } ∧
      (i < s.olen → tableRead i s.obuf = some v) ∧ (s.olen ≤ i → v = Config.freeWord s.draws)

/-- R33: the fields of STATUS, the other five registers, and no register above them. -/
def Obligations.RegisterLayout : Prop :=
  ∀ s : State, ∃ w, regRead 0 s = some w ∧
    (w.extractLsb' 0 2).toNat = (match s.phase with | .idle => 0 | .enc => 1 | .dec => 2 | .fault => 3) ∧
    w.getLsbD 2 = s.doneFlag ∧ w.getLsbD 3 = s.firstFlag ∧ w.extractLsb' 4 4 = 0 ∧
    (w.extractLsb' 8 3).toNat = (match s.arb with
      | .none => 0 | .encExtend => 1 | .encEmit => 2 | .encFlush => 3
      | .decFirst => 4 | .decKnown => 5 | .decSelfref => 6 | .decInvalid => 7) ∧
    w.extractLsb' 11 21 = 0 ∧
    regRead 1 s = some (BitVec.ofNat 32 s.nextCode) ∧ regRead 2 s = some (BitVec.ofNat 32 s.cur.length) ∧
    regRead 3 s = some (BitVec.ofNat 32 s.olen) ∧
    (regRead 4 s).map BitVec.toNat = some (match s.fcause with
      | .none => 0 | .invalidCode => 1 | .illegalCommand => 2 | .protocol => 3
      | .badSymbol => 4 | .obufFull => 5 | .dictFull => 6) ∧
    regRead 5 s = some s.finfo ∧ ∀ n, 6 ≤ n → regRead n s = none

/-- R96, R38 item 6: no register of a reachable state wraps, so the three counts are read exactly, and `CUR` has at most
`DICT_CAP - 254` symbols. -/
def Obligations.CountRegistersReadExactly : Prop :=
  ∀ s : State, s.Inv →
    (regRead 1 s).map BitVec.toNat = some s.nextCode ∧ (regRead 2 s).map BitVec.toNat = some s.cur.length ∧
    (regRead 3 s).map BitVec.toNat = some s.olen ∧ s.cur.length ≤ s.dictCap - 254

/-- R20, R200, R33: what hardware reset leaves, for every value of the two parameters. The parameters' own values in
`State.reset` are the model's choice (notes/assumptions/3.md) and are not stated. -/
def Obligations.ResetLeavesResetValues : Prop :=
  ∀ dictCap obufCap : Nat, ∃ s, s = State.resetWith dictCap obufCap ∧
    s.fwd = seedDict ∧ s.rev = seedDict ∧ s.nextCode = 256 ∧ s.cur = [] ∧ s.olen = 0 ∧ s.phase = .idle ∧
    s.doneFlag = false ∧ s.firstFlag = false ∧ s.arb = .none ∧ s.fcause = .none ∧ s.finfo = 0 ∧
    (∀ i, obufRead i s = none) ∧ regRead 0 s = some 0x00000000 ∧ regRead 1 s = some 0x00000100 ∧
    regRead 2 s = some 0 ∧ regRead 3 s = some 0 ∧ regRead 4 s = some 0 ∧ regRead 5 s = some 0

/-- R200: hardware reset puts the engine in its reset state whatever the state before it. That the model's own fields (the
operations the host has still to do, the words it has been given, the counter of free values) are kept is the model's choice
(notes/assumptions/13.md). -/
def Obligations.HardwareResetIgnoresState : Prop :=
  ∀ (s : State) (rest : List HostOp), s.hostIn = .reset :: rest →
    step s = .next { State.resetWith s.dictCap s.obufCap with
      hostIn := rest, hostOut := s.hostOut, draws := s.draws }

/-- R97, R201: `DRST` completes in every state; it leaves what hardware reset leaves except the words of `OBUF`, which stay;
every defined observation agrees with hardware reset; a second `DRST` changes nothing. -/
def Obligations.DrstCompletesEverywhere : Prop :=
  ∀ s : State, ∃ t, exec .drst s = .next t ∧
    t = { State.resetWith s.dictCap s.obufCap with
          obuf := s.obuf, hostIn := s.hostIn, hostOut := s.hostOut, draws := s.draws } ∧
    sameObserved t (hostReset s) ∧ exec .drst t = .next t

/-! The dictionary -/

/-- R90: `DictReset` writes both maps and `NEXT` and nothing else; after it the forward map holds exactly the one-symbol
sequences, under their ordinals, and the reverse map exactly the codes 0 to 255. -/
def Obligations.DictResetSeedsBothMaps : Prop :=
  ∀ s : State, ∃ f r, dictReset s = { s with fwd := f, rev := r, nextCode := 256 } ∧
    (∀ a : Symbol, fwdLookup [a] f = some a.toNat) ∧ (∀ t : SymSeq, t.length ≠ 1 → fwdLookup t f = none) ∧
    (∀ c, c < 256 → revLookup c r = some [BitVec.ofNat 8 c]) ∧ (∀ c, 256 ≤ c → revLookup c r = none)

/-- R91: sequence equality is the same length and the same symbol at every position. -/
def Obligations.SeqEqIsExact : Prop :=
  ∀ a b : SymSeq, seqEq a b = true ↔ a.length = b.length ∧ ∀ i, i < a.length → a[i]? = b[i]?

/-- R92, R94: on maps in their canonical forms both lookups find exactly what is stored. -/
def Obligations.LookupsFindExactlyTheStored : Prop :=
  (∀ (d : Dict) (t : SymSeq) (c : Nat), fwdWf d → (fwdLookup t d = some c ↔ (c, t) ∈ d)) ∧
  (∀ (d : Dict) (c : Nat) (t : SymSeq), tableWf d → (revLookup c d = some t ↔ (c, t) ∈ d))

/-- R93, R95: an insert whose preconditions hold stores the sequence at `NEXT`, advances `NEXT` once, changes no other entry of
its map, and writes nothing else. -/
def Obligations.InsertsAssignNextCode : Prop :=
  (∀ (s : State) (u : SymSeq), fwdLookup u s.fwd = none → tableRead s.nextCode s.fwd = none →
    s.nextCode < s.dictCap → ∃ d, fwdInsert u s = .next { s with fwd := d, nextCode := s.nextCode + 1 } ∧
      fwdLookup u d = some s.nextCode ∧ ∀ v, v ≠ u → fwdLookup v d = fwdLookup v s.fwd) ∧
  (∀ (s : State) (u : SymSeq), revLookup s.nextCode s.rev = none → s.nextCode < s.dictCap →
    ∃ d, revInsert u s = .next { s with rev := d, nextCode := s.nextCode + 1 } ∧
      revLookup s.nextCode d = some u ∧ ∀ c, c ≠ s.nextCode → revLookup c d = revLookup c s.rev)

/-- R58: `Emit` appends one word and writes nothing else; it never fails in a command of a state that meets the invariant; the
upper 8 bits of every valid word of such a state are 0. -/
def Obligations.EmitAppendsOneWord : Prop :=
  (∀ (s : State) (v : Word), s.olen < s.obufCap →
    ∃ o, emit v s = .next { s with obuf := o, olen := s.olen + 1 } ∧ tableRead s.olen o = some v ∧
      ∀ i, i ≠ s.olen → tableRead i o = tableRead i s.obuf) ∧
  (∀ (s : State) (i : Instr), s.Inv → exec i s ≠ .fault .obufIndex) ∧
  (∀ (s : State) (i : Nat) (w : Word), s.Inv → obufRead i s = some w → w.toNat < 2 ^ 24)

/-- R38 item 2, R98: the codes of the two maps together are exactly 0 to NEXT - 1, so `NEXT` is never assigned and no insert
overwrites. -/
def Obligations.NextCodeIsUnassigned : Prop :=
  ∀ s : State, s.Inv →
    (∀ c, c < s.nextCode ↔ ((tableRead c s.fwd).isSome ∨ (revLookup c s.rev).isSome)) ∧
    ∀ i : Instr, exec i s ≠ .refused .insertOverwrites

/-! The encoder -/

/-- R110: `ENCB` in IDLE. -/
def Obligations.EncbBeginsEncodeCall : Prop :=
  ∀ s : State, s.phase = .idle →
    exec .encb s = .next { s with
      fwd := seedDict, rev := seedDict, nextCode := 256, cur := [], olen := 0, doneFlag := false, firstFlag := false,
      arb := .none, phase := .enc }

/-- R111, R113: `ENCS` on a hit extends `CUR` and writes nothing else but `ARB`. -/
def Obligations.EncsHitExtends : Prop :=
  ∀ (s : State) (sym : Arg), s.phase = .enc → sym.toNat ≤ 255 →
    (fwdLookup (s.cur ++ [sym.setWidth 8]) s.fwd).isSome →
    exec (.encs sym) s = .next { s with cur := s.cur ++ [sym.setWidth 8], arb := .encExtend }

/-- R111, R113: `ENCS` on a miss with room emits the code of `CUR`, stores `CAND` at `NEXT`, and restarts with the symbol; no
other word, entry or item changes. -/
def Obligations.EncsMissEmitsAndInserts : Prop :=
  ∀ (s : State) (sym : Arg), s.Inv → s.phase = .enc → sym.toNat ≤ 255 →
    fwdLookup (s.cur ++ [sym.setWidth 8]) s.fwd = none → s.olen ≠ s.obufCap → s.nextCode ≠ s.dictCap →
    ∃ c d o, fwdLookup s.cur s.fwd = some c ∧
      exec (.encs sym) s = .next { s with
        fwd := d, nextCode := s.nextCode + 1, cur := [sym.setWidth 8], obuf := o, olen := s.olen + 1, arb := .encEmit } ∧
      tableRead s.olen o = some (BitVec.ofNat 32 c) ∧ (∀ i, i ≠ s.olen → tableRead i o = tableRead i s.obuf) ∧
      fwdLookup (s.cur ++ [sym.setWidth 8]) d = some s.nextCode ∧
      ∀ u, u ≠ s.cur ++ [sym.setWidth 8] → fwdLookup u d = fwdLookup u s.fwd

/-- R112, R113: `ENCE` flushes the code of a non-empty `CUR`, or emits nothing, and finishes the call. -/
def Obligations.EnceFlushesAndFinishes : Prop :=
  (∀ s : State, s.Inv → s.phase = .enc → s.cur ≠ [] → s.olen ≠ s.obufCap →
    ∃ c o, fwdLookup s.cur s.fwd = some c ∧
      exec .ence s = .next { s with
        cur := [], obuf := o, olen := s.olen + 1, phase := .idle, doneFlag := true, arb := .encFlush } ∧
      tableRead s.olen o = some (BitVec.ofNat 32 c) ∧ ∀ i, i ≠ s.olen → tableRead i o = tableRead i s.obuf) ∧
  (∀ s : State, s.phase = .enc → s.cur = [] →
    exec .ence s = .next { s with phase := .idle, doneFlag := true, arb := .none })

/-- R99: at a miss, `CUR` is stored and no stored prefix of the input not yet emitted is longer. -/
def Obligations.EmittedMatchIsLongestPrefix : Prop :=
  ∀ (s : State) (a : Symbol) (x p : SymSeq), s.Inv → s.phase = .enc → fwdLookup (s.cur ++ [a]) s.fwd = none →
    stored s.cur s.fwd ∧ (p <+: s.cur ++ a :: x → stored p s.fwd → p.length ≤ s.cur.length)

/-! The decoder -/

/-- R130: `DECB` in IDLE. -/
def Obligations.DecbBeginsDecodeCall : Prop :=
  ∀ s : State, s.phase = .idle →
    exec .decb s = .next { s with
      fwd := seedDict, rev := seedDict, nextCode := 256, cur := [], olen := 0, doneFlag := false, firstFlag := true,
      arb := .none, phase := .dec }

/-- R133: the decode-side arbiter's table. -/
def Obligations.DecodeArbiterTable : Prop :=
  ∀ (s : State) (code : Nat), s.Inv → s.phase = .dec →
    (s.firstFlag = true → code ≤ 255 → resolveCode code s = .entry [BitVec.ofNat 8 code] .decFirst) ∧
    (s.firstFlag = true → 256 ≤ code → resolveCode code s = .invalid) ∧
    (s.firstFlag = false → code < s.nextCode →
      ∃ e, e ≠ [] ∧ revLookup code s.rev = some e ∧ resolveCode code s = .entry e .decKnown) ∧
    (s.firstFlag = false → code = s.nextCode →
      ∃ h, s.cur.head? = some h ∧ resolveCode code s = .entry (s.cur ++ [h]) .decSelfref) ∧
    (s.firstFlag = false → s.nextCode < code → resolveCode code s = .invalid)

/-- R131 step 3: the first code of a call, a seed code, is output as its symbol; nothing is inserted. -/
def Obligations.DeccFirstOutputsSymbol : Prop :=
  ∀ (s : State) (code : Arg), s.Inv → s.phase = .dec → s.firstFlag = true → code.toNat ≤ 255 →
    ∃ o, exec (.decc code) s = .next { s with
        cur := [code.setWidth 8], obuf := o, olen := s.olen + 1, firstFlag := false, arb := .decFirst } ∧
      tableRead s.olen o = some (code.setWidth 32) ∧ ∀ i, i ≠ s.olen → tableRead i o = tableRead i s.obuf

/-- R131 step 4, known code: its sequence `e` is output word by word, `CUR` with the first symbol of `e` is stored at `NEXT`,
and `CUR` becomes `e`; no other word, entry or item changes. -/
def Obligations.DeccKnownOutputsEntry : Prop :=
  ∀ (s : State) (code : Arg) (e : SymSeq), s.Inv → s.phase = .dec → s.firstFlag = false →
    revLookup code.toNat s.rev = some e → s.olen + e.length ≤ s.obufCap → s.nextCode ≠ s.dictCap →
    ∃ h r o, e.head? = some h ∧
      exec (.decc code) s = .next { s with
        rev := r, nextCode := s.nextCode + 1, cur := e, obuf := o, olen := s.olen + e.length, arb := .decKnown } ∧
      (∀ k, k < e.length → tableRead (s.olen + k) o = e[k]?.map (fun a => a.setWidth 32)) ∧
      (∀ i, i < s.olen ∨ s.olen + e.length ≤ i → tableRead i o = tableRead i s.obuf) ∧
      revLookup s.nextCode r = some (s.cur ++ [h]) ∧ ∀ c, c ≠ s.nextCode → revLookup c r = revLookup c s.rev

/-- R131 step 4, self-referential code: the entry is `CUR` with its own first symbol, and it is what is stored at `NEXT`, so the
code just received is defined by this command. -/
def Obligations.DeccSelfrefDefinesItsCode : Prop :=
  ∀ (s : State) (code : Arg), s.Inv → s.phase = .dec → s.firstFlag = false → code.toNat = s.nextCode →
    s.olen + s.cur.length + 1 ≤ s.obufCap → s.nextCode ≠ s.dictCap →
    ∃ h r o, s.cur.head? = some h ∧
      exec (.decc code) s = .next { s with
        rev := r, nextCode := s.nextCode + 1, cur := s.cur ++ [h], obuf := o, olen := s.olen + (s.cur.length + 1),
        arb := .decSelfref } ∧
      (∀ k, k < s.cur.length + 1 → tableRead (s.olen + k) o = (s.cur ++ [h])[k]?.map (fun a => a.setWidth 32)) ∧
      (∀ i, i < s.olen ∨ s.olen + (s.cur.length + 1) ≤ i → tableRead i o = tableRead i s.obuf) ∧
      revLookup code.toNat r = some (s.cur ++ [h]) ∧ ∀ c, c ≠ s.nextCode → revLookup c r = revLookup c s.rev

/-- R132: `DECE` in DEC finishes the call and leaves the dictionary, `ARB` and the output as they are. -/
def Obligations.DeceFinishesDecodeCall : Prop :=
  ∀ s : State, s.phase = .dec →
    exec .dece s = .next { s with cur := [], firstFlag := false, phase := .idle, doneFlag := true }

/-! Faults -/

/-- R173: an illegal word raises ILLEGAL_COMMAND in every phase but FAULT, whatever its fields. -/
def Obligations.IllegalWordFaults : Prop :=
  ∀ (s : State) (w : Word), legal w = false → s.phase ≠ .fault →
    hostCmd w s = .next (faultEntry .illegalCommand w s)

/-- R174: a legal command other than `DRST` outside its phase raises PROTOCOL and records its word, whatever its operand. -/
def Obligations.CommandOutOfPhaseFaults : Prop :=
  ∀ s : State,
    (s.phase = .enc ∨ s.phase = .dec → exec .encb s = .next (faultEntry .protocol 0x20000000 s)) ∧
    (∀ sym, s.phase = .idle ∨ s.phase = .dec →
      exec (.encs sym) s = .next (faultEntry .protocol (0x30000000 + sym.setWidth 32) s)) ∧
    (s.phase = .idle ∨ s.phase = .dec → exec .ence s = .next (faultEntry .protocol 0x40000000 s)) ∧
    (s.phase = .enc ∨ s.phase = .dec → exec .decb s = .next (faultEntry .protocol 0x50000000 s)) ∧
    (∀ code, s.phase = .idle ∨ s.phase = .enc →
      exec (.decc code) s = .next (faultEntry .protocol (0x60000000 + code.setWidth 32) s)) ∧
    (s.phase = .idle ∨ s.phase = .enc → exec .dece s = .next (faultEntry .protocol 0x70000000 s))

/-- R175: a symbol above 255 raises BAD_SYMBOL in phase ENC, before the dictionary or the room is looked at. -/
def Obligations.BadSymbolFaults : Prop :=
  ∀ (s : State) (sym : Arg), s.phase = .enc → 255 < sym.toNat →
    exec (.encs sym) s = .next (faultEntry .badSymbol (sym.setWidth 32) s)

/-- R172, R157: a code that resolves by no case raises INVALID_CODE, and nothing else does. -/
def Obligations.InvalidCodeFaults : Prop :=
  (∀ (s : State) (code : Arg), s.Inv → s.phase = .dec →
    (s.firstFlag = true ∧ 256 ≤ code.toNat) ∨ (s.firstFlag = false ∧ s.nextCode < code.toNat) →
    exec (.decc code) s = .next (faultEntry .invalidCode (code.setWidth 32) s)) ∧
  (∀ (s t : State) (i : Instr), s.Inv → s.phase ≠ .fault → exec i s = .next t → t.fcause = .invalidCode →
    ∃ code, i = .decc code ∧ s.phase = .dec ∧
      ((s.firstFlag = true ∧ 256 ≤ code.toNat) ∨ (s.firstFlag = false ∧ s.nextCode < code.toNat)))

/-- R176: a command that would emit more words than there is room for raises OBUF_FULL and emits none, and nothing else
does. -/
def Obligations.FullOutputBufferFaults : Prop :=
  (∀ (s : State) (sym : Arg), s.phase = .enc → sym.toNat ≤ 255 →
    fwdLookup (s.cur ++ [sym.setWidth 8]) s.fwd = none → s.olen = s.obufCap →
    exec (.encs sym) s = .next (faultEntry .obufFull (encode (.encs sym)) s)) ∧
  (∀ s : State, s.phase = .enc → s.cur ≠ [] → s.olen = s.obufCap →
    exec .ence s = .next (faultEntry .obufFull (encode .ence) s)) ∧
  (∀ (s : State) (code : Arg) (e : SymSeq) (a : Arb), s.phase = .dec → resolveCode code.toNat s = .entry e a →
    s.obufCap < s.olen + e.length → exec (.decc code) s = .next (faultEntry .obufFull (encode (.decc code)) s)) ∧
  (∀ (s t : State) (i : Instr), s.Inv → s.phase ≠ .fault → exec i s = .next t → t.fcause = .obufFull →
    (∃ sym, i = .encs sym ∧ s.phase = .enc ∧ sym.toNat ≤ 255 ∧
      fwdLookup (s.cur ++ [sym.setWidth 8]) s.fwd = none ∧ s.olen = s.obufCap) ∨
    (i = .ence ∧ s.phase = .enc ∧ s.cur ≠ [] ∧ s.olen = s.obufCap) ∨
    (∃ code e a, i = .decc code ∧ s.phase = .dec ∧ resolveCode code.toNat s = .entry e a ∧
      s.obufCap < s.olen + e.length))

/-- R177: an insert with `NEXT == DICT_CAP` raises DICT_FULL, nothing emitted, and nothing else does: a hit, a flush and a first
code never. -/
def Obligations.FullDictionaryFaults : Prop :=
  (∀ (s : State) (sym : Arg), s.phase = .enc → sym.toNat ≤ 255 →
    fwdLookup (s.cur ++ [sym.setWidth 8]) s.fwd = none → s.olen ≠ s.obufCap → s.nextCode = s.dictCap →
    exec (.encs sym) s = .next (faultEntry .dictFull (encode (.encs sym)) s)) ∧
  (∀ (s : State) (code : Arg) (e : SymSeq) (a : Arb), s.phase = .dec → s.firstFlag = false →
    resolveCode code.toNat s = .entry e a → s.olen + e.length ≤ s.obufCap → s.nextCode = s.dictCap →
    exec (.decc code) s = .next (faultEntry .dictFull (encode (.decc code)) s)) ∧
  (∀ (s t : State) (i : Instr), s.Inv → s.phase ≠ .fault → exec i s = .next t → t.fcause = .dictFull →
    s.nextCode = s.dictCap ∧
    ((∃ sym, i = .encs sym ∧ s.phase = .enc ∧ fwdLookup (s.cur ++ [sym.setWidth 8]) s.fwd = none) ∨
      (∃ code e a, i = .decc code ∧ s.phase = .dec ∧ s.firstFlag = false ∧ resolveCode code.toNat s = .entry e a)))

/-- R180: in phase FAULT every word but a legal `DRST` is discarded, with no change of the engine or of anything else but the
host's queue. -/
def Obligations.FaultPhaseDiscardsWords : Prop :=
  ∀ (s : State) (w : Word) (rest : List HostOp), s.phase = .fault → s.hostIn = .cmd w :: rest → w ≠ 0x10000000 →
    step s = .next { s with hostIn := rest }

/-- R179, R31, R171: a command that ends in FAULT makes exactly the writes of fault entry, with a cause and the information the
cause records, and none of its own. -/
def Obligations.FaultsArePrecise : Prop :=
  (∀ (c : Cause) (info : Word) (s : State), ∃ a,
    faultEntry c info s = { s with
      phase := .fault, fcause := c, finfo := info, olen := 0, doneFlag := false, arb := a } ∧
    (c = .invalidCode → a = .decInvalid) ∧ (c ≠ .invalidCode → a = s.arb)) ∧
  (∀ (s t : State) (i : Instr), s.phase ≠ .fault → exec i s = .next t → t.phase = .fault →
    ∃ c, c ≠ .none ∧ t = faultEntry c (recordedInfo c i) s)

/-- R183, R171: the phase after a command is the table's, or FAULT by a cause the command may raise. -/
def Obligations.PhaseTableIsFollowed : Prop :=
  ∀ (s t : State) (i : Instr), exec i s = .next t →
    match tablePhase s.phase i with
    | some p => t.phase = p ∨ (s.phase ≠ .fault ∧ t.phase = .fault ∧ t.fcause ∈ mayRaise i)
    | none => t.phase = .fault ∧ t.fcause = .protocol

/-- R181: only `DRST` and hardware reset leave phase FAULT, both to IDLE with the dictionary seeded and the record cleared. -/
def Obligations.OnlyResetLeavesFault : Prop :=
  ∀ s t : State, s.phase = .fault → step s = .next t → t.phase ≠ .fault →
    (∃ rest, s.hostIn = .cmd 0x10000000 :: rest ∨ s.hostIn = .reset :: rest) ∧
    t.phase = .idle ∧ t.fwd = seedDict ∧ t.rev = seedDict ∧ t.nextCode = 256 ∧ t.fcause = .none ∧ t.finfo = 0

/-! Frames -/

/-- R39, R210: no command writes a parameter or the host's side of the state. -/
def Obligations.CommandsKeepParameters : Prop :=
  ∀ (s t : State) (i : Instr), exec i s = .next t → sameHost s t

/-- R51, R111, R112: the frame of `ENCS` and `ENCE`. Neither writes `REV` or `FIRST`; words other than word `OLEN` stay; `ENCS`
inserts exactly when it emits; `ENCE` never inserts and stores nothing with `CUR` empty; without a fault the fault record
stays. -/
def Obligations.EncodeStepFrame : Prop :=
  (∀ (s t : State) (sym : Arg), exec (.encs sym) s = .next t →
    t.rev = s.rev ∧ t.firstFlag = s.firstFlag ∧
    (∀ i, i ≠ s.olen → tableRead i t.obuf = tableRead i s.obuf) ∧
    (t.nextCode = s.nextCode → t.fwd = s.fwd ∧ t.obuf = s.obuf) ∧
    (t.phase ≠ .fault →
      t.phase = s.phase ∧ t.doneFlag = s.doneFlag ∧ t.fcause = s.fcause ∧ t.finfo = s.finfo ∧
      (t.nextCode = s.nextCode ∧ t.olen = s.olen ∨ t.nextCode = s.nextCode + 1 ∧ t.olen = s.olen + 1))) ∧
  (∀ s t : State, exec .ence s = .next t →
    t.fwd = s.fwd ∧ t.rev = s.rev ∧ t.nextCode = s.nextCode ∧ t.firstFlag = s.firstFlag ∧
    (∀ i, i ≠ s.olen → tableRead i t.obuf = tableRead i s.obuf) ∧ (s.cur = [] → t.obuf = s.obuf) ∧
    (t.phase ≠ .fault → t.fcause = s.fcause ∧ t.finfo = s.finfo))

/-- R51, R131, R132: the frame of `DECC` and `DECE`. Neither writes `FWD`; `DECC` stores words at `OLEN` and above, one per
symbol of the entry that becomes `CUR`, and no other; it inserts at `NEXT` alone, and nothing with `FIRST` set; `DECE` writes
neither dictionary nor output; without a fault the fault record stays. -/
def Obligations.DecodeStepFrame : Prop :=
  (∀ (s t : State) (code : Arg), exec (.decc code) s = .next t →
    t.fwd = s.fwd ∧
    (∀ i, i < s.olen ∨ s.olen + t.cur.length ≤ i → tableRead i t.obuf = tableRead i s.obuf) ∧
    (∀ c, c ≠ s.nextCode → revLookup c t.rev = revLookup c s.rev) ∧
    (s.firstFlag = true → t.rev = s.rev ∧ t.nextCode = s.nextCode) ∧
    (t.phase = .fault → t.obuf = s.obuf ∧ t.rev = s.rev ∧ t.nextCode = s.nextCode) ∧
    (t.phase ≠ .fault →
      t.phase = s.phase ∧ t.doneFlag = s.doneFlag ∧ t.fcause = s.fcause ∧ t.finfo = s.finfo ∧
      t.olen = s.olen + t.cur.length)) ∧
  (∀ s t : State, exec .dece s = .next t →
    t.fwd = s.fwd ∧ t.rev = s.rev ∧ t.nextCode = s.nextCode ∧ t.obuf = s.obuf ∧ t.arb = s.arb ∧
    (t.phase ≠ .fault → t.olen = s.olen ∧ t.fcause = s.fcause ∧ t.finfo = s.finfo))

/-- R51, R97, R110, R130: the frame of `DRST`, `ENCB` and `DECB`: no word of `OBUF` is written; `ENCB` and `DECB` do not write
the fault record unless they fault, and when they fault they leave the dictionary, `CUR` and `FIRST` as they are. -/
def Obligations.ResetAndBeginFrame : Prop :=
  ∀ (s t : State) (i : Instr), i = .drst ∨ i = .encb ∨ i = .decb → exec i s = .next t →
    t.obuf = s.obuf ∧
    (i ≠ .drst → t.phase ≠ .fault → t.fcause = s.fcause ∧ t.finfo = s.finfo) ∧
    (t.phase = .fault → t.fwd = s.fwd ∧ t.rev = s.rev ∧ t.nextCode = s.nextCode ∧ t.cur = s.cur ∧
      t.firstFlag = s.firstFlag ∧ t.arb = s.arb)

/-! Invariants -/

/-- R38: the invariant holds right after hardware reset, for every value of the parameters in range. -/
def Obligations.InvariantHoldsAtReset : Prop :=
  (∀ dictCap obufCap : Nat, Config.dictCapInRange dictCap → Config.obufCapInRange obufCap →
    (State.resetWith dictCap obufCap).Inv) ∧ State.reset.Inv

/-- R38: every step keeps the invariant, from every state that meets it. -/
def Obligations.StepKeepsInvariant : Prop :=
  ∀ s t : State, s.Inv → step s = .next t → t.Inv

/-- R98, R170, R208: from every state that meets the invariant a step answers a next state: no command is ever stuck, refused
or stopped by the model. -/
def Obligations.EngineNeverStops : Prop :=
  ∀ s : State, s.Inv → ∃ t, step s = .next t

/-! Whole calls, the reference functions and the laws -/

/-- R115, R116: an encode call from IDLE gives the reference result and its `NEXT` exactly when the capacities suffice, and else
ends in a capacity fault; they always suffice under the premise on the input's length. -/
def Obligations.EncodeCallRefinesReference : Prop :=
  ∀ (s : State) (x : SymSeq), capsInRange s → s.phase = .idle → s.fcause = .none →
    ∃ t, performCommands (encodeCommands x) s = .next t ∧ t.hostIn = [] ∧
      (callFits s (encodeRef x).length (encodeRef x).length →
        callResult t ((encodeRef x).map (BitVec.ofNat 32)) ∧ t.nextCode = 256 + ((encodeRef x).length - 1)) ∧
      (¬ callFits s (encodeRef x).length (encodeRef x).length → capacityFailure t) ∧
      (x.length ≤ s.obufCap → x.length + 255 ≤ s.dictCap → callResult t ((encodeRef x).map (BitVec.ofNat 32)))

/-- R135, R136: a decode call from IDLE on codes below 2^24 that the reference decodes gives its result exactly when the
capacities suffice, and else a capacity fault; and an INVALID_CODE outcome is always the reference's error. -/
def Obligations.DecodeCallRefinesReference : Prop :=
  ∀ (s : State) (cs : List Nat), capsInRange s → s.phase = .idle → s.fcause = .none → (∀ c ∈ cs, c < 2 ^ 24) →
    ∃ t, performCommands (decodeCommands cs) s = .next t ∧ t.hostIn = [] ∧
      (∀ y, decodeRef cs = .symbols y →
        (callFits s y.length cs.length →
          callResult t (y.map (fun a => a.setWidth 32)) ∧ t.nextCode = 256 + (cs.length - 1)) ∧
        (¬ callFits s y.length cs.length → capacityFailure t)) ∧
      (t.fcause = .invalidCode → decodeRef cs = .invalidCode t.finfo.toNat)

/-- R136: where the reference rejects the code after `pre`, the engine ends in INVALID_CODE with that code, unless a capacity
fault came before it; either way there is no result. -/
def Obligations.DecodeCallReportsInvalidCode : Prop :=
  ∀ (s : State) (pre post : List Nat) (c : Nat) (y : SymSeq), capsInRange s → s.phase = .idle → s.fcause = .none →
    (∀ d ∈ pre ++ c :: post, d < 2 ^ 24) → decodeRef pre = .symbols y → decodeRef (pre ++ [c]) = .invalidCode c →
    ∃ t, performCommands (decodeCommands (pre ++ c :: post)) s = .next t ∧ t.phase = .fault ∧ t.olen = 0 ∧
      t.doneFlag = false ∧
      (callFits s y.length pre.length →
        t.fcause = .invalidCode ∧ t.finfo = BitVec.ofNat 32 c ∧ t.arb = .decInvalid) ∧
      (¬ callFits s y.length pre.length → capacityFailure t)

/-- R135, U7: what the host reports of a decode call on any code sequence, codes too large for a command word included. It is
never an error the reference decoder does not report, and a success is its result. Where the engine faulted, the report is
the engine's own outcome; where every code fits a word and the engine did not fault, it is success; where an oversized code
stopped the host first, it is InvalidCodeError or, in the one corner, a capacity failure, and the host issues `DRST`. That it
issues nothing more in the other cases is the model's reading (notes/assumptions/19.md). -/
def Obligations.HostDecodeReportIsSound : Prop :=
  ∀ (s t : State) (cs : List Nat), s.Inv → s.phase = .idle → performCommands (decodePlan cs) s = .next t →
    (∀ c, decodeReport cs t = .invalidCode c → decodeRef cs = .invalidCode c) ∧
    (decodeReport cs t = .success →
      ∃ y, decodeRef cs = .symbols y ∧ callResult t (y.map (fun a => a.setWidth 32))) ∧
    (t.phase = .fault → hostDecode cs s = .next t ∧ t.olen = 0 ∧ t.doneFlag = false ∧
      (t.fcause = .invalidCode ∧ decodeReport cs t = .invalidCode t.finfo.toNat ∨
        (t.fcause = .obufFull ∨ t.fcause = .dictFull) ∧ decodeReport cs t = .capacity)) ∧
    (t.phase ≠ .fault → (∀ c ∈ cs, c < 2 ^ 24) → hostDecode cs s = .next t ∧ decodeReport cs t = .success) ∧
    (∀ (pre post : List Nat) (c : Nat), t.phase ≠ .fault → cs = pre ++ c :: post → (∀ d ∈ pre, d < 2 ^ 24) →
      2 ^ 24 ≤ c → hostDecode cs s = exec .drst t ∧
        (pre = [] ∨ c ≠ 256 + (pre.length - 1) → decodeReport cs t = .invalidCode c) ∧
        (pre ≠ [] ∧ c = 256 + (pre.length - 1) → decodeReport cs t = .capacity))

/-- R150 on the reference functions, R156: decoding what was encoded gives the input back; the known vector "ABABABA" and its
encoding, with "ABA" at 258. -/
def Obligations.ReferenceRoundTrip : Prop :=
  (∀ x : SymSeq, decodeRef (encodeRef x) = .symbols x) ∧
  encodeRef [65, 66, 65, 66, 65, 66, 65] = [65, 66, 256, 258]

/-- R150 on the engine: after an encode call on `x` that leaves the result `ws` in `OBUF`, with room for `x`, the decode call on
the codes `ws` succeeds with result `x`. -/
def Obligations.EngineRoundTrip : Prop :=
  ∀ (s t : State) (x : SymSeq) (ws : List Word), s.Inv → s.phase = .idle →
    performCommands (encodeCommands x) s = .next t → callResult t ws → x.length ≤ s.obufCap →
    ∃ u, performCommands (decodeCommands (ws.map BitVec.toNat)) t = .next u ∧
      callResult u (x.map (fun a => a.setWidth 32)) ∧ u.nextCode = t.nextCode

/-- R151: after an encode call on `x` and the decode call on `encode_ref(x)`, `REV` is the inverse of the `FWD` the encoder built, code for
code, and `NEXT` is the same. -/
def Obligations.DictionariesGrowInLockstep : Prop :=
  ∀ (s t u : State) (x : SymSeq), s.Inv → s.phase = .idle → performCommands (encodeCommands x) s = .next t →
    t.doneFlag = true → performCommands (decodeCommands (encodeRef x)) t = .next u → u.doneFlag = true →
    u.nextCode = t.nextCode ∧
    ∀ c, c < u.nextCode → ∃ v, revLookup c u.rev = some v ∧ fwdLookup v t.fwd = some c

/-- R152: what a call, and anything after its begin command, leaves does not depend on anything that happened before the begin
command. -/
def Obligations.CallsForgetHistory : Prop :=
  ∀ (s t s' : State) (b : Instr) (is : List Instr), s.Inv → t.Inv → s.phase = .idle → t.phase = .idle →
    s.dictCap = t.dictCap → s.obufCap = t.obufCap → b = .encb ∨ b = .decb →
    performCommands (b :: is) s = .next s' →
    ∃ t', performCommands (b :: is) t = .next t' ∧ sameObserved s' t' ∧
      t'.fwd = s'.fwd ∧ t'.rev = s'.rev ∧ t'.nextCode = s'.nextCode ∧ t'.cur = s'.cur

/-- R153: the codes of a symbol repeated `n` times, `k` being the least integer with `k (k + 1) / 2 >= n`, and `k < n` from
`n = 3` on. -/
def Obligations.RepetitionClosedForm : Prop :=
  ∀ (a : Symbol) (n k : Nat), 1 ≤ n → n ≤ k * (k + 1) / 2 → (k - 1) * k / 2 < n →
    encodeRef (List.replicate n a) =
      (if k = 1 then [a.toNat]
      else a.toNat :: ((List.range (k - 2)).map (fun j => 256 + j) ++
        [if n - (k - 1) * k / 2 = 1 then a.toNat else 256 + (n - (k - 1) * k / 2) - 2])) ∧
    (encodeRef (List.replicate n a)).length = k ∧ (3 ≤ n → k < n)

/-- R118: each symbol either adds a code or extends a match, so the output is as long as the input less the extensions. -/
def Obligations.OutputLengthCountsExtensions : Prop :=
  ∀ x : SymSeq, (encodeRef x).length + encodeExtends x = x.length

/-- R117, R137, R154, R155, R158: empty and one-element calls, from every state with `PHASE == IDLE`. -/
def Obligations.EmptyAndSingletonCalls : Prop :=
  encodeRef [] = [] ∧ decodeRef [] = .symbols [] ∧ (∀ a : Symbol, encodeRef [a] = [a.toNat]) ∧
  ∀ s : State, s.Inv → s.phase = .idle →
    (∃ t, performCommands (encodeCommands []) s = .next t ∧ callResult t [] ∧ t.nextCode = 256) ∧
    (∃ t, performCommands (decodeCommands []) s = .next t ∧ callResult t [] ∧ t.nextCode = 256) ∧
    (∀ a : Symbol, ∃ t, performCommands (encodeCommands [a]) s = .next t ∧
      callResult t [a.setWidth 32] ∧ t.nextCode = 256) ∧
    (∀ c, c < 256 → ∃ t, performCommands (decodeCommands [c]) s = .next t ∧
      callResult t [BitVec.ofNat 32 c] ∧ t.nextCode = 256)

/-! The storage form, the helper and the assembler -/

/-- R37: the parent-and-symbol form of a reachable forward dictionary holds the same sequences, and its child search is the
forward lookup. -/
def Obligations.ArenaFormAgreesWithMaps : Prop :=
  ∀ s : State, s.Inv →
    (∀ c, arenaSeq c (arenaOf s.fwd) c = tableRead c s.fwd) ∧
    ∀ (p : Nat) (t : SymSeq) (a : Symbol), arenaSeq p (arenaOf s.fwd) p = some t →
      arenaChild p a (arenaOf s.fwd) = fwdLookup (t ++ [a]) s.fwd

/-- R160: the ratio is the exact rational of original bits over compressed bits, refused where the denominator is 0. -/
def Obligations.RatioIsExactRational : Prop :=
  (∀ nSym nCode bits : Nat, nCode * bits ≠ 0 →
    ∃ q : ℚ, ratio nSym nCode bits = some q ∧ q * (nCode * bits) = nSym * 8) ∧
  (∀ nSym nCode bits : Nat, nCode * bits = 0 → ratio nSym nCode bits = none) ∧
  ratioDefault 7 4 = ratio 7 4 12 ∧ ratioDefault 7 4 = some (7 / 6) ∧ ratioDefault 24 16 = some 1

/-- R77, R78: lines of the assembler and the words they stand for, and lines it refuses. Which blanks may stand in a line is the
model's choice, and that the comma in single quotes of the `ENCODE <'A', 66,','>` line is a character and separates no items is
the model's reading of R77 and R78 (both notes/assumptions/16.md). -/
def Obligations.AssemblerLines : Prop :=
  assembleWords ['D', 'R', 'S', 'T'] = some [0x10000000] ∧
  assembleWords ['E', 'N', 'C', 'S', ' ', '6', '5', ' ', '#', ' ', 'x'] = some [0x30000041] ∧
  assembleWords ['E', 'N', 'C', 'S', ' ', '0', 'x', '4', '1'] = some [0x30000041] ∧
  assembleWords ['E', 'N', 'C', 'S', ' ', singleQuote, 'A', singleQuote] = some [0x30000041] ∧
  assembleWords ['E', 'N', 'C', 'S', ' ', '2', '5', '6'] = some [0x30000100] ∧
  assembleWords ['D', 'E', 'C', 'C', ' ', '1', '6', '7', '7', '7', '2', '1', '5'] = some [0x60FFFFFF] ∧
  assembleWords ['D', 'E', 'C', 'C', ' ', '1', '6', '7', '7', '7', '2', '1', '6'] = none ∧
  assembleWords ['E', 'N', 'C', 'O', 'D', 'E', ' ', quoteMark, 'A', 'B', quoteMark] =
    some [0x20000000, 0x30000041, 0x30000042, 0x40000000] ∧
  assembleWords ['E', 'N', 'C', 'O', 'D', 'E', ' ', '<', singleQuote, 'A', singleQuote, ',', ' ', '6', '6', ',',
    singleQuote, ',', singleQuote, '>'] = some [0x20000000, 0x30000041, 0x30000042, 0x3000002C, 0x40000000] ∧
  assembleWords ['D', 'E', 'C', 'O', 'D', 'E', ' ', '[', singleQuote, 'A', singleQuote, ']'] = none ∧
  assembleWords ['E', 'N', 'C', 'O', 'D', 'E', ' ', '<', '>'] = some [0x20000000, 0x40000000] ∧
  assembleWords ['D', 'E', 'C', 'O', 'D', 'E', ' ', '[', '6', '5', ',', ' ', '2', '5', '6', ']'] =
    some [0x50000000, 0x60000041, 0x60000100, 0x70000000] ∧
  assembleWords ['D', 'E', 'C', 'O', 'D', 'E', ' ', '[', ']'] = some [0x50000000, 0x70000000]
end

