-- ==== Sys2Proof/Laws/State.lean ====
section
/-!
SUPPORT. One lemma per field per named update of the state, so that no later proof unfolds a record update.
-/
namespace Sys2Proof.Machine

@[simp] theorem faultEntry_fwd (c : Cause) (w : Word) (s : State) : (faultEntry c w s).fwd = s.fwd := rfl
@[simp] theorem faultEntry_rev (c : Cause) (w : Word) (s : State) : (faultEntry c w s).rev = s.rev := rfl
@[simp] theorem faultEntry_nextCode (c : Cause) (w : Word) (s : State) : (faultEntry c w s).nextCode = s.nextCode := rfl
@[simp] theorem faultEntry_cur (c : Cause) (w : Word) (s : State) : (faultEntry c w s).cur = s.cur := rfl
@[simp] theorem faultEntry_obuf (c : Cause) (w : Word) (s : State) : (faultEntry c w s).obuf = s.obuf := rfl
@[simp] theorem faultEntry_olen (c : Cause) (w : Word) (s : State) : (faultEntry c w s).olen = 0 := rfl
@[simp] theorem faultEntry_phase (c : Cause) (w : Word) (s : State) : (faultEntry c w s).phase = .fault := rfl
@[simp] theorem faultEntry_doneFlag (c : Cause) (w : Word) (s : State) : (faultEntry c w s).doneFlag = false := rfl
@[simp] theorem faultEntry_firstFlag (c : Cause) (w : Word) (s : State) : (faultEntry c w s).firstFlag = s.firstFlag := rfl
@[simp] theorem faultEntry_arb (c : Cause) (w : Word) (s : State) : (faultEntry c w s).arb = if c = .invalidCode then .decInvalid else s.arb := rfl
@[simp] theorem faultEntry_fcause (c : Cause) (w : Word) (s : State) : (faultEntry c w s).fcause = c := rfl
@[simp] theorem faultEntry_finfo (c : Cause) (w : Word) (s : State) : (faultEntry c w s).finfo = w := rfl
@[simp] theorem faultEntry_dictCap (c : Cause) (w : Word) (s : State) : (faultEntry c w s).dictCap = s.dictCap := rfl
@[simp] theorem faultEntry_obufCap (c : Cause) (w : Word) (s : State) : (faultEntry c w s).obufCap = s.obufCap := rfl
@[simp] theorem faultEntry_hostIn (c : Cause) (w : Word) (s : State) : (faultEntry c w s).hostIn = s.hostIn := rfl
@[simp] theorem faultEntry_hostOut (c : Cause) (w : Word) (s : State) : (faultEntry c w s).hostOut = s.hostOut := rfl
@[simp] theorem faultEntry_draws (c : Cause) (w : Word) (s : State) : (faultEntry c w s).draws = s.draws := rfl

@[simp] theorem dictReset_fwd (s : State) : (dictReset s).fwd = seedDict := rfl
@[simp] theorem dictReset_rev (s : State) : (dictReset s).rev = seedDict := rfl
@[simp] theorem dictReset_nextCode (s : State) : (dictReset s).nextCode = Config.firstCode := rfl
@[simp] theorem dictReset_cur (s : State) : (dictReset s).cur = s.cur := rfl
@[simp] theorem dictReset_obuf (s : State) : (dictReset s).obuf = s.obuf := rfl
@[simp] theorem dictReset_olen (s : State) : (dictReset s).olen = s.olen := rfl
@[simp] theorem dictReset_phase (s : State) : (dictReset s).phase = s.phase := rfl
@[simp] theorem dictReset_doneFlag (s : State) : (dictReset s).doneFlag = s.doneFlag := rfl
@[simp] theorem dictReset_firstFlag (s : State) : (dictReset s).firstFlag = s.firstFlag := rfl
@[simp] theorem dictReset_arb (s : State) : (dictReset s).arb = s.arb := rfl
@[simp] theorem dictReset_fcause (s : State) : (dictReset s).fcause = s.fcause := rfl
@[simp] theorem dictReset_finfo (s : State) : (dictReset s).finfo = s.finfo := rfl
@[simp] theorem dictReset_dictCap (s : State) : (dictReset s).dictCap = s.dictCap := rfl
@[simp] theorem dictReset_obufCap (s : State) : (dictReset s).obufCap = s.obufCap := rfl
@[simp] theorem dictReset_hostIn (s : State) : (dictReset s).hostIn = s.hostIn := rfl
@[simp] theorem dictReset_hostOut (s : State) : (dictReset s).hostOut = s.hostOut := rfl
@[simp] theorem dictReset_draws (s : State) : (dictReset s).draws = s.draws := rfl

@[simp] theorem clearEngine_fwd (s : State) : (clearEngine s).fwd = seedDict := rfl
@[simp] theorem clearEngine_rev (s : State) : (clearEngine s).rev = seedDict := rfl
@[simp] theorem clearEngine_nextCode (s : State) : (clearEngine s).nextCode = Config.firstCode := rfl
@[simp] theorem clearEngine_cur (s : State) : (clearEngine s).cur = [] := rfl
@[simp] theorem clearEngine_obuf (s : State) : (clearEngine s).obuf = s.obuf := rfl
@[simp] theorem clearEngine_olen (s : State) : (clearEngine s).olen = 0 := rfl
@[simp] theorem clearEngine_phase (s : State) : (clearEngine s).phase = .idle := rfl
@[simp] theorem clearEngine_doneFlag (s : State) : (clearEngine s).doneFlag = false := rfl
@[simp] theorem clearEngine_firstFlag (s : State) : (clearEngine s).firstFlag = false := rfl
@[simp] theorem clearEngine_arb (s : State) : (clearEngine s).arb = .none := rfl
@[simp] theorem clearEngine_fcause (s : State) : (clearEngine s).fcause = .none := rfl
@[simp] theorem clearEngine_finfo (s : State) : (clearEngine s).finfo = 0 := rfl
@[simp] theorem clearEngine_dictCap (s : State) : (clearEngine s).dictCap = s.dictCap := rfl
@[simp] theorem clearEngine_obufCap (s : State) : (clearEngine s).obufCap = s.obufCap := rfl
@[simp] theorem clearEngine_hostIn (s : State) : (clearEngine s).hostIn = s.hostIn := rfl
@[simp] theorem clearEngine_hostOut (s : State) : (clearEngine s).hostOut = s.hostOut := rfl
@[simp] theorem clearEngine_draws (s : State) : (clearEngine s).draws = s.draws := rfl

@[simp] theorem hostReset_fwd (s : State) : (hostReset s).fwd = seedDict := rfl
@[simp] theorem hostReset_rev (s : State) : (hostReset s).rev = seedDict := rfl
@[simp] theorem hostReset_nextCode (s : State) : (hostReset s).nextCode = Config.firstCode := rfl
@[simp] theorem hostReset_cur (s : State) : (hostReset s).cur = [] := rfl
@[simp] theorem hostReset_obuf (s : State) : (hostReset s).obuf = [] := rfl
@[simp] theorem hostReset_olen (s : State) : (hostReset s).olen = 0 := rfl
@[simp] theorem hostReset_phase (s : State) : (hostReset s).phase = .idle := rfl
@[simp] theorem hostReset_doneFlag (s : State) : (hostReset s).doneFlag = false := rfl
@[simp] theorem hostReset_firstFlag (s : State) : (hostReset s).firstFlag = false := rfl
@[simp] theorem hostReset_arb (s : State) : (hostReset s).arb = .none := rfl
@[simp] theorem hostReset_fcause (s : State) : (hostReset s).fcause = .none := rfl
@[simp] theorem hostReset_finfo (s : State) : (hostReset s).finfo = 0 := rfl
@[simp] theorem hostReset_dictCap (s : State) : (hostReset s).dictCap = s.dictCap := rfl
@[simp] theorem hostReset_obufCap (s : State) : (hostReset s).obufCap = s.obufCap := rfl
@[simp] theorem hostReset_hostIn (s : State) : (hostReset s).hostIn = s.hostIn := rfl
@[simp] theorem hostReset_hostOut (s : State) : (hostReset s).hostOut = s.hostOut := rfl
@[simp] theorem hostReset_draws (s : State) : (hostReset s).draws = s.draws := rfl

@[simp] theorem beginCall_fwd (p : Phase) (b : Bool) (s : State) : (beginCall p b s).fwd = seedDict := rfl
@[simp] theorem beginCall_rev (p : Phase) (b : Bool) (s : State) : (beginCall p b s).rev = seedDict := rfl
@[simp] theorem beginCall_nextCode (p : Phase) (b : Bool) (s : State) : (beginCall p b s).nextCode = Config.firstCode := rfl
@[simp] theorem beginCall_cur (p : Phase) (b : Bool) (s : State) : (beginCall p b s).cur = [] := rfl
@[simp] theorem beginCall_obuf (p : Phase) (b : Bool) (s : State) : (beginCall p b s).obuf = s.obuf := rfl
@[simp] theorem beginCall_olen (p : Phase) (b : Bool) (s : State) : (beginCall p b s).olen = 0 := rfl
@[simp] theorem beginCall_phase (p : Phase) (b : Bool) (s : State) : (beginCall p b s).phase = p := rfl
@[simp] theorem beginCall_doneFlag (p : Phase) (b : Bool) (s : State) : (beginCall p b s).doneFlag = false := rfl
@[simp] theorem beginCall_firstFlag (p : Phase) (b : Bool) (s : State) : (beginCall p b s).firstFlag = b := rfl
@[simp] theorem beginCall_arb (p : Phase) (b : Bool) (s : State) : (beginCall p b s).arb = .none := rfl
@[simp] theorem beginCall_fcause (p : Phase) (b : Bool) (s : State) : (beginCall p b s).fcause = s.fcause := rfl
@[simp] theorem beginCall_finfo (p : Phase) (b : Bool) (s : State) : (beginCall p b s).finfo = s.finfo := rfl
@[simp] theorem beginCall_dictCap (p : Phase) (b : Bool) (s : State) : (beginCall p b s).dictCap = s.dictCap := rfl
@[simp] theorem beginCall_obufCap (p : Phase) (b : Bool) (s : State) : (beginCall p b s).obufCap = s.obufCap := rfl
@[simp] theorem beginCall_hostIn (p : Phase) (b : Bool) (s : State) : (beginCall p b s).hostIn = s.hostIn := rfl
@[simp] theorem beginCall_hostOut (p : Phase) (b : Bool) (s : State) : (beginCall p b s).hostOut = s.hostOut := rfl
@[simp] theorem beginCall_draws (p : Phase) (b : Bool) (s : State) : (beginCall p b s).draws = s.draws := rfl

@[simp] theorem encExtend_fwd (a : Symbol) (s : State) : (encExtend a s).fwd = s.fwd := rfl
@[simp] theorem encExtend_rev (a : Symbol) (s : State) : (encExtend a s).rev = s.rev := rfl
@[simp] theorem encExtend_nextCode (a : Symbol) (s : State) : (encExtend a s).nextCode = s.nextCode := rfl
@[simp] theorem encExtend_cur (a : Symbol) (s : State) : (encExtend a s).cur = s.cur ++ [a] := rfl
@[simp] theorem encExtend_obuf (a : Symbol) (s : State) : (encExtend a s).obuf = s.obuf := rfl
@[simp] theorem encExtend_olen (a : Symbol) (s : State) : (encExtend a s).olen = s.olen := rfl
@[simp] theorem encExtend_phase (a : Symbol) (s : State) : (encExtend a s).phase = s.phase := rfl
@[simp] theorem encExtend_doneFlag (a : Symbol) (s : State) : (encExtend a s).doneFlag = s.doneFlag := rfl
@[simp] theorem encExtend_firstFlag (a : Symbol) (s : State) : (encExtend a s).firstFlag = s.firstFlag := rfl
@[simp] theorem encExtend_arb (a : Symbol) (s : State) : (encExtend a s).arb = .encExtend := rfl
@[simp] theorem encExtend_fcause (a : Symbol) (s : State) : (encExtend a s).fcause = s.fcause := rfl
@[simp] theorem encExtend_finfo (a : Symbol) (s : State) : (encExtend a s).finfo = s.finfo := rfl
@[simp] theorem encExtend_dictCap (a : Symbol) (s : State) : (encExtend a s).dictCap = s.dictCap := rfl
@[simp] theorem encExtend_obufCap (a : Symbol) (s : State) : (encExtend a s).obufCap = s.obufCap := rfl
@[simp] theorem encExtend_hostIn (a : Symbol) (s : State) : (encExtend a s).hostIn = s.hostIn := rfl
@[simp] theorem encExtend_hostOut (a : Symbol) (s : State) : (encExtend a s).hostOut = s.hostOut := rfl
@[simp] theorem encExtend_draws (a : Symbol) (s : State) : (encExtend a s).draws = s.draws := rfl

@[simp] theorem encFinish_fwd (a : Arb) (s : State) : (encFinish a s).fwd = s.fwd := rfl
@[simp] theorem encFinish_rev (a : Arb) (s : State) : (encFinish a s).rev = s.rev := rfl
@[simp] theorem encFinish_nextCode (a : Arb) (s : State) : (encFinish a s).nextCode = s.nextCode := rfl
@[simp] theorem encFinish_cur (a : Arb) (s : State) : (encFinish a s).cur = [] := rfl
@[simp] theorem encFinish_obuf (a : Arb) (s : State) : (encFinish a s).obuf = s.obuf := rfl
@[simp] theorem encFinish_olen (a : Arb) (s : State) : (encFinish a s).olen = s.olen := rfl
@[simp] theorem encFinish_phase (a : Arb) (s : State) : (encFinish a s).phase = .idle := rfl
@[simp] theorem encFinish_doneFlag (a : Arb) (s : State) : (encFinish a s).doneFlag = true := rfl
@[simp] theorem encFinish_firstFlag (a : Arb) (s : State) : (encFinish a s).firstFlag = s.firstFlag := rfl
@[simp] theorem encFinish_arb (a : Arb) (s : State) : (encFinish a s).arb = a := rfl
@[simp] theorem encFinish_fcause (a : Arb) (s : State) : (encFinish a s).fcause = s.fcause := rfl
@[simp] theorem encFinish_finfo (a : Arb) (s : State) : (encFinish a s).finfo = s.finfo := rfl
@[simp] theorem encFinish_dictCap (a : Arb) (s : State) : (encFinish a s).dictCap = s.dictCap := rfl
@[simp] theorem encFinish_obufCap (a : Arb) (s : State) : (encFinish a s).obufCap = s.obufCap := rfl
@[simp] theorem encFinish_hostIn (a : Arb) (s : State) : (encFinish a s).hostIn = s.hostIn := rfl
@[simp] theorem encFinish_hostOut (a : Arb) (s : State) : (encFinish a s).hostOut = s.hostOut := rfl
@[simp] theorem encFinish_draws (a : Arb) (s : State) : (encFinish a s).draws = s.draws := rfl

@[simp] theorem decFinish_fwd (s : State) : (decFinish s).fwd = s.fwd := rfl
@[simp] theorem decFinish_rev (s : State) : (decFinish s).rev = s.rev := rfl
@[simp] theorem decFinish_nextCode (s : State) : (decFinish s).nextCode = s.nextCode := rfl
@[simp] theorem decFinish_cur (s : State) : (decFinish s).cur = [] := rfl
@[simp] theorem decFinish_obuf (s : State) : (decFinish s).obuf = s.obuf := rfl
@[simp] theorem decFinish_olen (s : State) : (decFinish s).olen = s.olen := rfl
@[simp] theorem decFinish_phase (s : State) : (decFinish s).phase = .idle := rfl
@[simp] theorem decFinish_doneFlag (s : State) : (decFinish s).doneFlag = true := rfl
@[simp] theorem decFinish_firstFlag (s : State) : (decFinish s).firstFlag = false := rfl
@[simp] theorem decFinish_arb (s : State) : (decFinish s).arb = s.arb := rfl
@[simp] theorem decFinish_fcause (s : State) : (decFinish s).fcause = s.fcause := rfl
@[simp] theorem decFinish_finfo (s : State) : (decFinish s).finfo = s.finfo := rfl
@[simp] theorem decFinish_dictCap (s : State) : (decFinish s).dictCap = s.dictCap := rfl
@[simp] theorem decFinish_obufCap (s : State) : (decFinish s).obufCap = s.obufCap := rfl
@[simp] theorem decFinish_hostIn (s : State) : (decFinish s).hostIn = s.hostIn := rfl
@[simp] theorem decFinish_hostOut (s : State) : (decFinish s).hostOut = s.hostOut := rfl
@[simp] theorem decFinish_draws (s : State) : (decFinish s).draws = s.draws := rfl

@[simp] theorem presentWord_fwd (w : Word) (s : State) : (presentWord w s).fwd = s.fwd := rfl
@[simp] theorem presentWord_rev (w : Word) (s : State) : (presentWord w s).rev = s.rev := rfl
@[simp] theorem presentWord_nextCode (w : Word) (s : State) : (presentWord w s).nextCode = s.nextCode := rfl
@[simp] theorem presentWord_cur (w : Word) (s : State) : (presentWord w s).cur = s.cur := rfl
@[simp] theorem presentWord_obuf (w : Word) (s : State) : (presentWord w s).obuf = s.obuf := rfl
@[simp] theorem presentWord_olen (w : Word) (s : State) : (presentWord w s).olen = s.olen := rfl
@[simp] theorem presentWord_phase (w : Word) (s : State) : (presentWord w s).phase = s.phase := rfl
@[simp] theorem presentWord_doneFlag (w : Word) (s : State) : (presentWord w s).doneFlag = s.doneFlag := rfl
@[simp] theorem presentWord_firstFlag (w : Word) (s : State) : (presentWord w s).firstFlag = s.firstFlag := rfl
@[simp] theorem presentWord_arb (w : Word) (s : State) : (presentWord w s).arb = s.arb := rfl
@[simp] theorem presentWord_fcause (w : Word) (s : State) : (presentWord w s).fcause = s.fcause := rfl
@[simp] theorem presentWord_finfo (w : Word) (s : State) : (presentWord w s).finfo = s.finfo := rfl
@[simp] theorem presentWord_dictCap (w : Word) (s : State) : (presentWord w s).dictCap = s.dictCap := rfl
@[simp] theorem presentWord_obufCap (w : Word) (s : State) : (presentWord w s).obufCap = s.obufCap := rfl
@[simp] theorem presentWord_hostIn (w : Word) (s : State) : (presentWord w s).hostIn = .cmd w :: s.hostIn := rfl
@[simp] theorem presentWord_hostOut (w : Word) (s : State) : (presentWord w s).hostOut = s.hostOut := rfl
@[simp] theorem presentWord_draws (w : Word) (s : State) : (presentWord w s).draws = s.draws := rfl

end Sys2Proof.Machine
end

