-- ==== Sys2Proof/Laws/Table.lean ====
section
/-!
SUPPORT. What the table operations, the comparator and the two lookups can do: read after write, the canonical form kept,
and lookups as membership.
-/
namespace Sys2Proof.Machine

variable {α : Type}

@[simp] theorem tableRead_nil (k : Nat) : tableRead k ([] : Table α) = none := rfl

theorem tableRead_write_same (k : Nat) (v : α) (t : Table α) : tableRead k (tableWrite k v t) = some v := by
  induction t with
  | nil => simp [tableWrite, tableRead]
  | cons p t ih =>
    obtain ⟨j, u⟩ := p
    rcases lt_trichotomy k j with h | h | h
    · simp [tableWrite, tableRead, h]
    · simp [tableWrite, tableRead, h]
    · simp [tableWrite, tableRead, h.not_gt, h.ne, h.ne', ih]

theorem tableRead_write_ne {k i : Nat} (h : i ≠ k) (v : α) (t : Table α) :
    tableRead i (tableWrite k v t) = tableRead i t := by
  induction t with
  | nil => simp [tableWrite, tableRead, h.symm]
  | cons p t ih =>
    obtain ⟨j, u⟩ := p
    rcases lt_trichotomy k j with hk | hk | hk
    · simp [tableWrite, tableRead, hk, h.symm]
    · subst hk; simp [tableWrite, tableRead, h.symm]
    · simp [tableWrite, tableRead, hk.not_gt, hk.ne', ih]

theorem mem_tableWrite {k : Nat} {v : α} {t : Table α} {e : Nat × α} (h : e ∈ tableWrite k v t) :
    e = (k, v) ∨ e ∈ t := by
  induction t with
  | nil => simpa [tableWrite] using h
  | cons p t ih =>
    obtain ⟨j, u⟩ := p
    simp only [tableWrite] at h
    split at h
    · simpa using h
    · split at h
      · rcases List.mem_cons.mp h with h | h
        · exact .inl h
        · exact .inr (List.mem_cons_of_mem _ h)
      · rcases List.mem_cons.mp h with h | h
        · exact .inr (h ▸ List.mem_cons_self)
        · exact (ih h).imp_right (List.mem_cons_of_mem _)

/-- A write keeps the canonical form. -/
theorem tableWrite_wf (k : Nat) (v : α) {t : Table α} (h : tableWf t) : tableWf (tableWrite k v t) := by
  induction t with
  | nil => simp [tableWrite]
  | cons p t ih =>
    obtain ⟨j, u⟩ := p
    obtain ⟨hj, ht⟩ := List.pairwise_cons.mp h
    rcases lt_trichotomy k j with hk | hk | hk
    · simp only [tableWrite, hk, if_true]
      refine List.pairwise_cons.mpr ⟨fun e he => ?_, h⟩
      rcases List.mem_cons.mp he with rfl | he
      · exact hk
      · exact hk.trans (hj e he)
    · subst hk
      simpa [tableWrite] using List.pairwise_cons.mpr ⟨hj, ht⟩
    · simp only [tableWrite, hk.not_gt, hk.ne', if_false]
      refine List.pairwise_cons.mpr ⟨fun e he => ?_, ih ht⟩
      rcases mem_tableWrite he with rfl | he
      · exact hk
      · exact hj e he

/-- Writing above every listed key appends. -/
theorem tableWrite_append {k : Nat} (v : α) {t : Table α} (h : ∀ e ∈ t, e.1 < k) :
    tableWrite k v t = t ++ [(k, v)] := by
  induction t with
  | nil => rfl
  | cons p t ih =>
    have hp := h p List.mem_cons_self
    have ht := ih fun e he => h e (List.mem_cons_of_mem _ he)
    simp [tableWrite, hp.not_gt, hp.ne', ht]

theorem mem_of_tableRead {k : Nat} {v : α} {t : Table α} (h : tableRead k t = some v) : (k, v) ∈ t := by
  induction t with
  | nil => simp at h
  | cons p t ih =>
    obtain ⟨j, u⟩ := p
    simp only [tableRead] at h
    split at h
    · next hj => cases h; subst hj; exact List.mem_cons_self
    · exact List.mem_cons_of_mem _ (ih h)

theorem tableRead_of_mem {k : Nat} {v : α} {t : Table α} (hw : tableWf t) (h : (k, v) ∈ t) :
    tableRead k t = some v := by
  induction t with
  | nil => simp at h
  | cons p t ih =>
    obtain ⟨j, u⟩ := p
    obtain ⟨hj, ht⟩ := List.pairwise_cons.mp hw
    rcases List.mem_cons.mp h with h | h
    · cases h; simp [tableRead]
    · have : j ≠ k := (hj _ h).ne
      simp [tableRead, this, ih ht h]

theorem tableRead_eq_none_iff {k : Nat} {t : Table α} : tableRead k t = none ↔ k ∉ t.map Prod.fst := by
  induction t with
  | nil => simp
  | cons p t ih =>
    obtain ⟨j, u⟩ := p
    by_cases h : j = k
    · simp [tableRead, h]
    · simp [tableRead, h, ih, Ne.symm h]

/-- Keys that are exactly 0 to n - 1 are in canonical form. -/
theorem tableWf_of_range {n : Nat} {t : Table α} (h : t.map Prod.fst = List.range n) : tableWf t := by
  have : (t.map Prod.fst).Pairwise (· < ·) := h ▸ List.pairwise_lt_range
  exact List.pairwise_map.mp this

/-- The comparator decides equality (R91). -/
theorem seqEq_iff {s t : SymSeq} : seqEq s t = true ↔ s = t := by
  induction s generalizing t with
  | nil => cases t <;> simp [seqEq]
  | cons a s ih => cases t <;> simp [seqEq, ih]

theorem mem_of_fwdLookup {t : SymSeq} {c : Nat} {d : Dict} (h : fwdLookup t d = some c) : (c, t) ∈ d := by
  induction d with
  | nil => simp [fwdLookup] at h
  | cons p d ih =>
    obtain ⟨j, u⟩ := p
    simp only [fwdLookup] at h
    split at h
    · next hj => cases h; cases seqEq_iff.mp hj; exact List.mem_cons_self
    · exact List.mem_cons_of_mem _ (ih h)

theorem fwdLookup_eq_none_iff {t : SymSeq} {d : Dict} : fwdLookup t d = none ↔ ∀ e ∈ d, e.2 ≠ t := by
  induction d with
  | nil => simp [fwdLookup]
  | cons p d ih =>
    obtain ⟨j, u⟩ := p
    by_cases h : t = u
    · simp [fwdLookup, seqEq_iff, h]
    · simp [fwdLookup, seqEq_iff, h, ih, Ne.symm h]

theorem fwdLookup_isSome_iff {t : SymSeq} {d : Dict} : (fwdLookup t d).isSome ↔ ∃ e ∈ d, e.2 = t := by
  rw [← not_iff_not, Bool.not_eq_true, Option.isSome_eq_false_iff, Option.isNone_iff_eq_none,
    fwdLookup_eq_none_iff]
  push Not
  rfl

theorem fwdLookup_of_mem {t : SymSeq} {c : Nat} {d : Dict} (hn : (d.map Prod.snd).Nodup) (h : (c, t) ∈ d) :
    fwdLookup t d = some c := by
  induction d with
  | nil => simp at h
  | cons p d ih =>
    obtain ⟨j, u⟩ := p
    obtain ⟨hu, hd⟩ := List.nodup_cons.mp hn
    rcases List.mem_cons.mp h with h | h
    · cases h; simp [fwdLookup, seqEq_iff]
    · have hne : t ≠ u := fun e => hu (List.mem_map.mpr ⟨_, h, e⟩)
      simp [fwdLookup, seqEq_iff, hne, ih hd h]

/-- A lookup is settled by the part of the dictionary that holds the sequence. -/
theorem fwdLookup_append (t : SymSeq) (d e : Dict) :
    fwdLookup t (d ++ e) = (fwdLookup t d).or (fwdLookup t e) := by
  induction d with
  | nil => simp [fwdLookup]
  | cons p d ih =>
    obtain ⟨j, u⟩ := p
    by_cases h : t = u <;> simp [fwdLookup, seqEq_iff, h, ih]

theorem tableRead_append (k : Nat) (t u : Table α) :
    tableRead k (t ++ u) = (tableRead k t).or (tableRead k u) := by
  induction t with
  | nil => simp
  | cons p t ih =>
    obtain ⟨j, v⟩ := p
    by_cases h : j = k <;> simp [tableRead, h, ih]

/-- The seed's codes are 0 to 255 (R90). -/
theorem seedDict_keys : seedDict.map Prod.fst = List.range 256 := by
  simp [seedDict, Config.seedCount, Function.comp_def]

theorem seedDict_wf : tableWf seedDict := tableWf_of_range seedDict_keys

theorem mem_seedDict {e : Nat × SymSeq} : e ∈ seedDict ↔ e.1 < 256 ∧ e.2 = [BitVec.ofNat 8 e.1] := by
  obtain ⟨c, t⟩ := e
  simp [seedDict, Config.seedCount, eq_comm]

/-- `c in REV` after a dictionary reset is `c <= 255`, and `REV[c] == <c>` (R90, R133). -/
theorem revLookup_seedDict (c : Nat) :
    revLookup c seedDict = if c < 256 then some [BitVec.ofNat 8 c] else none := by
  split
  · next h => exact tableRead_of_mem seedDict_wf (mem_seedDict.mpr ⟨h, rfl⟩)
  · next h => exact tableRead_eq_none_iff.mpr (by simp [seedDict_keys]; omega)

theorem seedDict_sequences_nodup : (seedDict.map Prod.snd).Nodup := by
  rw [seedDict, List.map_map]
  refine List.Nodup.map_on (fun x hx y hy h => ?_) List.nodup_range
  simp only [Config.seedCount, List.mem_range] at hx hy
  simp only [Function.comp_apply, List.cons.injEq, and_true] at h
  have := congrArg BitVec.toNat h
  simp only [BitVec.toNat_ofNat] at this
  omega

/-- `FWD[<a>] == a` after a dictionary reset (R90, R92). -/
theorem fwdLookup_seedDict_single (a : Symbol) : fwdLookup [a] seedDict = some a.toNat :=
  fwdLookup_of_mem seedDict_sequences_nodup (mem_seedDict.mpr ⟨a.isLt, by simp⟩)

/-- No sequence of another length is in the seed (R90). -/
theorem fwdLookup_seedDict_of_length {t : SymSeq} (h : t.length ≠ 1) : fwdLookup t seedDict = none :=
  fwdLookup_eq_none_iff.mpr fun e he ht => h (by rw [← ht, (mem_seedDict.mp he).2]; rfl)

end Sys2Proof.Machine
end

