-- ==== Sys2Proof/Laws/Ops.lean ====
section
/-!
SUPPORT. What each shared operation can answer, said once; proofs cite these lemmas instead of unfolding the operation.
-/
namespace Sys2Proof.Machine

/-- A chain answers exactly when both parts do. -/
theorem andThen_eq_next {o : Result} {f : State → Result} {t : State} :
    andThen o f = .next t ↔ ∃ s, o = .next s ∧ f s = .next t := by
  cases o <;> simp [andThen]

@[simp] theorem andThen_next (s : State) (f : State → Result) : andThen (.next s) f = f s := rfl

/-- A command in its own phase has its own effect (R183). -/
theorem inPhase_own {p : Phase} {i : Instr} {s : State} {r : Result} (hp : p ≠ .fault) (h : s.phase = p) :
    inPhase p i s r = r := by
  subst h; simp [inPhase, hp]

/-- In FAULT a command is discarded (R180). -/
theorem inPhase_fault {p : Phase} {i : Instr} {s : State} {r : Result} (h : s.phase = .fault) :
    inPhase p i s r = .next s := by
  simp [inPhase, h, discard]

/-- In any other phase it is a PROTOCOL fault (R174). -/
theorem inPhase_other {p : Phase} {i : Instr} {s : State} {r : Result} (hf : s.phase ≠ .fault) (h : s.phase ≠ p) :
    inPhase p i s r = .next (faultEntry .protocol (encode i) s) := by
  simp [inPhase, hf, h, raiseFault]

/-- All a bracketed command can do: be discarded, have its own effect, or raise PROTOCOL. -/
theorem inPhase_cases {p : Phase} {i : Instr} {s t : State} {r : Result} (h : inPhase p i s r = .next t) :
    (s.phase = .fault ∧ t = s) ∨ (s.phase ≠ .fault ∧ s.phase = p ∧ r = .next t) ∨
      (s.phase ≠ .fault ∧ s.phase ≠ p ∧ t = faultEntry .protocol (encode i) s) := by
  by_cases hf : s.phase = .fault
  · rw [inPhase_fault hf] at h; cases h; exact .inl ⟨hf, rfl⟩
  · by_cases hp : s.phase = p
    · rw [inPhase_own (hp ▸ hf) hp] at h; exact .inr (.inl ⟨hf, hp, h⟩)
    · rw [inPhase_other hf hp] at h; cases h; exact .inr (.inr ⟨hf, hp, rfl⟩)

/-- `Emit` answers exactly when there is room (R58). -/
theorem emit_eq_next {v : Word} {s t : State} :
    emit v s = .next t ↔ s.olen < s.obufCap ∧ t = { s with obuf := tableWrite s.olen v s.obuf, olen := s.olen + 1 } := by
  unfold emit
  split <;> simp_all [eq_comm]

/-- The words `ENTRY` leaves in the output buffer from index `n` on. -/
def wordsWritten : SymSeq → Nat → Table Word → Table Word
  | [], _, o => o
  | a :: e, n, o => wordsWritten e (n + 1) (tableWrite n (zextSymbol a) o)

/-- The emissions of one `DECC` answer exactly when there is room for all of them (R131, R176). -/
theorem emitAll_of_room (e : SymSeq) (s : State) (h : s.olen + e.length ≤ s.obufCap) :
    emitAll e s = .next { s with obuf := wordsWritten e s.olen s.obuf, olen := s.olen + e.length } := by
  induction e generalizing s with
  | nil => simp [emitAll, wordsWritten]
  | cons a e ih =>
    simp only [List.length_cons] at h
    have hroom : s.olen < s.obufCap := by omega
    simp only [emitAll, emit, hroom, if_true, andThen_next, wordsWritten]
    rw [ih _ (by simp only; omega)]
    simp only [List.length_cons]
    congr 2; omega

/-- Words outside the ones written are as before. -/
theorem tableRead_wordsWritten_out (e : SymSeq) (n : Nat) (o : Table Word) {i : Nat}
    (h : i < n ∨ n + e.length ≤ i) : tableRead i (wordsWritten e n o) = tableRead i o := by
  induction e generalizing n o with
  | nil => rfl
  | cons a e ih =>
    simp only [List.length_cons] at h
    rw [wordsWritten, ih _ _ (by omega), tableRead_write_ne (by omega)]

/-- The words written are the entry's symbols, in order. -/
theorem tableRead_wordsWritten_in (e : SymSeq) (n : Nat) (o : Table Word) {i : Nat} (h : i < e.length) :
    tableRead (n + i) (wordsWritten e n o) = e[i]?.map zextSymbol := by
  induction e generalizing n o i with
  | nil => simp at h
  | cons a e ih =>
    cases i with
    | zero => simp [wordsWritten, tableRead_wordsWritten_out, tableRead_write_same]
    | succ i =>
      have := ih (n + 1) (tableWrite n (zextSymbol a) o) (i := i) (by simpa using h)
      simpa [wordsWritten, Nat.add_assoc, Nat.add_comm 1 i] using this

/-- The output buffer's canonical form is kept by every emission. -/
theorem wordsWritten_wf (e : SymSeq) (n : Nat) {o : Table Word} (h : tableWf o) : tableWf (wordsWritten e n o) := by
  induction e generalizing n o with
  | nil => exact h
  | cons a e ih => exact ih (n + 1) (tableWrite_wf n (zextSymbol a) h)

theorem mem_wordsWritten {e : SymSeq} {n : Nat} {o : Table Word} {p : Nat × Word} (h : p ∈ wordsWritten e n o) :
    p ∈ o ∨ (n ≤ p.1 ∧ p.1 < n + e.length ∧ p.2.toNat < 256) := by
  induction e generalizing n o with
  | nil => exact .inl h
  | cons a e ih =>
    rcases ih h with h | h
    · rcases mem_tableWrite h with rfl | h
      · have := a.isLt
        exact .inr ⟨le_rfl, by simp, by simp [zextSymbol]; omega⟩
      · exact .inl h
    · exact .inr ⟨by omega, by simp only [List.length_cons]; omega, h.2.2⟩

/-- `FwdInsert` (R93): all it can do when it answers. -/
theorem fwdInsert_eq_next {u : SymSeq} {s t : State} :
    fwdInsert u s = .next t ↔
      s.nextCode < s.dictCap ∧ fwdLookup u s.fwd = none ∧ tableRead s.nextCode s.fwd = none ∧
        t = { s with fwd := tableWrite s.nextCode u s.fwd, nextCode := s.nextCode + 1 } := by
  by_cases hc : s.nextCode < s.dictCap
  · cases h1 : fwdLookup u s.fwd <;> cases h2 : tableRead s.nextCode s.fwd <;>
      simp [fwdInsert, hc, h1, h2, eq_comm]
  · simp [fwdInsert, hc]

/-- `RevInsert` (R95): all it can do when it answers. -/
theorem revInsert_eq_next {u : SymSeq} {s t : State} :
    revInsert u s = .next t ↔
      s.nextCode < s.dictCap ∧ revLookup s.nextCode s.rev = none ∧
        t = { s with rev := tableWrite s.nextCode u s.rev, nextCode := s.nextCode + 1 } := by
  by_cases hc : s.nextCode < s.dictCap
  · cases h1 : revLookup s.nextCode s.rev <;> simp [revInsert, hc, h1, eq_comm]
  · simp [revInsert, hc]

/-- The code of `CUR` is emitted when `CUR` is in `FWD` (R113). -/
theorem emitCodeOfCur_eq_next {s t : State} :
    emitCodeOfCur s = .next t ↔ ∃ c, fwdLookup s.cur s.fwd = some c ∧ s.olen < s.obufCap ∧
      t = { s with obuf := tableWrite s.olen (zextNat c) s.obuf, olen := s.olen + 1 } := by
  unfold emitCodeOfCur
  split
  · next c h => simp [h, emit_eq_next]
  · next h => simp [h]

/-- A host read changes no engine state (R54). -/
theorem hostReturn_cases (v : Option Word) (s : State) :
    ∃ w d, hostReturn v s = { s with hostOut := s.hostOut ++ [w], draws := d } := by
  cases v with
  | none => exact ⟨Config.freeWord s.draws, s.draws + 1, rfl⟩
  | some w => exact ⟨w, s.draws, rfl⟩

/-- All a host operation can do to a state. -/
theorem hostOp_eq_next {op : HostOp} {s t : State} (h : hostOp op s = .next t) :
    (∃ w i, op = .cmd w ∧ decode w = .command i ∧ exec i s = .next t) ∨
      (∃ w, op = .cmd w ∧ decode w = .illegal ∧ illegalCommand w s = .next t) ∨
      (∃ w d, t = { s with hostOut := s.hostOut ++ [w], draws := d }) ∨ (op = .reset ∧ t = hostReset s) := by
  cases op with
  | cmd w =>
    simp only [hostOp, hostCmd] at h
    split at h
    · next i hi => exact .inl ⟨w, i, rfl, hi, h⟩
    · next hi => exact .inr (.inl ⟨w, rfl, hi, h⟩)
  | readReg n =>
    cases h
    obtain ⟨w, d, hw⟩ := hostReturn_cases (regRead n s) s
    exact .inr (.inr (.inl ⟨w, d, hw⟩))
  | readObuf i =>
    cases h
    obtain ⟨w, d, hw⟩ := hostReturn_cases (obufRead i s) s
    exact .inr (.inr (.inl ⟨w, d, hw⟩))
  | reset => cases h; exact .inr (.inr (.inr ⟨rfl, rfl⟩))

end Sys2Proof.Machine
end

