-- ==== Sys2Proof/Laws/Calls.lean ====
section
/-!
SUPPORT. What whole calls are made of: one pending command at a time, and the host's search for an oversized code
(spec/20_memory.md R59; spec/42_decode.md R135).
-/
namespace Sys2Proof.Machine

/-- No command: nothing happens but that the host has no pending operation. -/
theorem performCommands_nil (s : State) : performCommands [] s = .next { s with hostIn := [] } := rfl

/-- The first of several commands is performed, then the rest (R59). -/
theorem performCommands_cons {i : Instr} {is : List Instr} {s t : State} (hw : decode (encode i) = .command i)
    (h : exec i { s with hostIn := hostCmds is } = .next t) (ht : t.hostIn = hostCmds is) :
    performCommands (i :: is) s = performCommands is t := by
  have hstep : core.step { s with hostIn := hostCmds (i :: is) } = .next t := by
    show performNext { s with hostIn := .cmd (encode i) :: hostCmds is } = _
    simp only [performNext, hostOp, hostCmd, hw, h]
    rfl
  have heta : { t with hostIn := hostCmds is } = t := by rw [← ht]
  simp only [performCommands, List.length_cons, Host.Core.run, hstep, heta]
  rfl

/-- The first code that cannot be put in a command word is found where it stands (R135). -/
theorem firstOversized_append {pre : List Nat} (j c : Nat) (post : List Nat) (hp : ∀ d ∈ pre, d < 2 ^ 24)
    (hc : 2 ^ 24 ≤ c) : firstOversized j (pre ++ c :: post) = some (j + pre.length, c) := by
  induction pre generalizing j with
  | nil => exact if_pos hc
  | cons d pre ih =>
    obtain ⟨hd, hp⟩ := List.forall_mem_cons.mp hp
    rw [List.cons_append, firstOversized, if_neg (Nat.not_le.mpr hd), ih (j + 1) hp, List.length_cons]
    congr 2
    omega

/-- No such code is found where every code fits (R135). -/
theorem firstOversized_eq_none {cs : List Nat} (j : Nat) (h : ∀ d ∈ cs, d < 2 ^ 24) : firstOversized j cs = none := by
  induction cs generalizing j with
  | nil => rfl
  | cons d cs ih =>
    obtain ⟨hd, h⟩ := List.forall_mem_cons.mp h
    rw [firstOversized, if_neg (Nat.not_le.mpr hd), ih (j + 1) h]

/-- The plan stops before the oversized code (R135). -/
theorem decodePlan_append {pre : List Nat} (c : Nat) (post : List Nat) (hp : ∀ d ∈ pre, d < 2 ^ 24)
    (hc : 2 ^ 24 ≤ c) : decodePlan (pre ++ c :: post) = .decb :: pre.map deccOf := by
  rw [decodePlan, firstOversized_append 0 c post hp hc]
  simp

/-- After the plan the host issues `DRST` exactly where it made the report itself (R135). -/
theorem decodeClosing_append {pre : List Nat} (c : Nat) (post : List Nat) (s : State) (hp : ∀ d ∈ pre, d < 2 ^ 24)
    (hc : 2 ^ 24 ≤ c) : decodeClosing (pre ++ c :: post) s = if s.phase = .fault then [] else [.drst] := by
  rw [decodeClosing, firstOversized_append 0 c post hp hc]

end Sys2Proof.Machine
end

