-- ==== Sys2Proof/Laws/Commands.lean ====
section
/-!
SUPPORT. Everything the step of each command can do when it answers a next state, said once: proofs about `exec` take these
cases apart instead of unfolding the meanings.
-/
namespace Sys2Proof.Machine

/-- The symbol of an operand in the alphabet (R74). -/
theorem symbolOperand_of_le {sym : Arg} (h : sym.toNat ≤ 255) : symbolOperand sym = some (sym.setWidth 8) := by
  simp [symbolOperand, h]

theorem symbolOperand_of_gt {sym : Arg} (h : 255 < sym.toNat) : symbolOperand sym = none := by
  simp [symbolOperand, Nat.not_le.mpr h]

/-- `ENCS` on a symbol (R111): extend, one of the two capacity faults, or emit, insert and restart. -/
theorem encSymbol_cases {a : Symbol} {w : Word} {s t : State} (h : encSymbol a w s = .next t) :
    ((fwdLookup (s.cur ++ [a]) s.fwd).isSome ∧ t = encExtend a s) ∨
    (fwdLookup (s.cur ++ [a]) s.fwd = none ∧ s.olen = s.obufCap ∧ t = faultEntry .obufFull w s) ∨
    (fwdLookup (s.cur ++ [a]) s.fwd = none ∧ s.olen ≠ s.obufCap ∧ s.nextCode = s.dictCap ∧
      t = faultEntry .dictFull w s) ∨
    (fwdLookup (s.cur ++ [a]) s.fwd = none ∧ s.olen < s.obufCap ∧ s.nextCode < s.dictCap ∧
      tableRead s.nextCode s.fwd = none ∧ ∃ c, fwdLookup s.cur s.fwd = some c ∧
        t = { s with
          fwd := tableWrite s.nextCode (s.cur ++ [a]) s.fwd, nextCode := s.nextCode + 1, cur := [a],
          obuf := tableWrite s.olen (zextNat c) s.obuf, olen := s.olen + 1, arb := .encEmit }) := by
  unfold encSymbol raiseFault at h
  split at h
  · next hs => cases h; exact .inl ⟨hs, rfl⟩
  next hs =>
  have hn : fwdLookup (s.cur ++ [a]) s.fwd = none := by simpa using hs
  split at h
  · next ho => cases h; exact .inr (.inl ⟨hn, ho, rfl⟩)
  next ho =>
  split at h
  · next hd => cases h; exact .inr (.inr (.inl ⟨hn, ho, hd, rfl⟩))
  simp only [encEmit, andThen_eq_next, emitCodeOfCur_eq_next, fwdInsert_eq_next] at h
  obtain ⟨s1, ⟨c, h1, h2, rfl⟩, s2, ⟨h3, _, h5, rfl⟩, h6⟩ := h
  cases h6
  exact .inr (.inr (.inr ⟨hn, h2, h3, h5, c, h1, rfl⟩))

/-- `ENCS` in phase ENC (R111): BAD_SYMBOL, or the step on its symbol. -/
theorem encStep_cases {sym : Arg} {s t : State} (h : encStep sym s = .next t) :
    (255 < sym.toNat ∧ t = faultEntry .badSymbol (zextArg sym) s) ∨
    (sym.toNat ≤ 255 ∧ encSymbol (sym.setWidth 8) (encode (.encs sym)) s = .next t) := by
  rcases Nat.lt_or_ge 255 sym.toNat with hs | hs
  · simp only [encStep, symbolOperand_of_gt hs, raiseFault] at h
    cases h; exact .inl ⟨hs, rfl⟩
  · simp only [encStep, symbolOperand_of_le hs] at h
    exact .inr ⟨hs, h⟩

/-- `ENCE` in phase ENC (R112): nothing pending, OBUF_FULL, or the flush. -/
theorem encFlush_cases {s t : State} (h : encFlush s = .next t) :
    (s.cur = [] ∧ t = encFinish .none s) ∨
    (s.cur ≠ [] ∧ s.olen = s.obufCap ∧ t = faultEntry .obufFull (encode .ence) s) ∨
    (s.cur ≠ [] ∧ s.olen < s.obufCap ∧ ∃ c, fwdLookup s.cur s.fwd = some c ∧
      t = encFinish .encFlush { s with obuf := tableWrite s.olen (zextNat c) s.obuf, olen := s.olen + 1 }) := by
  unfold encFlush raiseFault at h
  split at h
  · next hc => cases h; exact .inl ⟨hc, rfl⟩
  next hc =>
  split at h
  · next ho => cases h; exact .inr (.inl ⟨hc, ho, rfl⟩)
  simp only [andThen_eq_next, emitCodeOfCur_eq_next] at h
  obtain ⟨s1, ⟨c, h1, h2, rfl⟩, h6⟩ := h
  cases h6
  exact .inr (.inr ⟨hc, h2, c, h1, rfl⟩)

/-- A resolved code (R131): one of the two capacity faults, the first code's output, or a subsequent code's output and
insert. -/
theorem decEntry_cases {e : SymSeq} {a : Arb} {w : Word} {s t : State} (h : decEntry e a w s = .next t) :
    (s.obufCap < s.olen + e.length ∧ t = faultEntry .obufFull w s) ∨
    (s.olen + e.length ≤ s.obufCap ∧ s.firstFlag = true ∧
      t = { s with
        cur := e, obuf := wordsWritten e s.olen s.obuf, olen := s.olen + e.length, firstFlag := false, arb := a }) ∨
    (s.olen + e.length ≤ s.obufCap ∧ s.firstFlag = false ∧ s.nextCode = s.dictCap ∧
      t = faultEntry .dictFull w s) ∨
    (s.olen + e.length ≤ s.obufCap ∧ s.firstFlag = false ∧ s.nextCode < s.dictCap ∧
      revLookup s.nextCode s.rev = none ∧ ∃ x, e.head? = some x ∧
        t = { s with
          rev := tableWrite s.nextCode (s.cur ++ [x]) s.rev, nextCode := s.nextCode + 1, cur := e,
          obuf := wordsWritten e s.olen s.obuf, olen := s.olen + e.length, arb := a }) := by
  unfold decEntry raiseFault at h
  split at h
  · next ho => cases h; exact .inl ⟨ho, rfl⟩
  next ho =>
  have hroom : s.olen + e.length ≤ s.obufCap := by omega
  split at h
  · next hf =>
    simp only [decFirst, emitAll_of_room e s hroom, andThen_next] at h
    cases h; exact .inr (.inl ⟨hroom, hf, rfl⟩)
  next hf =>
  have hf : s.firstFlag = false := by simpa using hf
  split at h
  · next hd => cases h; exact .inr (.inr (.inl ⟨hroom, hf, hd, rfl⟩))
  unfold decSubsequent at h
  split at h
  · cases h
  · simp only [emitAll_of_room _ s hroom, andThen_next, andThen_eq_next, revInsert_eq_next] at h
    obtain ⟨s2, ⟨h3, h4, rfl⟩, h6⟩ := h
    cases h6
    exact .inr (.inr (.inr ⟨hroom, hf, h3, h4, _, rfl, rfl⟩))

/-- `DECC` in phase DEC (R131): INVALID_CODE, or the step on what the code resolves to. -/
theorem decStep_cases {code : Arg} {s t : State} (h : decStep code s = .next t) :
    (resolveCode code.toNat s = .invalid ∧ t = faultEntry .invalidCode (zextArg code) s) ∨
    (∃ e a, resolveCode code.toNat s = .entry e a ∧ decEntry e a (encode (.decc code)) s = .next t) := by
  unfold decStep codeOperand raiseFault at h
  split at h
  · next e a he => exact .inr ⟨e, a, he, h⟩
  · next he => cases h; exact .inl ⟨he, rfl⟩
  · cases h

/-- What a code resolves to (R133), case by case. -/
theorem resolveCode_eq_entry {code : Nat} {s : State} {e : SymSeq} {a : Arb} (h : resolveCode code s = .entry e a) :
    (s.firstFlag = true ∧ revLookup code s.rev = some e ∧ a = .decFirst) ∨
    (s.firstFlag = false ∧ revLookup code s.rev = some e ∧ a = .decKnown) ∨
    (s.firstFlag = false ∧ revLookup code s.rev = none ∧ code = s.nextCode ∧ a = .decSelfref ∧
      ∃ x, s.cur.head? = some x ∧ e = s.cur ++ [x]) := by
  unfold resolveCode at h
  split at h
  · next u hu =>
    injection h with h1 h2
    subst h1
    cases hf : s.firstFlag
    · exact .inr (.inl ⟨rfl, hu, by simpa [hf] using h2.symm⟩)
    · exact .inl ⟨rfl, hu, by simpa [hf] using h2.symm⟩
  next hu =>
  split at h
  · cases h
  next hf =>
  split at h
  · next hc =>
    unfold selfrefEntry at h
    split at h
    · cases h
    · next x u hcur =>
      cases h
      exact .inr (.inr ⟨by simpa using hf, hu, hc, rfl, x, by simp [hcur], by simp [hcur]⟩)
  · cases h

/-- All that a command other than `DRST` can do: be discarded in FAULT, be a PROTOCOL fault, or have its own effect in its own
phase. -/
theorem exec_cases {i : Instr} {s t : State} (h : exec i s = .next t) :
    (i = .drst ∧ t = clearEngine s) ∨ (s.phase = .fault ∧ t = s) ∨
    (s.phase ≠ .fault ∧ t = faultEntry .protocol (encode i) s ∧
      ((i = .encb ∨ i = .decb) ∧ s.phase ≠ .idle ∨ (i = .ence ∨ ∃ sym, i = .encs sym) ∧ s.phase ≠ .enc ∨
        (i = .dece ∨ ∃ code, i = .decc code) ∧ s.phase ≠ .dec)) ∨
    (s.phase = .idle ∧ i = .encb ∧ t = beginCall .enc false s) ∨
    (s.phase = .idle ∧ i = .decb ∧ t = beginCall .dec true s) ∨
    (s.phase = .enc ∧ ∃ sym, i = .encs sym ∧ encStep sym s = .next t) ∨
    (s.phase = .enc ∧ i = .ence ∧ encFlush s = .next t) ∨
    (s.phase = .dec ∧ ∃ code, i = .decc code ∧ decStep code s = .next t) ∨
    (s.phase = .dec ∧ i = .dece ∧ t = decFinish s) := by
  cases i with
  | drst => cases h; exact .inl ⟨rfl, rfl⟩
  | encb => rcases inPhase_cases h with ⟨hp, rfl⟩ | ⟨_, hp, h⟩ | ⟨hf, hp, rfl⟩ <;> simp_all
  | encs sym => rcases inPhase_cases h with ⟨hp, rfl⟩ | ⟨_, hp, h⟩ | ⟨hf, hp, rfl⟩ <;> simp_all
  | ence => rcases inPhase_cases h with ⟨hp, rfl⟩ | ⟨_, hp, h⟩ | ⟨hf, hp, rfl⟩ <;> simp_all
  | decb => rcases inPhase_cases h with ⟨hp, rfl⟩ | ⟨_, hp, h⟩ | ⟨hf, hp, rfl⟩ <;> simp_all
  | decc code => rcases inPhase_cases h with ⟨hp, rfl⟩ | ⟨_, hp, h⟩ | ⟨hf, hp, rfl⟩ <;> simp_all
  | dece => rcases inPhase_cases h with ⟨hp, rfl⟩ | ⟨_, hp, h⟩ | ⟨hf, hp, rfl⟩ <;> simp_all

end Sys2Proof.Machine
end

