-- ==== Sys2Proof/Laws/Encoding.lean ====
section
/-!
SUPPORT. The fields of a word made from its fields (spec/30_encoding.md R71).
-/
namespace Sys2Proof.Machine

@[simp] theorem opField_wordOf (op : BitVec 4) (arg : Arg) : opField (wordOf op arg) = op := by
  ext i hi
  rw [opField, wordOf, BitVec.getElem_extractLsb', BitVec.getLsbD_append, BitVec.getLsbD_append]
  simp [show ¬ (28 + i < 24) by omega, show 28 + i - 24 - 4 = i by omega, show 4 ≤ 28 + i - 24 by omega,
    BitVec.getLsbD_eq_getElem hi]

@[simp] theorem rsvField_wordOf (op : BitVec 4) (arg : Arg) : rsvField (wordOf op arg) = 0 := by
  ext i hi
  rw [rsvField, wordOf, BitVec.getElem_extractLsb', BitVec.getLsbD_append, BitVec.getLsbD_append]
  simp [show ¬ (24 + i < 24) by omega]
  omega

@[simp] theorem argField_wordOf (op : BitVec 4) (arg : Arg) : argField (wordOf op arg) = arg := by
  ext i hi
  rw [argField, wordOf, BitVec.getElem_extractLsb', BitVec.getLsbD_append]
  simp [hi]

end Sys2Proof.Machine
end

