-- ==== Sys2Proof/Laws/PerInstr.lean ====
section
/-!
SUPPORT. A statement per command about its word as syntax: it is a legal word, its reserved field is 0 and its operation
code is not one of the reserved ones 0 and 8 to 15 (spec/30_encoding.md R72, R75).
-/
namespace Sys2Proof.Laws

/-- The word of a command is legal, with reserved field 0 and operation code 1 to 7. -/
def EncodedWord.Statement (i : Instr) : Prop :=
  legal (encode i) = true ∧ Machine.rsvField (encode i) = 0 ∧
    1 ≤ (Machine.opField (encode i)).toNat ∧ (Machine.opField (encode i)).toNat ≤ 7

theorem EncodedWord.drst : EncodedWord.Statement .drst := by unfold EncodedWord.Statement; decide
theorem EncodedWord.encb : EncodedWord.Statement .encb := by unfold EncodedWord.Statement; decide
theorem EncodedWord.ence : EncodedWord.Statement .ence := by unfold EncodedWord.Statement; decide
theorem EncodedWord.decb : EncodedWord.Statement .decb := by unfold EncodedWord.Statement; decide
theorem EncodedWord.dece : EncodedWord.Statement .dece := by unfold EncodedWord.Statement; decide

theorem EncodedWord.encs (sym : Arg) : EncodedWord.Statement (.encs sym) := by
  simp [EncodedWord.Statement, legal, encode, takesOperand, takesNoOperand]

theorem EncodedWord.decc (code : Arg) : EncodedWord.Statement (.decc code) := by
  simp [EncodedWord.Statement, legal, encode, takesOperand, takesNoOperand]

end Sys2Proof.Laws
end

