-- ==== Sys2Proof/Laws/Seed.lean ====
section
/-!
SUPPORT. A dictionary that is the seed followed by entries of code 256 and above: each clause of the invariant about it is a
check of the entries alone.
-/
namespace Sys2Proof.Machine

@[simp] theorem seedDict_length : seedDict.length = 256 := by simp [seedDict, Config.seedCount]

theorem take_seedDict_append (x : Dict) : (seedDict ++ x).take 256 = seedDict := by
  rw [← seedDict_length, List.take_left]

theorem length_of_mem_seedDict {e : Nat × SymSeq} (h : e ∈ seedDict) : e.2.length = 1 := by
  rw [(mem_seedDict.mp h).2]; rfl

theorem nodup_seedDict_append {x : Dict} (hx : (x.map Prod.snd).Nodup) (hl : ∀ e ∈ x, 2 ≤ e.2.length) :
    ((seedDict ++ x).map Prod.snd).Nodup := by
  rw [List.map_append]
  refine List.nodup_append.mpr ⟨seedDict_sequences_nodup, hx, fun t ht u hu htu => ?_⟩
  obtain ⟨e, he, rfl⟩ := List.mem_map.mp ht
  obtain ⟨f, hf, rfl⟩ := List.mem_map.mp hu
  have h1 := length_of_mem_seedDict he
  have h2 := hl f hf
  rw [htu] at h1
  omega

theorem prefixClosed_seedDict_append {x : Dict}
    (h : ∀ e ∈ x, ∃ f ∈ seedDict ++ x, f.1 < e.1 ∧ f.2 = e.2.dropLast) : prefixClosed (seedDict ++ x) := by
  intro e he hlen
  rcases List.mem_append.mp he with he | he
  · have := length_of_mem_seedDict he; omega
  · exact h e he

theorem lengthsOk_seedDict_append {x : Dict}
    (h : ∀ e ∈ x, 256 ≤ e.1 ∧ 2 ≤ e.2.length ∧ e.2.length ≤ e.1 - 254) : lengthsOk (seedDict ++ x) := by
  intro e he
  rcases List.mem_append.mp he with he | he
  · have := (mem_seedDict.mp he).1
    exact ⟨fun _ => length_of_mem_seedDict he, fun hge => by omega⟩
  · obtain ⟨h1, h2⟩ := h e he
    exact ⟨fun hlt => by omega, fun _ => h2⟩

theorem keys_seedDict_append (x : Dict) : (seedDict ++ x).map Prod.fst = List.range 256 ++ x.map Prod.fst := by
  rw [List.map_append, seedDict_keys]

end Sys2Proof.Machine
end

