-- ==== Sys2Proof/Tests/Slice0.lean ====
section
/-!
SUPPORT. Tests against the spec's own words and vectors (spec/95_test_vectors.md, spec/30_encoding.md), and for every
statement with hypotheses a witness that meets them.
-/
/-! One theorem is elaborated at a time: many kernel evaluations at once would each hold a thread. -/
set_option Elab.async false

namespace Sys2Proof.Tests

open Sys2Proof Sys2Proof.Machine

/-! Well-formed words (R73, R75): an ill-formed word for each check, and the well-formed ones -/

theorem test_legal_words : legal 0x10000000 && legal 0x20000000 && legal 0x30FFFFFF && legal 0x40000000 &&
    legal 0x50000000 && legal 0x60FFFFFF && legal 0x70000000 = true := by decide
theorem test_illformed_reserved_field : legal 0x31000041 = false := by decide
theorem test_illformed_reserved_op_zero : legal 0x00000000 = false := by decide
theorem test_illformed_reserved_op_high : legal 0xFFFFFFFF = false := by decide
theorem test_illformed_reserved_op_eight : legal 0x80000000 = false := by decide
theorem test_illformed_drst_operand : legal 0x10000001 = false := by decide
theorem test_illformed_encb_operand : legal 0x20000001 = false := by decide
theorem test_illformed_ence_operand : legal 0x40000001 = false := by decide
theorem test_illformed_decb_operand : legal 0x50000001 = false := by decide
theorem test_illformed_dece_operand : legal 0x70FFFFFF = false := by decide

/-! Decoding: words written out bit by bit from the encoding of each command (R71, R72): OP, RSV, ARG -/

theorem test_decode_drst : decode (0b0001#4 ++ 0b0000#4 ++ 0#24) = .command .drst := by decide
theorem test_decode_encb : decode (0b0010#4 ++ 0b0000#4 ++ 0#24) = .command .encb := by decide
theorem test_decode_encs : decode (0b0011#4 ++ 0b0000#4 ++ 0b000000000000000001000001#24) = .command (.encs 65) := by
  decide
theorem test_decode_ence : decode (0b0100#4 ++ 0b0000#4 ++ 0#24) = .command .ence := by decide
theorem test_decode_decb : decode (0b0101#4 ++ 0b0000#4 ++ 0#24) = .command .decb := by decide
theorem test_decode_decc : decode (0b0110#4 ++ 0b0000#4 ++ 0b000000000000000100000010#24) = .command (.decc 258) := by
  decide
theorem test_decode_dece : decode (0b0111#4 ++ 0b0000#4 ++ 0#24) = .command .dece := by decide
theorem test_encode_words : [encode .drst, encode .encb, encode (.encs 65), encode .ence, encode .decb,
    encode (.decc 0xFFFFFF), encode .dece] =
    [0x10000000, 0x20000000, 0x30000041, 0x40000000, 0x50000000, 0x60FFFFFF, 0x70000000] := by decide
theorem test_table_words : decodeTableWord 32 0x30000000 = some (.encs 0) ∧ decodeTableWord 32 0 = none := by decide

/-! States of the spec's programs -/

/-- Hardware reset (R200) with the given capacities. -/
def idleState (dictCap obufCap : Nat) : State := State.resetWith dictCap obufCap

/-- After `ENCB` (P1 step 1). -/
def encStart : State := { idleState 512 64 with phase := .enc }

/-- P1 step 4: "AB" is 256, "BA" is 257, `CUR` is "A", `OBUF` holds 65 and 66. -/
def encState (dictCap obufCap : Nat) : State :=
  { idleState dictCap obufCap with
    phase := .enc, fwd := seedDict ++ [(256, [65, 66]), (257, [66, 65])], nextCode := 258, cur := [65],
    obuf := [(0, 65), (1, 66)], olen := 2, arb := .encEmit }

/-- After `DECB` (P2 step 1). -/
def decStart : State := { idleState 512 64 with phase := .dec, firstFlag := true }

/-- P2 step 3: 256 is "AB", `CUR` is "B", `OBUF` holds 65 and 66. -/
def decState (dictCap obufCap : Nat) : State :=
  { idleState dictCap obufCap with
    phase := .dec, rev := seedDict ++ [(256, [65, 66])], nextCode := 257, cur := [66],
    obuf := [(0, 65), (1, 66)], olen := 2, arb := .decKnown }

/-- V-F7: a PROTOCOL fault. -/
def faultState : State := { idleState 512 64 with phase := .fault, fcause := .protocol, finfo := 0x30000041 }

/-- The next state of a step, the reset state where there is none. -/
def after (r : Result) : State :=
  match r with
  | .next t => t
  | _ => State.reset

/-- The registers `STATUS / NEXT / CURLEN / OLEN / FCAUSE / FINFO`, as the vectors list them. -/
def registers (r : Result) : List (Option Word) :=
  match r with
  | .next t => (List.range 6).map (fun n => regRead n t)
  | _ => []

/-- The valid words of `OBUF`. -/
def output (r : Result) : List (Option Word) := (List.range (after r).olen).map (fun i => obufRead i (after r))

/-! One command at a time: vectors V-K3, V-E20 to V-E24, V-D20 to V-D25, V-F5 to V-F25 -/

theorem test_drst_clears : registers (exec .drst (encState 512 64)) =
    [some 0, some 256, some 0, some 0, some 0, some 0] := by decide +kernel
theorem test_drst_leaves_fault : registers (exec .drst faultState) =
    [some 0, some 256, some 0, some 0, some 0, some 0] := by decide +kernel

theorem test_encb_begins : registers (exec .encb (idleState 512 64)) =
    [some 1, some 256, some 0, some 0, some 0, some 0] := by decide +kernel
theorem test_encb_out_of_phase : registers (exec .encb encStart) =
    [some 3, some 256, some 0, some 0, some 3, some 0x20000000] := by decide +kernel

theorem test_encs_hit_extends : registers (exec (.encs 66) (encState 512 64)) =
    [some 0x101, some 258, some 2, some 2, some 0, some 0] := by decide +kernel
theorem test_encs_miss_emits : (after (exec (.encs 65) (encState 512 64))).fwd.drop 258 = [(258, [65, 65])] ∧
    output (exec (.encs 65) (encState 512 64)) = [some 65, some 66, some 65] := by decide +kernel

theorem test_ence_flushes : output (exec .ence (encState 512 64)) = [some 65, some 66, some 65] ∧
    registers (exec .ence (encState 512 64)) = [some 0x304, some 258, some 0, some 3, some 0, some 0] := by
  decide +kernel
theorem test_ence_empty : registers (exec .ence encStart) =
    [some 4, some 256, some 0, some 0, some 0, some 0] := by decide +kernel

theorem test_decb_begins : registers (exec .decb (idleState 512 64)) =
    [some 0xA, some 256, some 0, some 0, some 0, some 0] := by decide +kernel
theorem test_decb_out_of_phase : registers (exec .decb decStart) =
    [some 0xB, some 256, some 0, some 0, some 3, some 0x50000000] := by decide +kernel

theorem test_decc_known : output (exec (.decc 256) (decState 512 64)) = [some 65, some 66, some 65, some 66] ∧
    (after (exec (.decc 256) (decState 512 64))).rev.drop 256 = [(256, [65, 66]), (257, [66, 65])] := by
  decide +kernel
theorem test_decc_selfref : registers (exec (.decc 257) (decState 512 64)) =
      [some 0x602, some 258, some 2, some 4, some 0, some 0] ∧
    (after (exec (.decc 257) (decState 512 64))).rev.drop 257 = [(257, [66, 66])] := by decide +kernel

theorem test_dece_finishes : registers (exec .dece (decState 512 64)) =
    [some 0x504, some 257, some 0, some 2, some 0, some 0] := by decide +kernel
theorem test_dece_empty : registers (exec .dece decStart) =
    [some 4, some 256, some 0, some 0, some 0, some 0] := by decide +kernel

/-- V-F4, V-F27: an illegal word faults; in FAULT it is discarded. -/
theorem test_illegal_word : registers (hostCmd 0x31000041 encStart) =
      [some 3, some 256, some 0, some 0, some 2, some 0x31000041] ∧
    registers (hostCmd 0x10000001 faultState) = [some 3, some 256, some 0, some 0, some 3, some 0x30000041] := by
  decide +kernel

/-- V-F5, V-F14, V-F20, V-F21: the faults of `ENCS` and `ENCE`. -/
theorem test_encode_faults : registers (exec (.encs 256) encStart) =
      [some 3, some 256, some 0, some 0, some 4, some 0x100] ∧
    registers (exec (.encs 65) (encState 258 64)) = [some 0x203, some 258, some 1, some 0, some 6, some 0x30000041] ∧
    registers (exec (.encs 65) (encState 258 2)) = [some 0x203, some 258, some 1, some 0, some 5, some 0x30000041] ∧
    registers (exec .ence (encState 512 2)) = [some 0x203, some 258, some 1, some 0, some 5, some 0x40000000] := by
  decide +kernel

/-- V-D9, V-D10, V-F15, V-F24: the faults of `DECC`. -/
theorem test_decode_faults : registers (exec (.decc 256) decStart) =
      [some 0x70B, some 256, some 0, some 0, some 1, some 0x100] ∧
    registers (exec (.decc 258) (decState 512 64)) = [some 0x703, some 257, some 1, some 0, some 1, some 0x102] ∧
    registers (exec (.decc 256) (decState 257 64)) = [some 0x503, some 257, some 1, some 0, some 6, some 0x60000100] ∧
    registers (exec (.decc 256) (decState 512 3)) = [some 0x503, some 257, some 1, some 0, some 5, some 0x60000100] := by
  decide +kernel

/-- U1: an insert that would overwrite is refused. -/
theorem test_overwriting_insert_refused :
    (match fwdInsert [65] (idleState 512 64) with | .refused r => some r | _ => none) = some .insertOverwrites := by
  decide +kernel

/-- The word `withFetchWord` places is the next one executed, from `State.reset`. -/
theorem test_first_word_runs : registers (step (State.reset.withFetchWord 32 0x20000000)) =
    [some 1, some 256, some 0, some 0, some 0, some 0] := by decide +kernel

/-- V-E7 and V-D12 on the reference functions. -/
theorem test_reference : encodeRef [65, 65, 65, 65] = [65, 256, 65] ∧
    decodeRef [65, 65, 65] = .symbols [65, 65, 65] ∧ decodeRef [65, 300] = .invalidCode 300 := by decide +kernel

/-- V-H1, V-H5, V-H6. -/
theorem test_ratio : ratio 7 4 12 = some (7 / 6) ∧ ratio 7 4 9 = some (14 / 9) ∧ ratio 0 0 12 = none := by
  decide +kernel

/-! Witnesses: states that meet the invariant, and the hypotheses of the statements -/

/-- The clauses of the invariant about dictionaries that are the seed and further entries `f`, `r`, one of them none. -/
theorem inv_dictionaries {s : State} {f r : Dict} (hf : s.fwd = seedDict ++ f) (hr : s.rev = seedDict ++ r)
    (hx : (f.map Prod.snd).Nodup ∧ ∀ d ∈ [f, r], ∀ e ∈ d, 256 ≤ e.1 ∧ 2 ≤ e.2.length ∧ e.2.length ≤ e.1 - 254)
    (hc : ∀ d ∈ [f, r], ∀ e ∈ d, ∃ g ∈ seedDict ++ d, g.1 < e.1 ∧ g.2 = e.2.dropLast) :
    (s.fwd.take 256 = seedDict ∧ s.rev.take 256 = seedDict) ∧ (s.fwd.map Prod.snd).Nodup ∧
    (prefixClosed s.fwd ∧ prefixClosed s.rev) ∧ (lengthsOk s.fwd ∧ lengthsOk s.rev) := by
  rw [hf, hr]
  exact ⟨⟨take_seedDict_append f, take_seedDict_append r⟩,
    nodup_seedDict_append hx.1 fun e he => (hx.2 f (by simp) e he).2.1,
    ⟨prefixClosed_seedDict_append (hc f (by simp)), prefixClosed_seedDict_append (hc r (by simp))⟩,
    lengthsOk_seedDict_append (hx.2 f (by simp)), lengthsOk_seedDict_append (hx.2 r (by simp))⟩

theorem dense_seeds {s : State} (hf : s.fwd = seedDict) (hr : s.rev = seedDict) (hn : s.nextCode = 256) :
    denseFwd s ∧ denseRev s := by
  simp [denseFwd, denseRev, hf, hr, hn, seedDict_keys]

theorem dense_encState (d o : Nat) : denseFwd (encState d o) := by
  refine ⟨?_, rfl⟩
  show (seedDict ++ _).map Prod.fst = List.range 258
  rw [keys_seedDict_append]; decide +kernel

theorem dense_decState (d o : Nat) : denseRev (decState d o) := by
  refine ⟨?_, rfl⟩
  show (seedDict ++ _).map Prod.fst = List.range 257
  rw [keys_seedDict_append]; decide +kernel

/-- The host's queue is no part of the invariant. -/
theorem inv_withHostIn {s : State} (h : s.Inv) (l : List HostOp) : ({ s with hostIn := l } : State).Inv := by
  obtain ⟨_, _, _, _, _, _, _, _, _, _, _, _, _, _, _, _, _, _, _, _, _⟩ := h
  constructor <;> assumption

theorem inv_of_seeds {s : State} (hf : s.fwd = seedDict) (hr : s.rev = seedDict) (hn : s.nextCode = 256)
    (hc : s.cur = []) (ho : s.olen = 0) (hb : s.obuf = []) (hd : s.doneFlag = false) (hcap : capsInRange s)
    (hcause : s.phase = .fault ↔ s.fcause ≠ .none) (hinfo : s.phase ≠ .fault → s.finfo = 0)
    (hfirst : s.firstFlag = true ↔ s.phase = .dec) : s.Inv := by
  obtain ⟨h1, h2, h3, h4⟩ := inv_dictionaries (s := s) (f := []) (r := []) (by simp [hf]) (by simp [hr])
    (by decide) (by decide)
  obtain ⟨hf', hr'⟩ := dense_seeds hf hr hn
  exact { seeds := h1, fwdOnce := h2, closed := h3, lengths := h4, dense := .inl hf', denseEnc := fun _ => hf',
          denseDec := fun _ => hr', caps := hcap, nextRange := ⟨hn.ge, hn.le.trans hcap.1.1⟩, curIdle := fun _ => hc,
          curEnc := fun _ => .inl ⟨hc, hn, ho⟩, curFirst := fun _ _ => ⟨hc, hn, ho⟩,
          curDec := fun hp h => absurd (hfirst.mpr hp) (by simp [h]), curFault := fun _ => .inl hc,
          causeIffFault := hcause, faultNoResult := fun _ => ⟨ho, hd⟩, infoZero := hinfo,
          doneIdle := fun h => absurd h (by simp [hd]), firstDec := fun h => .inl (hfirst.mp h),
          obufOk := by simp [hb], validWords := by simp [ho] }

theorem witness_inv_idle : (idleState 512 64).Inv :=
  inv_of_seeds rfl rfl rfl rfl rfl rfl rfl (by decide) (by decide) (by decide) (by decide)
theorem witness_inv_encStart : encStart.Inv :=
  inv_of_seeds rfl rfl rfl rfl rfl rfl rfl (by decide) (by decide) (by decide) (by decide)
theorem witness_inv_decStart : decStart.Inv :=
  inv_of_seeds rfl rfl rfl rfl rfl rfl rfl (by decide) (by decide) (by decide) (by decide)
theorem witness_inv_fault : faultState.Inv :=
  inv_of_seeds rfl rfl rfl rfl rfl rfl rfl (by decide) (by decide) (by decide) (by decide)

theorem witness_inv_enc {d o : Nat} (hd : 258 ≤ d ∧ d ≤ 2 ^ 24) (ho : 2 ≤ o ∧ o ≤ 2 ^ 32 - 1) : (encState d o).Inv := by
  obtain ⟨h1, h2, h3, h4⟩ := inv_dictionaries (s := encState d o) (f := [(256, [65, 66]), (257, [66, 65])]) (r := [])
    rfl (List.append_nil _).symm (by decide) (by decide +kernel)
  exact { seeds := h1, fwdOnce := h2, closed := h3, lengths := h4, dense := .inl (dense_encState d o),
          denseEnc := fun _ => dense_encState d o, denseDec := nofun, caps := ⟨⟨le_trans (by decide) hd.1, hd.2⟩, le_trans (by decide) ho.1, ho.2⟩,
          nextRange := ⟨(by decide : 256 ≤ 258), hd.1⟩, curIdle := nofun,
          curEnc := fun _ => .inr (by change stored [65] (seedDict ++ _); decide +kernel),
          curFirst := nofun, curDec := nofun, curFault := nofun, causeIffFault := by change Phase.enc = .fault ↔ Cause.none ≠ .none; decide, faultNoResult := nofun,
          infoZero := fun _ => rfl, doneIdle := nofun, firstDec := nofun,
          obufOk := ⟨by change tableWf [(0, 65#32), (1, 66)]; decide, by
            change ∀ e ∈ [(0, 65#32), (1, 66)], e.1 < o ∧ e.2.toNat < 2 ^ 24
            simp; omega⟩,
          validWords := ⟨ho.1, by change ∀ i < 2, (tableRead i [(0, 65#32), (1, 66)]).isSome; decide⟩ }

theorem witness_inv_dec {d o : Nat} (hd : 257 ≤ d ∧ d ≤ 2 ^ 24) (ho : 2 ≤ o ∧ o ≤ 2 ^ 32 - 1) : (decState d o).Inv := by
  obtain ⟨h1, h2, h3, h4⟩ := inv_dictionaries (s := decState d o) (f := []) (r := [(256, [65, 66])])
    (List.append_nil _).symm rfl (by decide) (by decide +kernel)
  exact { seeds := h1, fwdOnce := h2, closed := h3, lengths := h4, dense := .inr (dense_decState d o),
          denseEnc := nofun, denseDec := fun _ => dense_decState d o, caps := ⟨⟨le_trans (by decide) hd.1, hd.2⟩, le_trans (by decide) ho.1, ho.2⟩,
          nextRange := ⟨(by decide : 256 ≤ 257), hd.1⟩, curIdle := nofun, curEnc := nofun,
          curFirst := nofun, curDec := fun _ _ => by change stored [66] (seedDict ++ _); decide +kernel,
          curFault := nofun, causeIffFault := by change Phase.dec = .fault ↔ Cause.none ≠ .none; decide, faultNoResult := nofun,
          infoZero := fun _ => rfl, doneIdle := nofun, firstDec := nofun,
          obufOk := ⟨by change tableWf [(0, 65#32), (1, 66)]; decide, by
            change ∀ e ∈ [(0, 65#32), (1, 66)], e.1 < o ∧ e.2.toNat < 2 ^ 24
            simp; omega⟩,
          validWords := ⟨ho.1, by change ∀ i < 2, (tableRead i [(0, 65#32), (1, 66)]).isSome; decide⟩ }

/-- The answer is a next state. -/
def isNext (r : Result) : Bool :=
  match r with
  | .next _ => true
  | _ => false

theorem next_after {r : Result} (h : isNext r = true) : r = .next (after r) := by
  cases r <;> simp_all [isNext, after]

/-- The queue of a state replaced by these operations. -/
def queued (l : List HostOp) (s : State) : State := { s with hostIn := l }

theorem witness_StepRunsDecodedCommand :
    (queued [.cmd 0x30000041] encStart).hostIn = [.cmd 0x30000041] ∧ decode 0x30000041 = .command (.encs 65) ∧
    (queued [.cmd 0x31000041] encStart).hostIn = [.cmd 0x31000041] ∧ decode 0x31000041 = .illegal ∧
    decodeTableWord 32 0x60000000 = some (.decc 0) ∧ encStart.hostIn = [] := by decide
theorem witness_DecodeOfEncodeIsIdentity : legal 0x60FFFFFF = true := by decide
theorem witness_RegisterReadReturnsRegister :
    (queued [.readReg 5] encStart).hostIn = [.readReg 5] ∧ (queued [.readReg 6] encStart).hostIn = [.readReg 6] ∧
    5 < 6 ∧ 6 ≤ 6 := by decide
theorem witness_ObufReadReturnsValidWord :
    (queued [.readObuf 1] (encState 512 64)).Inv ∧ (queued [.readObuf 2] (encState 512 64)).Inv ∧
    (encState 512 64).olen = 2 ∧ 1 < 2 ∧ 2 ≤ 2 :=
  ⟨inv_withHostIn (witness_inv_enc (by decide) (by decide)) _, inv_withHostIn (witness_inv_enc (by decide) (by decide)) _,
    rfl, by decide, by decide⟩
theorem witness_CountRegistersReadExactly : (encState 258 2).Inv := witness_inv_enc (by decide) (by decide)
theorem witness_HardwareResetIgnoresState : (queued [.reset] faultState).hostIn = [.reset] := rfl
theorem witness_DictResetSeedsBothMaps : ([65, 66] : SymSeq).length ≠ 1 ∧ 255 < 256 ∧ 256 ≤ 256 := by decide
theorem witness_LookupsFindExactlyTheStored : fwdWf seedDict ∧ tableWf seedDict :=
  ⟨⟨seedDict_wf, seedDict_sequences_nodup⟩, seedDict_wf⟩
theorem witness_InsertsAssignNextCode :
    fwdLookup [65, 66] (idleState 257 1).fwd = none ∧ tableRead 256 (idleState 257 1).fwd = none ∧
    revLookup 256 (idleState 257 1).rev = none ∧ (idleState 257 1).nextCode < (idleState 257 1).dictCap := by
  decide +kernel
theorem witness_EmitAppendsOneWord :
    (encState 512 3).olen < (encState 512 3).obufCap ∧ (encState 512 64).Inv ∧
    obufRead 1 (encState 512 64) = some 66 :=
  ⟨by decide, witness_inv_enc (by decide) (by decide), by decide⟩
theorem witness_NextCodeIsUnassigned : (decState 257 2).Inv := witness_inv_dec (by decide) (by decide)

theorem witness_EncbBeginsEncodeCall : (idleState 512 64).phase = .idle := rfl
theorem witness_EncsHitExtends : (encState 512 64).phase = .enc ∧ (66 : Arg).toNat ≤ 255 ∧
    (fwdLookup ((encState 512 64).cur ++ [(66 : Arg).setWidth 8]) (encState 512 64).fwd).isSome := by decide +kernel
theorem witness_EncsMissEmitsAndInserts : (encState 259 3).Inv ∧ (encState 259 3).phase = .enc ∧ (255 : Arg).toNat ≤ 255 ∧
    fwdLookup ((encState 259 3).cur ++ [(255 : Arg).setWidth 8]) (encState 259 3).fwd = none ∧
    (encState 259 3).olen ≠ (encState 259 3).obufCap ∧ (encState 259 3).nextCode ≠ (encState 259 3).dictCap :=
  ⟨witness_inv_enc (by decide) (by decide), by decide +kernel⟩
theorem witness_EnceFlushesAndFinishes : (encState 512 3).Inv ∧ (encState 512 3).phase = .enc ∧
    (encState 512 3).cur ≠ [] ∧ (encState 512 3).olen ≠ (encState 512 3).obufCap ∧ encStart.phase = .enc ∧
    encStart.cur = [] := ⟨witness_inv_enc (by decide) (by decide), by decide⟩
theorem witness_EmittedMatchIsLongestPrefix : (encState 512 64).Inv ∧ (encState 512 64).phase = .enc ∧
    fwdLookup ((encState 512 64).cur ++ [67]) (encState 512 64).fwd = none ∧
    [65] <+: (encState 512 64).cur ++ 67 :: [65] ∧ stored [65] (encState 512 64).fwd :=
  ⟨witness_inv_enc (by decide) (by decide), by decide +kernel⟩

theorem witness_DecbBeginsDecodeCall : (idleState 256 1).phase = .idle := rfl
theorem witness_DecodeArbiterTable : decStart.Inv ∧ decStart.phase = .dec ∧ decStart.firstFlag = true ∧
    (decState 512 64).Inv ∧ (decState 512 64).phase = .dec ∧ (decState 512 64).firstFlag = false ∧
    (decState 512 64).nextCode = 257 ∧ 255 ≤ 255 ∧ 256 ≤ 256 ∧ 256 < 257 ∧ 257 < 258 :=
  ⟨witness_inv_decStart, rfl, rfl, witness_inv_dec (by decide) (by decide), by decide⟩
theorem witness_DeccFirstOutputsSymbol : decStart.Inv ∧ decStart.phase = .dec ∧ decStart.firstFlag = true ∧
    (255 : Arg).toNat ≤ 255 := ⟨witness_inv_decStart, by decide⟩
theorem witness_DeccKnownOutputsEntry : (decState 258 4).Inv ∧ (decState 258 4).phase = .dec ∧
    (decState 258 4).firstFlag = false ∧ revLookup (256 : Arg).toNat (decState 258 4).rev = some [65, 66] ∧
    (decState 258 4).olen + 2 ≤ (decState 258 4).obufCap ∧ (decState 258 4).nextCode ≠ (decState 258 4).dictCap :=
  ⟨witness_inv_dec (by decide) (by decide), by decide +kernel⟩
theorem witness_DeccSelfrefDefinesItsCode : (decState 258 4).Inv ∧ (decState 258 4).phase = .dec ∧
    (decState 258 4).firstFlag = false ∧ (257 : Arg).toNat = (decState 258 4).nextCode ∧
    (decState 258 4).olen + (decState 258 4).cur.length + 1 ≤ (decState 258 4).obufCap ∧
    (decState 258 4).nextCode ≠ (decState 258 4).dictCap := ⟨witness_inv_dec (by decide) (by decide), by decide⟩
theorem witness_DeceFinishesDecodeCall : decStart.phase = .dec := rfl

theorem witness_IllegalWordFaults : legal 0x40000001 = false ∧ encStart.phase ≠ .fault := by decide
theorem witness_CommandOutOfPhaseFaults :
    (idleState 512 64).phase = .idle ∧ encStart.phase = .enc ∧ decStart.phase = .dec := by decide
theorem witness_BadSymbolFaults : encStart.phase = .enc ∧ 255 < (256 : Arg).toNat := by decide
theorem witness_InvalidCodeFaults : decStart.Inv ∧ decStart.phase = .dec ∧ decStart.firstFlag = true ∧
    256 ≤ (256 : Arg).toNat ∧ (decState 512 64).Inv ∧ (decState 512 64).phase = .dec ∧
    (decState 512 64).firstFlag = false ∧ (decState 512 64).nextCode < (258 : Arg).toNat ∧
    isNext (exec (.decc 258) (decState 512 64)) = true ∧
    (after (exec (.decc 258) (decState 512 64))).fcause = .invalidCode :=
  ⟨witness_inv_decStart, rfl, rfl, by decide, witness_inv_dec (by decide) (by decide), by decide +kernel⟩
theorem witness_FullOutputBufferFaults_enc : (encState 512 2).Inv ∧ (encState 512 2).phase = .enc ∧
    (65 : Arg).toNat ≤ 255 ∧ fwdLookup ((encState 512 2).cur ++ [(65 : Arg).setWidth 8]) (encState 512 2).fwd = none ∧
    (encState 512 2).cur ≠ [] ∧ (encState 512 2).olen = (encState 512 2).obufCap ∧
    isNext (exec .ence (encState 512 2)) = true ∧ (after (exec .ence (encState 512 2))).fcause = .obufFull :=
  ⟨witness_inv_enc (by decide) (by decide), by decide +kernel⟩
theorem witness_FullOutputBufferFaults_dec : (decState 512 3).Inv ∧ (decState 512 3).phase = .dec ∧
    resolveCode (256 : Arg).toNat (decState 512 3) = .entry [65, 66] .decKnown ∧
    (decState 512 3).obufCap < (decState 512 3).olen + 2 ∧
    isNext (exec (.decc 256) (decState 512 3)) = true ∧ (after (exec (.decc 256) (decState 512 3))).fcause = .obufFull :=
  ⟨witness_inv_dec (by decide) (by decide), by decide +kernel⟩
theorem witness_FullDictionaryFaults_enc : (encState 258 64).Inv ∧ (encState 258 64).phase = .enc ∧
    (65 : Arg).toNat ≤ 255 ∧ fwdLookup ((encState 258 64).cur ++ [(65 : Arg).setWidth 8]) (encState 258 64).fwd = none ∧
    (encState 258 64).olen ≠ (encState 258 64).obufCap ∧ (encState 258 64).nextCode = (encState 258 64).dictCap ∧
    isNext (exec (.encs 65) (encState 258 64)) = true ∧ (after (exec (.encs 65) (encState 258 64))).fcause = .dictFull :=
  ⟨witness_inv_enc (by decide) (by decide), by decide +kernel⟩
theorem witness_FullDictionaryFaults_dec : (decState 257 4).Inv ∧ (decState 257 4).phase = .dec ∧
    (decState 257 4).firstFlag = false ∧ resolveCode (256 : Arg).toNat (decState 257 4) = .entry [65, 66] .decKnown ∧
    (decState 257 4).olen + 2 ≤ (decState 257 4).obufCap ∧ (decState 257 4).nextCode = (decState 257 4).dictCap :=
  ⟨witness_inv_dec (by decide) (by decide), by decide +kernel⟩
theorem witness_FaultPhaseDiscardsWords : (queued [.cmd 0x10000001] faultState).phase = .fault ∧
    (queued [.cmd 0x10000001] faultState).hostIn = [.cmd 0x10000001] ∧ (0x10000001 : Word) ≠ 0x10000000 := by decide
theorem witness_FaultsArePrecise : encStart.phase ≠ .fault ∧ isNext (exec .encb encStart) = true ∧
    (after (exec .encb encStart)).phase = .fault ∧ Cause.invalidCode = .invalidCode ∧ Cause.protocol ≠ .invalidCode := by
  decide
theorem witness_PhaseTableIsFollowed : isNext (exec .dece decStart) = true ∧ isNext (exec .dece encStart) = true := by
  decide
theorem witness_OnlyResetLeavesFault : (queued [.cmd 0x10000000] faultState).phase = .fault ∧
    isNext (step (queued [.cmd 0x10000000] faultState)) = true ∧
    (after (step (queued [.cmd 0x10000000] faultState))).phase ≠ .fault ∧
    isNext (step (queued [.reset] faultState)) = true ∧
    (after (step (queued [.reset] faultState))).phase ≠ .fault := by decide

theorem witness_CommandsKeepParameters : isNext (exec (.decc 65) decStart) = true := by decide +kernel
theorem witness_EncodeStepFrame : isNext (exec (.encs 65) (encState 512 64)) = true ∧
    (after (exec (.encs 65) (encState 512 64))).phase ≠ .fault ∧ isNext (exec .ence (encState 512 64)) = true ∧
    (after (exec .ence (encState 512 64))).phase ≠ .fault ∧ isNext (exec .ence encStart) = true ∧ encStart.cur = [] ∧
    (after (exec (.encs 66) (encState 512 64))).nextCode = (encState 512 64).nextCode := by decide +kernel
theorem witness_DecodeStepFrame : isNext (exec (.decc 256) (decState 512 64)) = true ∧
    (after (exec (.decc 256) (decState 512 64))).phase ≠ .fault ∧ isNext (exec (.decc 256) decStart) = true ∧
    (after (exec (.decc 256) decStart)).phase = .fault ∧ decStart.firstFlag = true ∧
    isNext (exec .dece decStart) = true ∧ (after (exec .dece decStart)).phase ≠ .fault := by decide +kernel
theorem witness_ResetAndBeginFrame : isNext (exec .drst faultState) = true ∧ isNext (exec .encb (idleState 256 1)) = true ∧
    (after (exec .encb (idleState 256 1))).phase ≠ .fault ∧ isNext (exec .decb encStart) = true ∧
    (after (exec .decb encStart)).phase = .fault := by decide

theorem witness_InvariantHoldsAtReset : Config.dictCapInRange 256 ∧ Config.dictCapInRange (2 ^ 24) ∧
    Config.obufCapInRange 1 ∧ Config.obufCapInRange (2 ^ 32 - 1) := by decide
theorem witness_StepKeepsInvariant : (queued [.cmd 0x30000041] (encState 512 64)).Inv ∧
    isNext (step (queued [.cmd 0x30000041] (encState 512 64))) = true :=
  ⟨inv_withHostIn (witness_inv_enc (by decide) (by decide)) _, by decide +kernel⟩
theorem witness_EngineNeverStops : (queued [.cmd 0x60000101] (decState 512 64)).Inv :=
  inv_withHostIn (witness_inv_dec (by decide) (by decide)) _

theorem witness_EncodeCallRefinesReference : capsInRange (idleState 257 2) ∧ (idleState 257 2).phase = .idle ∧
    (idleState 257 2).fcause = .none ∧ callFits (idleState 257 2) (encodeRef [65, 66]).length (encodeRef [65, 66]).length ∧
    ¬ callFits (idleState 257 2) (encodeRef [65, 66, 67]).length (encodeRef [65, 66, 67]).length ∧
    ([65, 66] : SymSeq).length ≤ (idleState 257 2).obufCap ∧ ([65, 66] : SymSeq).length + 255 ≤ (idleState 257 2).dictCap := by
  decide +kernel
theorem witness_DecodeCallRefinesReference : capsInRange (idleState 257 3) ∧ (idleState 257 3).phase = .idle ∧
    (idleState 257 3).fcause = .none ∧ (∀ c ∈ [65, 256], c < 2 ^ 24) ∧ decodeRef [65, 256] = .symbols [65, 65, 65] ∧
    callFits (idleState 257 3) 3 2 ∧ ¬ callFits (idleState 257 3) 3 3 ∧
    isNext (performCommands (decodeCommands [256]) (idleState 257 3)) = true ∧
    (after (performCommands (decodeCommands [256]) (idleState 257 3))).fcause = .invalidCode := by decide +kernel
theorem witness_DecodeCallReportsInvalidCode : capsInRange (idleState 256 1) ∧ (∀ d ∈ [65] ++ 300 :: [66], d < 2 ^ 24) ∧
    decodeRef [65] = .symbols [65] ∧ decodeRef ([65] ++ [300]) = .invalidCode 300 ∧ callFits (idleState 256 1) 1 1 ∧
    ¬ callFits (idleState 256 1) 1 2 := by decide +kernel
theorem witness_HostDecodeReportIsSound : (idleState 512 64).Inv ∧
    isNext (performCommands (decodePlan [16777216]) (idleState 512 64)) = true ∧
    decodeReport [16777216] (after (performCommands (decodePlan [16777216]) (idleState 512 64))) = .invalidCode 16777216 ∧
    isNext (performCommands (decodePlan [65]) (idleState 512 64)) = true ∧
    decodeReport [65] (after (performCommands (decodePlan [65]) (idleState 512 64))) = .success :=
  ⟨witness_inv_idle, by decide +kernel⟩
theorem witness_HostDecodeReportIsSound_fault :
    isNext (performCommands (decodePlan [65, 300, 16777216]) (idleState 512 64)) = true ∧
    (after (performCommands (decodePlan [65, 300, 16777216]) (idleState 512 64))).phase = .fault := by decide +kernel
theorem witness_HostDecodeReportIsSound_oversized :
    isNext (performCommands (decodePlan ([65] ++ 16777216 :: [66])) (idleState 512 64)) = true ∧
    (after (performCommands (decodePlan ([65] ++ 16777216 :: [66])) (idleState 512 64))).phase ≠ .fault ∧
    (∀ d ∈ [65], d < 2 ^ 24) ∧ 2 ^ 24 ≤ 16777216 ∧ 16777216 ≠ 256 + (([65] : List Nat).length - 1) := by decide +kernel

/-! The corner in which the report of an oversized code is a capacity failure needs more than 16.7 million codes (U7): code 65
as often as the largest dictionary allows, then the code that would be its next entry. -/

/-- `DECC 65` with room and `NEXT` free. -/
theorem exec_decc65 (s : State) (hp : s.phase = .dec) (hf : s.firstFlag = false) (hr : revLookup 65 s.rev = some [65])
    (hfree : revLookup s.nextCode s.rev = none) (hd : s.nextCode < s.dictCap) (ho : s.olen + 1 ≤ s.obufCap) :
    exec (deccOf 65) s = .next { s with
      rev := tableWrite s.nextCode (s.cur ++ [65]) s.rev, nextCode := s.nextCode + 1, cur := [65],
      obuf := tableWrite s.olen 65 s.obuf, olen := s.olen + 1, arb := .decKnown } := by
  have hres : resolveCode (codeOperand 65) s = .entry [65] .decKnown := by
    rw [show codeOperand 65 = 65 from rfl, resolveCode, hr, hf]
    rfl
  have hemit : emitAll [65] s = .next { s with obuf := tableWrite s.olen 65 s.obuf, olen := s.olen + 1 } :=
    emitAll_of_room [65] s ho
  have hins := (revInsert_eq_next (u := s.cur ++ [65])
    (s := { s with obuf := tableWrite s.olen 65 s.obuf, olen := s.olen + 1 })).mpr ⟨hd, hfree, rfl⟩
  have hroom : ¬ s.olen + ([65] : SymSeq).length > s.obufCap := Nat.not_lt.mpr ho
  show inPhase .dec _ s (decStep 65 s) = _
  rw [inPhase_own (by decide) hp, decStep, hres]
  show decEntry [65] .decKnown _ s = _
  rw [decEntry, if_neg hroom, if_neg (by rw [hf]; decide), if_neg (Nat.ne_of_lt hd), decSubsequent, hemit, andThen, hins]
  rfl

/-- `DECC 65` again and again, with room, keeps the engine in DEC. -/
theorem performCommands_decc65 (n : Nat) (s : State) (hp : s.phase = .dec) (hf : s.firstFlag = false)
    (hr : revLookup 65 s.rev = some [65]) (hk : ∀ e ∈ s.rev, e.1 < s.nextCode) (hlow : 65 < s.nextCode)
    (hd : s.nextCode + n ≤ s.dictCap) (ho : s.olen + n ≤ s.obufCap) :
    ∃ t, performCommands (List.replicate n (deccOf 65)) s = .next t ∧ t.phase = .dec := by
  induction n generalizing s with
  | zero => exact ⟨_, performCommands_nil s, hp⟩
  | succ n ih =>
    have hfree : revLookup s.nextCode s.rev = none := tableRead_eq_none_iff.mpr fun h => by
      obtain ⟨e, he, hkey⟩ := List.mem_map.mp h
      exact absurd hkey (Nat.ne_of_lt (hk e he))
    have hstep := exec_decc65 { s with hostIn := hostCmds (List.replicate n (deccOf 65)) } hp hf hr hfree
      (show s.nextCode < s.dictCap by omega) (show s.olen + 1 ≤ s.obufCap by omega)
    rw [List.replicate_succ, performCommands_cons (by decide) hstep rfl]
    refine ih _ hp hf ?_ ?_ (Nat.lt_succ_of_lt hlow) (show s.nextCode + 1 + n ≤ s.dictCap by omega)
      (show s.olen + 1 + n ≤ s.obufCap by omega)
    · exact (tableRead_write_ne (Nat.ne_of_lt hlow) _ _).trans hr
    · intro e he
      rcases mem_tableWrite he with rfl | he
      · exact Nat.lt_succ_self _
      · exact Nat.lt_succ_of_lt (hk e he)

theorem witness_HostDecodeReportIsSound_corner :
    ∃ t, performCommands (decodePlan (List.replicate (2 ^ 24 - 256 + 1) 65 ++ 2 ^ 24 :: [])) State.reset = .next t ∧
      t.phase ≠ .fault ∧ (∀ d ∈ List.replicate (2 ^ 24 - 256 + 1) 65, d < 2 ^ 24) ∧
      List.replicate (2 ^ 24 - 256 + 1) 65 ≠ [] ∧ 2 ^ 24 = 256 + ((List.replicate (2 ^ 24 - 256 + 1) 65).length - 1) := by
  have hpre : ∀ d ∈ List.replicate (2 ^ 24 - 256 + 1) 65, d < 2 ^ 24 := fun d hd => by rw [List.eq_of_mem_replicate hd]; omega
  suffices h : ∃ t, performCommands (decodePlan (List.replicate (2 ^ 24 - 256 + 1) 65 ++ 2 ^ 24 :: [])) State.reset = .next t ∧
      t.phase = .dec by
    obtain ⟨t, h1, h2⟩ := h
    exact ⟨t, h1, by rw [h2]; decide, hpre, List.ne_nil_of_length_pos (by rw [List.length_replicate]; omega),
      by rw [List.length_replicate]; omega⟩
  rw [decodePlan_append _ _ hpre (Nat.le_refl _), List.map_replicate]
  generalize hn : 2 ^ 24 - 256 = n
  rw [List.replicate_succ]
  have h0 : exec .decb { State.reset with hostIn := hostCmds (deccOf 65 :: List.replicate n (deccOf 65)) } =
      .next { State.reset with
        phase := .dec, firstFlag := true, hostIn := hostCmds (deccOf 65 :: List.replicate n (deccOf 65)) } := rfl
  have h1 : exec (deccOf 65) { State.reset with
        phase := .dec, firstFlag := true, hostIn := hostCmds (List.replicate n (deccOf 65)) } =
      .next { State.reset with
        phase := .dec, arb := .decFirst, cur := [65], obuf := [(0, 65)], olen := 1,
        hostIn := hostCmds (List.replicate n (deccOf 65)) } := rfl
  rw [performCommands_cons (by decide) h0 rfl, performCommands_cons (by decide) h1 rfl]
  refine performCommands_decc65 n _ rfl rfl (revLookup_seedDict 65) (fun e he => (mem_seedDict.mp he).1)
    (show 65 < 256 by decide) ?_ ?_
  · show 256 + n ≤ 2 ^ 24
    omega
  · show 1 + n ≤ 2 ^ 32 - 1
    omega
theorem test_oversizedReport_corner : oversizedReport (2 ^ 24 - 255) (2 ^ 24) = .capacity ∧
    oversizedReport (2 ^ 24 - 254) (2 ^ 24) = .invalidCode (2 ^ 24) ∧ oversizedReport 0 (2 ^ 24) = .invalidCode (2 ^ 24) := by
  decide +kernel
theorem test_hostDecode_drst : (after (hostDecode [65, 16777216] (idleState 512 64))).phase = .idle ∧
    (after (hostDecode [65, 16777216] (idleState 512 64))).olen = 0 ∧
    (after (hostDecode [65, 300, 16777216] (idleState 512 64))).phase = .fault := by decide +kernel
theorem test_encode_one_symbol : (after (performCommands (encodeCommands [65]) (idleState 512 64))).phase = .idle ∧
    (after (performCommands (encodeCommands [65]) (idleState 512 64))).doneFlag = true ∧
    (after (performCommands (encodeCommands [65]) (idleState 512 64))).fcause = .none ∧
    (after (performCommands (encodeCommands [65]) (idleState 512 64))).olen = 1 ∧
    (after (performCommands (encodeCommands [65]) (idleState 512 64))).obuf = [(0, 65)] := by decide +kernel
theorem witness_EngineRoundTrip : (idleState 512 64).Inv ∧
    isNext (performCommands (encodeCommands [65]) (idleState 512 64)) = true ∧
    callResult (after (performCommands (encodeCommands [65]) (idleState 512 64))) [65] ∧
    ([65] : SymSeq).length ≤ (idleState 512 64).obufCap := by
  obtain ⟨hp, hd, hc, hn, ho⟩ := test_encode_one_symbol
  refine ⟨witness_inv_idle, by decide +kernel, ⟨hp, hd, hc, hn, fun i => ?_⟩, by decide⟩
  rw [obufRead, hn, ho]
  cases i <;> simp [tableRead]
theorem witness_DictionariesGrowInLockstep :
    isNext (performCommands (decodeCommands (encodeRef [65]))
      (after (performCommands (encodeCommands [65]) (idleState 512 64)))) = true ∧
    (after (performCommands (decodeCommands (encodeRef [65]))
      (after (performCommands (encodeCommands [65]) (idleState 512 64))))).doneFlag = true := by decide +kernel
theorem witness_CallsForgetHistory : (idleState 512 64).Inv ∧ ({ idleState 512 64 with obuf := [(0, 65)] } : State).phase = .idle ∧
    isNext (performCommands [.encb, .encs 65] (idleState 512 64)) = true := ⟨witness_inv_idle, rfl, by decide +kernel⟩
theorem witness_RepetitionClosedForm : 1 ≤ 3 ∧ 3 ≤ 2 * (2 + 1) / 2 ∧ (2 - 1) * 2 / 2 < 3 := by decide
theorem witness_EmptyAndSingletonCalls : (idleState 512 64).Inv ∧ 255 < 256 := ⟨witness_inv_idle, by decide⟩
theorem witness_ArenaFormAgreesWithMaps : (encState 512 64).Inv ∧
    arenaSeq 257 (arenaOf (encState 512 64).fwd) 257 = some [66, 65] :=
  ⟨witness_inv_enc (by decide) (by decide), by decide +kernel⟩
theorem witness_RatioIsExactRational : 4 * 12 ≠ 0 ∧ 0 * 12 = 0 := by decide

end Sys2Proof.Tests
end

section
/-!
A dictionary as R38 describes it (the seed and the codes that follow it: dense, closed under one-shorter sequences, with
bounded lengths), an output buffer as R25 and R58 describe it, and the operations that keep the two.
-/
namespace Sys2Proof.Machine

/-- What R38 items 1, 2, 3 and 6 say of a map that holds exactly the codes 0 to `n - 1`: the grown map with `n = NEXT`, and the
map a call leaves at its seeds with `n = 256`. -/
structure GrownDict (d : Dict) (n : Nat) : Prop where
  seeded : 256 ≤ n
  seeds : d.take 256 = seedDict
  keys : d.map Prod.fst = List.range n
  closed : prefixClosed d
  lengths : lengthsOk d

namespace GrownDict

variable {d : Dict} {n c : Nat} {t : SymSeq}

protected theorem seed : GrownDict seedDict 256 where
  seeded := le_rfl
  seeds := by simpa only [List.append_nil] using take_seedDict_append []
  keys := seedDict_keys
  closed := by simpa using prefixClosed_seedDict_append (x := []) (by simp)
  lengths := by simpa using lengthsOk_seedDict_append (x := []) (by simp)

theorem wf (h : GrownDict d n) : tableWf d := tableWf_of_range h.keys

theorem code_lt (h : GrownDict d n) (he : (c, t) ∈ d) : c < n := by
  have hc : c ∈ d.map Prod.fst := List.mem_map_of_mem he
  rwa [h.keys, List.mem_range] at hc

theorem read_isSome_iff (h : GrownDict d n) : (tableRead c d).isSome ↔ c < n := by
  rw [← not_iff_not, Bool.not_eq_true, Option.isSome_eq_false_iff, Option.isNone_iff_eq_none, tableRead_eq_none_iff,
    h.keys, List.mem_range]

/-- `NEXT` is not assigned. -/
theorem read_next (h : GrownDict d n) : tableRead n d = none :=
  tableRead_eq_none_iff.mpr (by simp [h.keys])

theorem mem_of_mem_seed (h : GrownDict d n) {e : Nat × SymSeq} (he : e ∈ seedDict) : e ∈ d :=
  List.mem_of_mem_take (h.seeds ▸ he)

theorem stored_single (h : GrownDict d n) (a : Symbol) : stored [a] d :=
  ⟨(a.toNat, [a]), h.mem_of_mem_seed (mem_seedDict.mpr ⟨a.isLt, by simp⟩), rfl⟩

theorem read_seed (h : GrownDict d n) (hc : c < 256) : tableRead c d = some [BitVec.ofNat 8 c] :=
  tableRead_of_mem h.wf (h.mem_of_mem_seed (mem_seedDict.mpr ⟨hc, rfl⟩))

theorem ne_nil_of_mem (h : GrownDict d n) {e : Nat × SymSeq} (he : e ∈ d) : e.2 ≠ [] := by
  obtain ⟨hseed, hlong⟩ := h.lengths e he
  intro hnil
  rw [hnil, List.length_nil] at hseed hlong
  rcases Nat.lt_or_ge e.1 256 with hc | hc
  · exact absurd (hseed hc) (by decide)
  · exact absurd (hlong hc).1 (by decide)

theorem ne_nil_of_stored (h : GrownDict d n) (ht : stored t d) : t ≠ [] := by
  obtain ⟨e, he, rfl⟩ := ht
  exact h.ne_nil_of_mem he

/-- An insert at `NEXT` is an entry at the end. -/
theorem write_next (h : GrownDict d n) (t : SymSeq) : tableWrite n t d = d ++ [(n, t)] :=
  tableWrite_append t fun _ he => h.code_lt he

/-- Inserting a stored sequence and one more symbol at `NEXT` (R93, R95). -/
theorem insert (h : GrownDict d n) (ht : stored t d) (a : Symbol) :
    GrownDict (tableWrite n (t ++ [a]) d) (n + 1) := by
  obtain ⟨⟨p, t⟩, he, rfl⟩ := ht
  have hp : p < n := h.code_lt he
  have hne : t ≠ [] := h.ne_nil_of_mem he
  rw [h.write_next]
  refine ⟨h.seeded.trans n.le_succ, ?_, ?_, ?_, ?_⟩
  · have hlen : d.length = n := by simpa using congrArg List.length h.keys
    rw [List.take_append_of_le_length (hlen ▸ h.seeded), h.seeds]
  · rw [List.map_append, h.keys, List.range_succ]; rfl
  · intro e he' hlen
    rcases List.mem_append.mp he' with he' | he'
    · obtain ⟨f, hf, hlt, hf2⟩ := h.closed e he' hlen
      exact ⟨f, List.mem_append_left _ hf, hlt, hf2⟩
    · cases List.mem_singleton.mp he'
      exact ⟨(p, t), List.mem_append_left _ he, hp, List.dropLast_concat.symm⟩
  · intro e he'
    rcases List.mem_append.mp he' with he' | he'
    · exact h.lengths e he'
    · cases List.mem_singleton.mp he'
      obtain ⟨hseed, hlong⟩ := h.lengths _ he
      have hpos := List.length_pos_of_ne_nil hne
      have hn := h.seeded
      simp only [List.length_append, List.length_singleton] at hseed hlong ⊢
      omega

theorem stored_insert (h : GrownDict d n) {u : SymSeq} (v : SymSeq) (hu : stored u d) : stored u (tableWrite n v d) := by
  obtain ⟨e, he, rfl⟩ := hu
  exact ⟨e, h.write_next v ▸ List.mem_append_left _ he, rfl⟩

theorem stored_insert_self (h : GrownDict d n) (v : SymSeq) : stored v (tableWrite n v d) :=
  ⟨(n, v), h.write_next v ▸ List.mem_append_right _ (List.mem_singleton.mpr rfl), rfl⟩

/-- An insert of a sequence that is not stored keeps the map one from sequences (R92). -/
theorem nodup_insert (h : GrownDict d n) (hd : (d.map Prod.snd).Nodup) (ht : fwdLookup t d = none) :
    ((tableWrite n t d).map Prod.snd).Nodup := by
  rw [h.write_next, List.map_append, List.map_singleton]
  refine hd.append (List.nodup_singleton t) (List.disjoint_singleton.mpr fun hm => ?_)
  obtain ⟨e, he, het⟩ := List.mem_map.mp hm
  exact fwdLookup_eq_none_iff.mp ht e he het

end GrownDict

/-- An output buffer of capacity `cap` whose first `n` words are valid (R25, R58). -/
structure OutputOk (cap n : Nat) (o : Table Word) : Prop where
  wf : tableWf o
  words : ∀ e ∈ o, e.1 < cap ∧ e.2.toNat < 2 ^ 24
  room : n ≤ cap
  written : ∀ i < n, (tableRead i o).isSome

namespace OutputOk

variable {cap n : Nat} {o : Table Word}

protected theorem write (h : OutputOk cap n o) (hn : n < cap) {v : Word} (hv : v.toNat < 2 ^ 24) :
    OutputOk cap (n + 1) (tableWrite n v o) where
  wf := tableWrite_wf n v h.wf
  words := fun e he => by
    rcases mem_tableWrite he with rfl | he
    · exact ⟨hn, hv⟩
    · exact h.words e he
  room := hn
  written := fun i hi => by
    rcases Nat.lt_succ_iff_lt_or_eq.mp hi with hi | rfl
    · rw [tableRead_write_ne hi.ne]; exact h.written i hi
    · simp [tableRead_write_same]

protected theorem writeAll (h : OutputOk cap n o) (e : SymSeq) (hn : n + e.length ≤ cap) :
    OutputOk cap (n + e.length) (wordsWritten e n o) := by
  induction e generalizing n o with
  | nil => exact h
  | cons a e ih =>
    rw [List.length_cons] at hn ⊢
    have ha : (zextSymbol a).toNat < 2 ^ 24 := by
      have := a.isLt
      simp only [zextSymbol, BitVec.toNat_setWidth]
      omega
    have := ih (h.write (by omega) ha) (by omega)
    rwa [show n + 1 + e.length = n + (e.length + 1) by omega] at this

/-- No valid word: what a fault, a begin and a reset leave (R179). -/
theorem none_valid (h : OutputOk cap n o) : OutputOk cap 0 o :=
  ⟨h.wf, h.words, Nat.zero_le _, fun _ hi => absurd hi (Nat.not_lt_zero _)⟩

end OutputOk

end Sys2Proof.Machine
end

section
/-!
The invariant of R38: what it says in terms of the dictionaries and the output buffer, that hardware reset establishes it and
that every step keeps it.
-/
namespace Sys2Proof.Machine

variable {s t : State}

theorem grownFwd_of_dense (h : s.Inv) (hd : denseFwd s) : GrownDict s.fwd s.nextCode :=
  ⟨h.nextRange.1, h.seeds.1, hd.1, h.closed.1, h.lengths.1⟩

theorem grownRev_of_dense (h : s.Inv) (hd : denseRev s) : GrownDict s.rev s.nextCode :=
  ⟨h.nextRange.1, h.seeds.2, hd.1, h.closed.2, h.lengths.2⟩

theorem grownFwd_of_enc (h : s.Inv) (hp : s.phase = .enc) : GrownDict s.fwd s.nextCode :=
  grownFwd_of_dense h (h.denseEnc (.inl hp))

theorem grownRev_of_dec (h : s.Inv) (hp : s.phase = .dec) : GrownDict s.rev s.nextCode :=
  grownRev_of_dense h (h.denseDec (.inl hp))

theorem outputOk_of_inv (h : s.Inv) : OutputOk s.obufCap s.olen s.obuf :=
  ⟨h.obufOk.1, h.obufOk.2, h.validWords.1, h.validWords.2⟩

/-- In an encode call a pending match is stored (R38 item 4). -/
theorem curStored_of_enc (h : s.Inv) (hp : s.phase = .enc) (hc : s.cur ≠ []) : stored s.cur s.fwd :=
  (h.curEnc hp).resolve_left fun he => hc he.1

/-- A code of `FWD` fits the 24 bits of an output word (R58, R96). -/
theorem zextNat_code_lt (h : s.Inv) (hp : s.phase = .enc) {c : Nat} {u : SymSeq} (hc : fwdLookup u s.fwd = some c) :
    (zextNat c).toNat < 2 ^ 24 := by
  have hlt : c < s.nextCode := (grownFwd_of_enc h hp).code_lt (mem_of_fwdLookup hc)
  obtain ⟨⟨-, hcap⟩, -⟩ := h.caps
  have hnext := h.nextRange.2
  simp only [zextNat, BitVec.toNat_ofNat]
  omega

/-! The cleared engine: hardware reset, `DRST` and the state after reset -/

theorem inv_clearEngine (hcaps : capsInRange s) (ho : OutputOk s.obufCap 0 s.obuf) : (clearEngine s).Inv where
  caps := hcaps
  seeds := ⟨GrownDict.seed.seeds, GrownDict.seed.seeds⟩
  nextRange := ⟨le_rfl, hcaps.1.1⟩
  dense := .inl ⟨seedDict_keys, rfl⟩
  denseEnc := fun _ => ⟨seedDict_keys, rfl⟩
  denseDec := fun _ => ⟨seedDict_keys, rfl⟩
  fwdOnce := seedDict_sequences_nodup
  closed := ⟨GrownDict.seed.closed, GrownDict.seed.closed⟩
  lengths := ⟨GrownDict.seed.lengths, GrownDict.seed.lengths⟩
  curIdle := fun _ => rfl
  curEnc := by simp
  curFirst := by simp
  curDec := by simp
  curFault := by simp
  causeIffFault := by simp
  faultNoResult := by simp
  infoZero := fun _ => rfl
  doneIdle := by simp
  firstDec := by simp
  obufOk := ⟨ho.wf, ho.words⟩
  validWords := ⟨ho.room, ho.written⟩

theorem outputOk_nil (cap : Nat) : OutputOk cap 0 [] :=
  ⟨List.Pairwise.nil, by simp, Nat.zero_le _, by simp⟩

theorem inv_resetWith {dictCap obufCap : Nat} (hd : Config.dictCapInRange dictCap) (ho : Config.obufCapInRange obufCap) :
    (State.resetWith dictCap obufCap).Inv :=
  inv_clearEngine (s := State.resetWith dictCap obufCap) ⟨hd, ho⟩ (outputOk_nil obufCap)

theorem inv_hostReset (h : s.Inv) : (hostReset s).Inv :=
  inv_clearEngine (s := { s with obuf := [] }) h.caps (outputOk_nil s.obufCap)

/-- Settles O44: the reset state is a cleared engine with no word of `OBUF` specified. -/
theorem invariantHoldsAtReset : Obligations.InvariantHoldsAtReset :=
  ⟨fun _ _ => inv_resetWith, inv_resetWith (by decide) (by decide)⟩

/-! The operations of R183 every command shares -/

/-- Fault entry keeps the invariant (R179): a fault has a cause, and INVALID_CODE is raised in a decode call only (R171). -/
theorem inv_faultEntry (h : s.Inv) {c : Cause} (w : Word) (hc : c ≠ .none)
    (hi : c = .invalidCode → s.phase = .dec) : (faultEntry c w s).Inv :=
  have ho := (outputOk_of_inv h).none_valid
  { h with
    denseEnc := by
      rintro (hp | ha)
      · cases hp
      · rw [faultEntry_arb] at ha
        split at ha
        · cases ha
        · exact h.denseEnc (.inr ha)
    denseDec := by
      rintro (hp | ha)
      · cases hp
      · rw [faultEntry_arb] at ha
        split at ha
        · next hinv => exact h.denseDec (.inl (hi hinv))
        · exact h.denseDec (.inr ha)
    curIdle := by simp
    curEnc := by simp
    curFirst := by simp
    curDec := by simp
    curFault := fun _ => by
      show s.cur = [] ∨ stored s.cur s.fwd ∨ stored s.cur s.rev
      cases hp : s.phase with
      | idle => exact .inl (h.curIdle hp)
      | enc => exact (h.curEnc hp).imp And.left Or.inl
      | dec =>
        cases hf : s.firstFlag with
        | true => exact .inl (h.curFirst hp hf).1
        | false => exact .inr (.inr (h.curDec hp hf))
      | fault => exact h.curFault hp
    causeIffFault := by simpa using hc
    faultNoResult := fun _ => ⟨rfl, rfl⟩
    infoZero := by simp
    doneIdle := by simp
    firstDec := fun _ => .inr rfl
    obufOk := ⟨ho.wf, ho.words⟩
    validWords := ⟨ho.room, ho.written⟩ }

theorem fcause_eq_none (h : s.Inv) (hp : s.phase ≠ .fault) : s.fcause = .none :=
  not_not.mp (mt h.causeIffFault.mpr hp)

/-- The begin of a call keeps the invariant (R110, R130): the cleared engine's dictionary, `CUR` and output, in phase ENC with
`FIRST == 0` or in phase DEC with `FIRST == 1`. -/
theorem inv_beginCall (h : s.Inv) (hs : s.phase = .idle) {p : Phase} {first : Bool}
    (hp : p = .enc ∧ first = false ∨ p = .dec ∧ first = true) : (beginCall p first s).Inv :=
  have hf : s.phase ≠ .fault := by simp [hs]
  { inv_clearEngine h.caps (outputOk_of_inv h).none_valid with
    curIdle := fun _ => rfl
    curEnc := fun _ => .inl ⟨rfl, rfl, rfl⟩
    curFirst := fun _ _ => ⟨rfl, rfl, rfl⟩
    curDec := by rcases hp with ⟨rfl, rfl⟩ | ⟨rfl, rfl⟩ <;> simp
    curFault := fun _ => .inl rfl
    causeIffFault := by rcases hp with ⟨rfl, rfl⟩ | ⟨rfl, rfl⟩ <;> simp [fcause_eq_none h hf]
    faultNoResult := fun _ => ⟨rfl, rfl⟩
    infoZero := fun _ => h.infoZero hf
    denseEnc := fun _ => ⟨seedDict_keys, rfl⟩
    denseDec := fun _ => ⟨seedDict_keys, rfl⟩
    doneIdle := by simp
    firstDec := by rcases hp with ⟨rfl, rfl⟩ | ⟨rfl, rfl⟩ <;> simp }

/-! The encode side -/

/-- What a step of an encode call writes keeps the invariant: a grown `FWD`, a stored `CUR`, valid words, and no decision of a
decode call. -/
theorem inv_encUpdate (h : s.Inv) (hp : s.phase = .enc) {d : Dict} {n k : Nat} {u : SymSeq} {o : Table Word} {a : Arb}
    (hd : GrownDict d n) (hn : n ≤ s.dictCap) (hone : (d.map Prod.snd).Nodup) (hu : stored u d)
    (ho : OutputOk s.obufCap k o) (ha : decodeDecision a = false) :
    State.Inv { s with fwd := d, nextCode := n, cur := u, obuf := o, olen := k, arb := a } :=
  have hrev : s.rev = seedDict := (h.denseEnc (.inl hp)).2
  { h with
    seeds := ⟨hd.seeds, h.seeds.2⟩
    nextRange := ⟨hd.seeded, hn⟩
    dense := .inl ⟨hd.keys, hrev⟩
    denseEnc := fun _ => ⟨hd.keys, hrev⟩
    denseDec := by simp [hp, ha]
    fwdOnce := hone
    closed := ⟨hd.closed, h.closed.2⟩
    lengths := ⟨hd.lengths, h.lengths.2⟩
    curIdle := by simp [hp]
    curEnc := fun _ => .inr hu
    curFirst := by simp [hp]
    curDec := by simp [hp]
    curFault := by simp [hp]
    faultNoResult := by simp [hp]
    doneIdle := fun ht => absurd ((h.doneIdle ht).1.symm.trans hp) (by decide)
    obufOk := ⟨ho.wf, ho.words⟩
    validWords := ⟨ho.room, ho.written⟩ }

/-- The end of an encode call keeps the invariant (R112), whatever the flush has added to the output. -/
theorem inv_encFinish (h : s.Inv) (hp : s.phase = .enc) {k : Nat} {o : Table Word} {a : Arb}
    (ho : OutputOk s.obufCap k o) (ha : decodeDecision a = false) :
    State.Inv (encFinish a { s with obuf := o, olen := k }) :=
  have hf : s.phase ≠ .fault := by simp [hp]
  have hfirst : s.firstFlag = false := by simpa [hp] using mt h.firstDec
  { h with
    denseEnc := fun _ => h.denseEnc (.inl hp)
    denseDec := by simp [ha]
    curIdle := fun _ => rfl
    curEnc := by simp
    curFirst := by simp
    curDec := by simp
    curFault := by simp
    causeIffFault := by simp [fcause_eq_none h hf]
    faultNoResult := by simp
    infoZero := fun _ => h.infoZero hf
    doneIdle := fun _ => ⟨rfl, rfl, hfirst⟩
    firstDec := by simp [hfirst]
    obufOk := ⟨ho.wf, ho.words⟩
    validWords := ⟨ho.room, ho.written⟩ }

theorem encSymbol_keeps_inv (h : s.Inv) (hp : s.phase = .enc) {a : Symbol} {w : Word} (ht : encSymbol a w s = .next t) :
    t.Inv := by
  have hd := grownFwd_of_enc h hp
  have ho := outputOk_of_inv h
  rcases encSymbol_cases ht with ⟨hhit, rfl⟩ | ⟨-, -, rfl⟩ | ⟨-, -, -, rfl⟩ | ⟨hmiss, hroom, hfree, -, c, hc, rfl⟩
  · exact inv_encUpdate h hp hd h.nextRange.2 h.fwdOnce (fwdLookup_isSome_iff.mp hhit) ho rfl
  · exact inv_faultEntry h w (by decide) (by simp)
  · exact inv_faultEntry h w (by decide) (by simp)
  · have hcur : stored s.cur s.fwd := ⟨(c, s.cur), mem_of_fwdLookup hc, rfl⟩
    exact inv_encUpdate h hp (hd.insert hcur a) hfree (hd.nodup_insert h.fwdOnce hmiss)
      (hd.stored_insert _ (hd.stored_single a)) (ho.write hroom (zextNat_code_lt h hp hc)) rfl

theorem encStep_keeps_inv (h : s.Inv) (hp : s.phase = .enc) {sym : Arg} (ht : encStep sym s = .next t) : t.Inv := by
  rcases encStep_cases ht with ⟨-, rfl⟩ | ⟨-, ht⟩
  · exact inv_faultEntry h _ (by decide) (by simp)
  · exact encSymbol_keeps_inv h hp ht

theorem encFlush_keeps_inv (h : s.Inv) (hp : s.phase = .enc) (ht : encFlush s = .next t) : t.Inv := by
  have ho := outputOk_of_inv h
  rcases encFlush_cases ht with ⟨-, rfl⟩ | ⟨-, -, rfl⟩ | ⟨-, hroom, c, hc, rfl⟩
  · exact inv_encFinish h hp ho rfl
  · exact inv_faultEntry h _ (by decide) (by simp)
  · exact inv_encFinish h hp (ho.write hroom (zextNat_code_lt h hp hc)) rfl

/-! The decode side -/

/-- What a step of a decode call writes keeps the invariant: a grown `REV`, a stored `CUR`, valid words, `FIRST == 0` and no
decision of an encode call. -/
theorem inv_decUpdate (h : s.Inv) (hp : s.phase = .dec) {d : Dict} {n k : Nat} {u : SymSeq} {o : Table Word} {a : Arb}
    {first : Bool} (hd : GrownDict d n) (hn : n ≤ s.dictCap) (hu : stored u d) (ho : OutputOk s.obufCap k o)
    (ha : encodeDecision a = false) (hf : first = false) :
    State.Inv { s with
      rev := d, nextCode := n, cur := u, obuf := o, olen := k, firstFlag := first, arb := a } :=
  have hfwd : s.fwd = seedDict := (h.denseDec (.inl hp)).2
  { h with
    seeds := ⟨h.seeds.1, hd.seeds⟩
    nextRange := ⟨hd.seeded, hn⟩
    dense := .inr ⟨hd.keys, hfwd⟩
    denseEnc := by simp [hp, ha]
    denseDec := fun _ => ⟨hd.keys, hfwd⟩
    closed := ⟨h.closed.1, hd.closed⟩
    lengths := ⟨h.lengths.1, hd.lengths⟩
    curIdle := by simp [hp]
    curEnc := by simp [hp]
    curFirst := by simp [hf]
    curDec := fun _ _ => hu
    curFault := by simp [hp]
    faultNoResult := by simp [hp]
    doneIdle := fun ht => absurd ((h.doneIdle ht).1.symm.trans hp) (by decide)
    firstDec := fun _ => .inl hp
    obufOk := ⟨ho.wf, ho.words⟩
    validWords := ⟨ho.room, ho.written⟩ }

/-- The end of a decode call keeps the invariant (R132). -/
theorem inv_decFinish (h : s.Inv) (hp : s.phase = .dec) : (decFinish s).Inv :=
  have hf : s.phase ≠ .fault := by simp [hp]
  have hd : denseRev s := h.denseDec (.inl hp)
  { h with
    denseEnc := fun ha => h.denseEnc (.inr (ha.resolve_left (by simp)))
    denseDec := fun _ => hd
    curIdle := fun _ => rfl
    curEnc := by simp
    curFirst := by simp
    curDec := by simp
    curFault := by simp
    causeIffFault := by simp [fcause_eq_none h hf]
    faultNoResult := by simp
    infoZero := fun _ => h.infoZero hf
    doneIdle := fun _ => ⟨rfl, rfl, rfl⟩
    firstDec := by simp }

theorem encodeDecision_of_resolveCode {code : Nat} {e : SymSeq} {a : Arb} (he : resolveCode code s = .entry e a) :
    encodeDecision a = false := by
  rcases resolveCode_eq_entry he with ⟨-, -, rfl⟩ | ⟨-, -, rfl⟩ | ⟨-, -, -, rfl, -⟩ <;> rfl

/-- The first code of a call resolves to a stored entry (R131, step 3). -/
theorem stored_of_resolveCode_first {code : Nat} {e : SymSeq} {a : Arb} (he : resolveCode code s = .entry e a)
    (hf : s.firstFlag = true) : stored e s.rev := by
  rcases resolveCode_eq_entry he with ⟨-, hr, -⟩ | ⟨hf', -⟩ | ⟨hf', -⟩
  · exact ⟨(code, e), mem_of_tableRead hr, rfl⟩
  · simp [hf] at hf'
  · simp [hf] at hf'

/-- A resolved entry is stored once `CUR` and its first symbol are (R131): a known one was, the self-referential one is the
sequence inserted. -/
theorem stored_of_resolveCode_insert (hd : GrownDict s.rev s.nextCode) {code : Nat} {e : SymSeq} {a : Arb} {x : Symbol}
    (he : resolveCode code s = .entry e a) (hx : e.head? = some x) :
    stored e (tableWrite s.nextCode (s.cur ++ [x]) s.rev) := by
  have hknown (hr : revLookup code s.rev = some e) : stored e (tableWrite s.nextCode (s.cur ++ [x]) s.rev) :=
    hd.stored_insert _ ⟨(code, e), mem_of_tableRead hr, rfl⟩
  rcases resolveCode_eq_entry he with ⟨-, hr, -⟩ | ⟨-, hr, -⟩ | ⟨-, -, -, -, y, hy, rfl⟩
  · exact hknown hr
  · exact hknown hr
  · have hxy : y = x := by simpa [List.head?_append, hy] using hx
    exact hxy ▸ hd.stored_insert_self _

theorem decEntry_keeps_inv (h : s.Inv) (hp : s.phase = .dec) {code : Nat} {e : SymSeq} {a : Arb} {w : Word}
    (he : resolveCode code s = .entry e a) (ht : decEntry e a w s = .next t) : t.Inv := by
  have hd := grownRev_of_dec h hp
  have ho := outputOk_of_inv h
  have ha := encodeDecision_of_resolveCode he
  rcases decEntry_cases ht with ⟨-, rfl⟩ | ⟨hroom, hf, rfl⟩ | ⟨-, -, -, rfl⟩ | ⟨hroom, hf, hfree, -, x, hx, rfl⟩
  · exact inv_faultEntry h w (by decide) (by simp)
  · exact inv_decUpdate h hp hd h.nextRange.2 (stored_of_resolveCode_first he hf) (ho.writeAll e hroom) ha rfl
  · exact inv_faultEntry h w (by decide) (by simp)
  · exact inv_decUpdate h hp (hd.insert (h.curDec hp hf) x) hfree (stored_of_resolveCode_insert hd he hx)
      (ho.writeAll e hroom) ha hf

theorem decStep_keeps_inv (h : s.Inv) (hp : s.phase = .dec) {code : Arg} (ht : decStep code s = .next t) : t.Inv := by
  rcases decStep_cases ht with ⟨-, rfl⟩ | ⟨e, a, he, ht⟩
  · exact inv_faultEntry h _ (by decide) fun _ => hp
  · exact decEntry_keeps_inv h hp he ht

/-! Commands, host operations and steps -/

theorem exec_keeps_inv (h : s.Inv) {i : Instr} (ht : exec i s = .next t) : t.Inv := by
  rcases exec_cases ht with ⟨-, rfl⟩ | ⟨-, rfl⟩ | ⟨-, rfl, -⟩ | ⟨hp, -, rfl⟩ | ⟨hp, -, rfl⟩ | ⟨hp, sym, -, ht⟩ |
    ⟨hp, -, ht⟩ | ⟨hp, code, -, ht⟩ | ⟨hp, -, rfl⟩
  · exact inv_clearEngine h.caps (outputOk_of_inv h).none_valid
  · exact h
  · exact inv_faultEntry h _ (by decide) (by simp)
  · exact inv_beginCall h hp (.inl ⟨rfl, rfl⟩)
  · exact inv_beginCall h hp (.inr ⟨rfl, rfl⟩)
  · exact encStep_keeps_inv h hp ht
  · exact encFlush_keeps_inv h hp ht
  · exact decStep_keeps_inv h hp ht
  · exact inv_decFinish h hp

theorem illegalCommand_keeps_inv (h : s.Inv) {w : Word} (ht : illegalCommand w s = .next t) : t.Inv := by
  unfold illegalCommand at ht
  split at ht
  · cases ht; exact h
  · cases ht; exact inv_faultEntry h w (by decide) (by simp)

theorem hostOp_keeps_inv (h : s.Inv) {op : HostOp} (ht : hostOp op s = .next t) : t.Inv := by
  rcases hostOp_eq_next ht with ⟨_, _, -, -, ht⟩ | ⟨_, -, -, ht⟩ | ⟨_, _, rfl⟩ | ⟨-, rfl⟩
  · exact exec_keeps_inv h ht
  · exact illegalCommand_keeps_inv h ht
  · exact { h with }
  · exact inv_hostReset h

/-- Settles O45: the oldest pending operation keeps the invariant, by cases on what it can do. -/
theorem stepKeepsInvariant : Obligations.StepKeepsInvariant := by
  intro s t h ht
  unfold step performNext at ht
  split at ht
  · cases ht; exact h
  · next op rest _ => exact hostOp_keeps_inv (s := { s with hostIn := rest }) { h with } ht

end Sys2Proof.Machine
end

section
/-!
Consequences of the invariant for the codes (R38 item 2, R98): which codes are assigned, and that every command answers a next
state, so that no insert is refused.
-/
namespace Sys2Proof.Machine

variable {s : State}

/-- The two maps together hold exactly the codes 0 to NEXT - 1 (R38 item 2). -/
theorem lt_nextCode_iff_assigned (h : s.Inv) (c : Nat) :
    c < s.nextCode ↔ ((tableRead c s.fwd).isSome ∨ (revLookup c s.rev).isSome) := by
  have hseeded := h.nextRange.1
  rcases h.dense with hd | hd
  · rw [(grownFwd_of_dense h hd).read_isSome_iff, revLookup, hd.2, GrownDict.seed.read_isSome_iff]
    omega
  · rw [revLookup, (grownRev_of_dense h hd).read_isSome_iff, hd.2, GrownDict.seed.read_isSome_iff]
    omega

/-- A bracketed command answers when its effect does in its own phase (R183). -/
theorem inPhase_answers {p : Phase} {i : Instr} {r : Result} (hr : s.phase = p → ∃ t, r = .next t) :
    ∃ t, inPhase p i s r = .next t := by
  by_cases hf : s.phase = .fault
  · exact ⟨s, inPhase_fault hf⟩
  by_cases hp : s.phase = p
  · rw [inPhase_own (hp ▸ hf) hp]; exact hr hp
  · exact ⟨_, inPhase_other hf hp⟩

theorem olen_lt_obufCap (h : s.Inv) (ho : s.olen ≠ s.obufCap) : s.olen < s.obufCap :=
  lt_of_le_of_ne h.validWords.1 ho

theorem nextCode_lt_dictCap (h : s.Inv) (hn : s.nextCode ≠ s.dictCap) : s.nextCode < s.dictCap :=
  lt_of_le_of_ne h.nextRange.2 hn

/-- Emitting the code of a pending match answers when there is room (R113). -/
theorem emitCodeOfCur_answers (h : s.Inv) (hp : s.phase = .enc) (hc : s.cur ≠ []) (ho : s.olen ≠ s.obufCap) :
    ∃ c, emitCodeOfCur s =
      .next { s with obuf := tableWrite s.olen (zextNat c) s.obuf, olen := s.olen + 1 } := by
  obtain ⟨c, hcur⟩ := Option.isSome_iff_exists.mp (fwdLookup_isSome_iff.mpr (curStored_of_enc h hp hc))
  exact ⟨c, emitCodeOfCur_eq_next.mpr ⟨c, hcur, olen_lt_obufCap h ho, rfl⟩⟩

/-- On a miss with room the emission and the insert both answer (R111): `CUR` is not empty, since every one-symbol sequence is
stored, and NEXT is not assigned. -/
theorem encEmit_answers (h : s.Inv) (hp : s.phase = .enc) {a : Symbol} (hmiss : fwdLookup (s.cur ++ [a]) s.fwd = none)
    (ho : s.olen ≠ s.obufCap) (hn : s.nextCode ≠ s.dictCap) : ∃ t, encEmit a s = .next t := by
  have hd := grownFwd_of_enc h hp
  have hc : s.cur ≠ [] := fun hnil => by
    obtain ⟨e, he, hea⟩ := hd.stored_single a
    exact fwdLookup_eq_none_iff.mp hmiss e he (by rw [hea, hnil, List.nil_append])
  obtain ⟨c, hemit⟩ := emitCodeOfCur_answers h hp hc ho
  have hfree := nextCode_lt_dictCap h hn
  exact ⟨_, andThen_eq_next.mpr ⟨_, hemit, andThen_eq_next.mpr
    ⟨_, fwdInsert_eq_next.mpr ⟨hfree, hmiss, hd.read_next, rfl⟩, rfl⟩⟩⟩

theorem encStep_answers (h : s.Inv) (hp : s.phase = .enc) (sym : Arg) : ∃ t, encStep sym s = .next t := by
  unfold encStep
  split
  · exact ⟨_, rfl⟩
  · unfold encSymbol
    split
    · exact ⟨_, rfl⟩
    next hmiss =>
    split
    · exact ⟨_, rfl⟩
    next ho =>
    split
    · exact ⟨_, rfl⟩
    next hn => exact encEmit_answers h hp (by simpa using hmiss) ho hn

theorem encFlush_answers (h : s.Inv) (hp : s.phase = .enc) : ∃ t, encFlush s = .next t := by
  unfold encFlush
  split
  · exact ⟨_, rfl⟩
  next hc =>
  split
  · exact ⟨_, rfl⟩
  next ho =>
    obtain ⟨c, hemit⟩ := emitCodeOfCur_answers h hp hc ho
    exact ⟨_, andThen_eq_next.mpr ⟨_, hemit, rfl⟩⟩

/-- The self-referential entry is defined, since `CUR` is stored after the first code (R131 f). -/
theorem resolveCode_ne_undefined (h : s.Inv) (hp : s.phase = .dec) (code : Nat) : resolveCode code s ≠ .undefined := by
  unfold resolveCode
  split
  · simp
  split
  · simp
  next hf =>
  split
  · have hcur := (grownRev_of_dec h hp).ne_nil_of_stored (h.curDec hp (by simpa using hf))
    obtain ⟨a, u, hau⟩ := List.exists_cons_of_ne_nil hcur
    simp [hau, selfrefEntry]
  · simp

theorem ne_nil_of_resolveCode (h : s.Inv) (hp : s.phase = .dec) {code : Nat} {e : SymSeq} {a : Arb}
    (he : resolveCode code s = .entry e a) : e ≠ [] := by
  have hknown (hr : revLookup code s.rev = some e) : e ≠ [] :=
    (grownRev_of_dec h hp).ne_nil_of_mem (mem_of_tableRead hr)
  rcases resolveCode_eq_entry he with ⟨-, hr, -⟩ | ⟨-, hr, -⟩ | ⟨-, -, -, -, x, -, rfl⟩
  · exact hknown hr
  · exact hknown hr
  · simp

/-- A subsequent code with room answers (R131, step 4): its entry is not empty and NEXT is not assigned. -/
theorem decSubsequent_answers (h : s.Inv) (hp : s.phase = .dec) {e : SymSeq} (he : e ≠ []) (a : Arb)
    (hroom : s.olen + e.length ≤ s.obufCap) (hn : s.nextCode ≠ s.dictCap) : ∃ t, decSubsequent e a s = .next t := by
  obtain ⟨x, u, rfl⟩ := List.exists_cons_of_ne_nil he
  have hfree := nextCode_lt_dictCap h hn
  exact ⟨_, andThen_eq_next.mpr ⟨_, emitAll_of_room _ s hroom, andThen_eq_next.mpr
    ⟨_, revInsert_eq_next.mpr ⟨hfree, (grownRev_of_dec h hp).read_next, rfl⟩, rfl⟩⟩⟩

theorem decStep_answers (h : s.Inv) (hp : s.phase = .dec) (code : Arg) : ∃ t, decStep code s = .next t := by
  unfold decStep
  split
  · next e a he =>
    unfold decEntry
    split
    · exact ⟨_, rfl⟩
    next hfull =>
    have hroom : s.olen + e.length ≤ s.obufCap := Nat.not_lt.mp hfull
    split
    · exact ⟨_, andThen_eq_next.mpr ⟨_, emitAll_of_room e s hroom, rfl⟩⟩
    split
    · exact ⟨_, rfl⟩
    next hn => exact decSubsequent_answers h hp (ne_nil_of_resolveCode h hp he) a hroom hn
  · exact ⟨_, rfl⟩
  · next hu => exact absurd hu (resolveCode_ne_undefined h hp _)

/-- Under the invariant no command stops the model (R98, R170). -/
theorem exec_answers (h : s.Inv) (i : Instr) : ∃ t, exec i s = .next t := by
  cases i with
  | drst => exact ⟨_, rfl⟩
  | encb => exact inPhase_answers fun _ => ⟨_, rfl⟩
  | encs sym => exact inPhase_answers fun hp => encStep_answers h hp sym
  | ence => exact inPhase_answers fun hp => encFlush_answers h hp
  | decb => exact inPhase_answers fun _ => ⟨_, rfl⟩
  | decc code => exact inPhase_answers fun hp => decStep_answers h hp code
  | dece => exact inPhase_answers fun _ => ⟨_, rfl⟩

/-- Settles O18: the codes by density of the grown map, the inserts because every command answers. -/
theorem nextCodeIsUnassigned : Obligations.NextCodeIsUnassigned := by
  intro s h
  refine ⟨lt_nextCode_iff_assigned h, fun i hi => ?_⟩
  obtain ⟨t, ht⟩ := exec_answers h i
  cases ht.symm.trans hi

end Sys2Proof.Machine
end

section
/-!
What no command writes (R39, R210), and the layout of the registers (R33).
-/
namespace Sys2Proof.Machine

variable {s t : State}

theorem sameHost_of_encStep {sym : Arg} (ht : encStep sym s = .next t) : sameHost s t := by
  rcases encStep_cases ht with ⟨-, rfl⟩ | ⟨-, ht⟩
  · exact ⟨rfl, rfl, rfl, rfl, rfl⟩
  · rcases encSymbol_cases ht with ⟨-, rfl⟩ | ⟨-, -, rfl⟩ | ⟨-, -, -, rfl⟩ | ⟨-, -, -, -, _, -, rfl⟩ <;>
      exact ⟨rfl, rfl, rfl, rfl, rfl⟩

theorem sameHost_of_encFlush (ht : encFlush s = .next t) : sameHost s t := by
  rcases encFlush_cases ht with ⟨-, rfl⟩ | ⟨-, -, rfl⟩ | ⟨-, -, _, -, rfl⟩ <;> exact ⟨rfl, rfl, rfl, rfl, rfl⟩

theorem sameHost_of_decStep {code : Arg} (ht : decStep code s = .next t) : sameHost s t := by
  rcases decStep_cases ht with ⟨-, rfl⟩ | ⟨_, _, -, ht⟩
  · exact ⟨rfl, rfl, rfl, rfl, rfl⟩
  · rcases decEntry_cases ht with ⟨-, rfl⟩ | ⟨-, -, rfl⟩ | ⟨-, -, -, rfl⟩ | ⟨-, -, -, -, _, -, rfl⟩ <;>
      exact ⟨rfl, rfl, rfl, rfl, rfl⟩

/-- Settles O40: none of the cases of a command writes a parameter or the host's side. -/
theorem commandsKeepParameters : Obligations.CommandsKeepParameters := by
  intro s t i ht
  rcases exec_cases ht with ⟨-, rfl⟩ | ⟨-, rfl⟩ | ⟨-, rfl, -⟩ | ⟨-, -, rfl⟩ | ⟨-, -, rfl⟩ | ⟨-, _, -, ht⟩ |
    ⟨-, -, ht⟩ | ⟨-, _, -, ht⟩ | ⟨-, -, rfl⟩
  · exact ⟨rfl, rfl, rfl, rfl, rfl⟩
  · exact ⟨rfl, rfl, rfl, rfl, rfl⟩
  · exact ⟨rfl, rfl, rfl, rfl, rfl⟩
  · exact ⟨rfl, rfl, rfl, rfl, rfl⟩
  · exact ⟨rfl, rfl, rfl, rfl, rfl⟩
  · exact sameHost_of_encStep ht
  · exact sameHost_of_encFlush ht
  · exact sameHost_of_decStep ht
  · exact ⟨rfl, rfl, rfl, rfl, rfl⟩

/-! The fields of STATUS -/

theorem statusWord_phase (s : State) : (statusWord s).extractLsb' 0 2 = phaseBits s.phase :=
  BitVec.extractLsb'_append_eq_right

theorem statusWord_done (s : State) : (statusWord s).getLsbD 2 = s.doneFlag := by
  simp only [statusWord, BitVec.getLsbD_append]
  simp

theorem statusWord_first (s : State) : (statusWord s).getLsbD 3 = s.firstFlag := by
  simp only [statusWord, BitVec.getLsbD_append]
  simp

theorem statusWord_reserved_low (s : State) : (statusWord s).extractLsb' 4 4 = 0 := by
  simp only [statusWord, BitVec.extractLsb'_append_eq_of_le, Nat.reduceLeDiff, Nat.reduceSub,
    BitVec.extractLsb'_append_eq_right]
  rfl

theorem statusWord_arb (s : State) : (statusWord s).extractLsb' 8 3 = arbBits s.arb := by
  simp only [statusWord, BitVec.extractLsb'_append_eq_of_le, Nat.reduceLeDiff, Nat.reduceSub,
    BitVec.extractLsb'_append_eq_right]

theorem statusWord_reserved_high (s : State) : (statusWord s).extractLsb' 11 21 = 0 := by
  simp only [statusWord, BitVec.extractLsb'_append_eq_of_le, Nat.reduceLeDiff, Nat.reduceSub]
  rfl

/-- Settles O8: the fields of STATUS, then the codes of PHASE, ARB and FCAUSE value by value. -/
theorem registerLayout : Obligations.RegisterLayout := by
  intro s
  refine ⟨statusWord s, rfl, ?_, statusWord_done s, statusWord_first s, statusWord_reserved_low s, ?_,
    statusWord_reserved_high s, rfl, rfl, rfl, ?_, rfl, fun n hn => ?_⟩
  · rw [statusWord_phase]; cases s.phase <;> rfl
  · rw [statusWord_arb]; cases s.arb <;> rfl
  · rw [regRead]; cases s.fcause <;> rfl
  · obtain ⟨k, rfl⟩ := Nat.exists_eq_add_of_le' hn; rfl

end Sys2Proof.Machine
end

section
/-!
The parent-and-symbol form of a grown dictionary (R37): its entries are the long entries of the dictionary, split into parent and
last symbol, so its sequences and its child search are the dictionary's.
-/
namespace Sys2Proof.Machine

theorem mem_of_arenaChild {a : Arena} {p c : Nat} {x : Symbol} (h : arenaChild p x a = some c) : (c, (p, x)) ∈ a := by
  induction a with
  | nil => cases h
  | cons e a ih =>
    obtain ⟨c', p', x'⟩ := e
    simp only [arenaChild] at h
    split at h
    · next hpx => obtain ⟨rfl, rfl⟩ := hpx; cases h; exact List.mem_cons_self
    · exact List.mem_cons_of_mem _ (ih h)

theorem arenaChild_ne_none_of_mem {a : Arena} {p c : Nat} {x : Symbol} (h : (c, (p, x)) ∈ a) :
    arenaChild p x a ≠ none := by
  induction a with
  | nil => cases h
  | cons e a ih =>
    obtain ⟨c', p', x'⟩ := e
    simp only [arenaChild]
    split
    · simp
    · next hpx =>
      rcases List.mem_cons.mp h with h | h
      · cases h; exact absurd ⟨rfl, rfl⟩ hpx
      · exact ih h

theorem arenaSeq_seed (fuel : Nat) (a : Arena) {c : Nat} (hc : c < 256) :
    arenaSeq fuel a c = some [BitVec.ofNat 8 c] := by
  unfold arenaSeq; exact if_pos hc

/-- One parent step of `seq(c)` (R37). -/
theorem arenaSeq_succ (fuel : Nat) {a : Arena} {c p : Nat} {x : Symbol} (hc : 256 ≤ c)
    (hr : tableRead c a = some (p, x)) (hp : p < c) :
    arenaSeq (fuel + 1) a c = (arenaSeq fuel a p).map (fun t => t ++ [x]) := by
  have hns : ¬ c < Config.seedCount := Nat.not_lt.mpr hc
  simp [arenaSeq, hns, hr, hp]

theorem arenaSeq_unlisted (fuel : Nat) {a : Arena} {c : Nat} (hc : 256 ≤ c) (hr : tableRead c a = none) :
    arenaSeq fuel a c = none := by
  have hns : ¬ c < Config.seedCount := Nat.not_lt.mpr hc
  cases fuel <;> simp [arenaSeq, hns, hr]

/-- The arena entry of one dictionary entry (R37): nothing for a seed. -/
def arenaEntry (d : Dict) (e : Nat × SymSeq) : Option (Nat × (Nat × Symbol)) :=
  if e.1 < Config.seedCount then none
  else
    match fwdLookup e.2.dropLast d, e.2.getLast? with
    | some p, some x => some (e.1, (p, x))
    | _, _ => none

theorem arenaOf_eq (d : Dict) : arenaOf d = d.filterMap (arenaEntry d) := rfl

theorem arenaEntry_eq_some {d : Dict} {e : Nat × SymSeq} {c p : Nat} {x : Symbol} :
    arenaEntry d e = some (c, (p, x)) ↔ 256 ≤ c ∧ ∃ u, e = (c, u ++ [x]) ∧ fwdLookup u d = some p := by
  obtain ⟨k, t⟩ := e
  constructor
  · intro he
    unfold arenaEntry at he
    split at he
    · cases he
    next hk =>
    split at he
    · next q y hq hy =>
      obtain ⟨u, rfl⟩ : ∃ u, t = u ++ [y] := List.getLast?_eq_some_iff.mp hy
      cases he
      exact ⟨Nat.not_lt.mp hk, u, rfl, by simpa using hq⟩
    · cases he
  · rintro ⟨hc, u, he, hu⟩
    cases he
    have hns : ¬ c < Config.seedCount := Nat.not_lt.mpr hc
    simp [arenaEntry, hns, hu]

/-- The arena lists the long entries of the dictionary, each as the code of its one-shorter sequence and its last symbol. -/
theorem mem_arenaOf {d : Dict} {c p : Nat} {x : Symbol} :
    (c, (p, x)) ∈ arenaOf d ↔ 256 ≤ c ∧ ∃ u, (c, u ++ [x]) ∈ d ∧ fwdLookup u d = some p := by
  simp only [arenaOf_eq, List.mem_filterMap, arenaEntry_eq_some]
  constructor
  · rintro ⟨_, he, hc, u, rfl, hu⟩
    exact ⟨hc, u, he, hu⟩
  · rintro ⟨hc, u, he, hu⟩
    exact ⟨_, he, hc, u, rfl, hu⟩

theorem arenaOf_wf {d : Dict} (h : tableWf d) : tableWf (arenaOf d) := by
  refine List.pairwise_filterMap.mpr (h.imp fun {e f} hef b hb b' hb' => ?_)
  obtain ⟨-, _, rfl, -⟩ := arenaEntry_eq_some.mp hb
  obtain ⟨-, _, rfl, -⟩ := arenaEntry_eq_some.mp hb'
  exact hef

section

variable {d : Dict} {n : Nat} (h : GrownDict d n) (hone : (d.map Prod.snd).Nodup)
include h hone

/-- A long entry is its parent's sequence and one symbol, the parent under a smaller code (R38 item 3). -/
theorem exists_arenaParent {c : Nat} {t : SymSeq} (hc : 256 ≤ c) (ht : (c, t) ∈ d) :
    ∃ p u x, p < c ∧ t = u ++ [x] ∧ (p, u) ∈ d ∧ tableRead c (arenaOf d) = some (p, x) := by
  obtain ⟨hlen, -⟩ := (h.lengths _ ht).2 hc
  obtain ⟨⟨p, u⟩, hu, hp, hprefix⟩ := h.closed _ ht hlen
  obtain ⟨u', x, rfl⟩ := (List.eq_nil_or_concat' t).resolve_left (h.ne_nil_of_mem ht)
  obtain rfl : u = u' := hprefix.trans List.dropLast_concat
  exact ⟨p, u, x, hp, rfl, hu,
    tableRead_of_mem (arenaOf_wf h.wf) (mem_arenaOf.mpr ⟨hc, u, ht, fwdLookup_of_mem hone hu⟩)⟩

/-- The sequence of a code in the arena is the dictionary's, by induction on the parent steps. -/
theorem arenaSeq_arenaOf (fuel c : Nat) (hfuel : c ≤ fuel) : arenaSeq fuel (arenaOf d) c = tableRead c d := by
  induction fuel generalizing c with
  | zero => rw [arenaSeq_seed 0 _ (by omega), h.read_seed (by omega)]
  | succ fuel ih =>
    rcases Nat.lt_or_ge c 256 with hc | hc
    · rw [arenaSeq_seed _ _ hc, h.read_seed hc]
    cases hr : tableRead c d with
    | none =>
      refine arenaSeq_unlisted _ hc (tableRead_eq_none_iff.mpr fun hm => ?_)
      obtain ⟨⟨_, p, x⟩, he, rfl⟩ := List.mem_map.mp hm
      obtain ⟨-, u, hu, -⟩ := mem_arenaOf.mp he
      cases hr.symm.trans (tableRead_of_mem h.wf hu)
    | some t =>
      obtain ⟨p, u, x, hp, rfl, hu, hread⟩ := exists_arenaParent h hone hc (mem_of_tableRead hr)
      rw [arenaSeq_succ fuel hc hread hp, ih p (by omega), tableRead_of_mem h.wf hu]
      rfl

/-- A child of the code of `t` by the symbol `x` is listed exactly for the code of `t ++ <x>`. -/
theorem mem_arenaOf_of_parent {p c : Nat} {t : SymSeq} {x : Symbol} (hp : (p, t) ∈ d) :
    (c, (p, x)) ∈ arenaOf d ↔ (c, t ++ [x]) ∈ d := by
  rw [mem_arenaOf]
  constructor
  · rintro ⟨-, u, hu, hlook⟩
    have hut : some u = some t :=
      (tableRead_of_mem h.wf (mem_of_fwdLookup hlook)).symm.trans (tableRead_of_mem h.wf hp)
    cases hut
    exact hu
  · intro hc
    refine ⟨?_, t, hc, fwdLookup_of_mem hone hp⟩
    by_contra hlt
    have hlen := (h.lengths _ hc).1 (Nat.not_le.mp hlt)
    have hpos := List.length_pos_of_ne_nil (h.ne_nil_of_mem hp)
    simp only [List.length_append, List.length_singleton] at hlen hpos
    omega

/-- The child search is the forward lookup of the longer sequence (R37). -/
theorem arenaChild_arenaOf {p : Nat} {t : SymSeq} (hp : (p, t) ∈ d) (x : Symbol) :
    arenaChild p x (arenaOf d) = fwdLookup (t ++ [x]) d := by
  cases hchild : arenaChild p x (arenaOf d) with
  | some c => exact (fwdLookup_of_mem hone ((mem_arenaOf_of_parent h hone hp).mp (mem_of_arenaChild hchild))).symm
  | none =>
    cases hlook : fwdLookup (t ++ [x]) d with
    | none => rfl
    | some c =>
      have hmem := (mem_arenaOf_of_parent h hone hp).mpr (mem_of_fwdLookup hlook)
      exact absurd hchild (arenaChild_ne_none_of_mem hmem)

end

/-- `FWD` is grown, with `n = NEXT` on the encode side and `n = 256` on the decode side. -/
theorem exists_grownFwd {s : State} (h : s.Inv) : ∃ n, GrownDict s.fwd n := by
  rcases h.dense with hd | ⟨-, hfwd⟩
  · exact ⟨_, grownFwd_of_dense h hd⟩
  · exact ⟨256, hfwd ▸ GrownDict.seed⟩

/-- Settles O58, by the two facts about the arena of a grown dictionary. -/
theorem arenaFormAgreesWithMaps : Obligations.ArenaFormAgreesWithMaps := by
  intro s h
  obtain ⟨n, hd⟩ := exists_grownFwd h
  have hseq (c : Nat) : arenaSeq c (arenaOf s.fwd) c = tableRead c s.fwd := arenaSeq_arenaOf hd h.fwdOnce c c le_rfl
  refine ⟨hseq, fun p t a ht => ?_⟩
  exact arenaChild_arenaOf hd h.fwdOnce (mem_of_tableRead ((hseq p).symm.trans ht)) a

end Sys2Proof.Machine
end

section
/-!
The output buffer and the host port: what `Emit` and a read of `OBUF` answer (R57, R58), and what a step does with the oldest
pending operation (R56, R59).
-/
namespace Sys2Proof.Machine

variable {s : State}

/-! Emitting and the valid words -/

theorem emit_of_room (v : Word) (h : s.olen < s.obufCap) :
    emit v s = .next { s with obuf := tableWrite s.olen v s.obuf, olen := s.olen + 1 } :=
  emit_eq_next.mpr ⟨h, rfl⟩

theorem obufRead_eq_some {i : Nat} {w : Word} :
    obufRead i s = some w ↔ i < s.olen ∧ tableRead i s.obuf = some w := by
  simp [obufRead]

/-- The valid words are the words below `OLEN`, all of which have been written (R25). -/
theorem obufRead_isSome_iff (h : s.Inv) (i : Nat) : (obufRead i s).isSome ↔ i < s.olen := by
  obtain ⟨-, hwritten⟩ := h.validWords
  constructor
  · intro hs
    obtain ⟨w, hw⟩ := Option.isSome_iff_exists.mp hs
    exact (obufRead_eq_some.mp hw).1
  · intro hi
    rw [obufRead, if_pos hi]
    exact hwritten i hi

/-- Settles O17: `Emit` by reading after its one write, its failure by progress of every command, the upper bits by the
invariant's clause about `OBUF`. -/
theorem emitAppendsOneWord : Obligations.EmitAppendsOneWord := by
  refine ⟨fun s v hroom => ?_, fun s i h hi => ?_, fun s i w h hw => ?_⟩
  · exact ⟨_, emit_of_room v hroom, tableRead_write_same _ v _, fun i hi => tableRead_write_ne hi v _⟩
  · obtain ⟨t, ht⟩ := exec_answers h i
    cases ht.symm.trans hi
  · obtain ⟨-, hread⟩ := obufRead_eq_some.mp hw
    exact ((outputOk_of_inv h).words _ (mem_of_tableRead hread)).2

/-! Steps -/

theorem step_of_pending {op : HostOp} {rest : List HostOp} (h : s.hostIn = op :: rest) :
    step s = hostOp op { s with hostIn := rest } := by
  simp only [step, performNext, h]

theorem step_of_none_pending (h : s.hostIn = []) : step s = .next s := by
  simp only [step, performNext, h]

theorem hostOp_cmd_of_command {w : Word} {i : Instr} (h : decode w = .command i) (s : State) :
    hostOp (.cmd w) s = exec i s := by
  simp only [hostOp, hostCmd, h]

theorem hostOp_cmd_of_illegal {w : Word} (h : decode w = .illegal) (s : State) :
    hostOp (.cmd w) s = illegalCommand w s := by
  simp only [hostOp, hostCmd, h]

theorem decodeTableWord_eq_some {nbits w : Nat} {i : Instr} :
    decodeTableWord nbits w = some i ↔ decode (tableWord nbits w) = .command i := by
  unfold decodeTableWord
  split
  · next j hj => simp [hj]
  · next hj => simp [hj]

/-- Settles O1: a step performs the oldest pending operation, and a command word is performed as it decodes. -/
theorem stepRunsDecodedCommand : Obligations.StepRunsDecodedCommand := by
  refine ⟨fun s w i rest hin hd => ?_, fun s w rest hin hd => ?_, fun s nbits w i hd => ?_, fun s => step_of_none_pending⟩
  · exact (step_of_pending hin).trans (hostOp_cmd_of_command hd _)
  · exact (step_of_pending hin).trans (hostOp_cmd_of_illegal hd _)
  · have hin : (s.withFetchWord nbits w).hostIn = .cmd (tableWord nbits w) :: s.hostIn := rfl
    exact (step_of_pending hin).trans (hostOp_cmd_of_command (decodeTableWord_eq_some.mp hd) s)

/-! Host reads -/

/-- The defined registers are 0 to 5 (R33). -/
theorem regRead_isSome_iff (n : Nat) (s : State) : (regRead n s).isSome ↔ n < 6 := by
  rcases Nat.lt_or_ge n 6 with hn | hn
  · interval_cases n <;> exact iff_of_true rfl hn
  · obtain ⟨k, rfl⟩ := Nat.exists_eq_add_of_le' hn
    exact iff_of_false Bool.false_ne_true (Nat.not_lt.mpr hn)

/-- A step that returns `v` to the host, `v` being there exactly when `p` holds: the word or a free value is appended, and a
free value is one more draw. -/
theorem step_hostReturn {v : Option Word} {p : Prop} [Decidable p] {rest : List HostOp} (hv : v.isSome ↔ p)
    (h : step s = .next (hostReturn v { s with hostIn := rest })) :
    ∃ w, step s = .next { s with
        hostIn := rest, hostOut := s.hostOut ++ [w], draws := if p then s.draws else s.draws + 1 } ∧
      (p → v = some w) ∧ (¬ p → w = Config.freeWord s.draws) := by
  cases v with
  | some w =>
    have hp : p := hv.mp rfl
    exact ⟨w, by rw [h, if_pos hp]; rfl, fun _ => rfl, fun hn => absurd hp hn⟩
  | none =>
    have hp : ¬ p := fun hp => Bool.noConfusion (hv.mpr hp)
    exact ⟨Config.freeWord s.draws, by rw [h, if_neg hp]; rfl, fun h' => absurd h' hp, fun _ => rfl⟩

/-- Settles O6: registers 0 to 5 are defined, and taking the read from the queue changes none of them. -/
theorem registerReadReturnsRegister : Obligations.RegisterReadReturnsRegister := by
  intro s n rest hin
  obtain ⟨w, hstep, hdef, hfree⟩ := step_hostReturn (regRead_isSome_iff n s) (step_of_pending hin)
  exact ⟨w, hstep, hdef, fun hn => hfree (Nat.not_lt.mpr hn)⟩

/-- Settles O7: under the invariant the words below `OLEN` are there to be read. -/
theorem obufReadReturnsValidWord : Obligations.ObufReadReturnsValidWord := by
  intro s i rest h hin
  obtain ⟨w, hstep, hvalid, hfree⟩ := step_hostReturn (obufRead_isSome_iff h i) (step_of_pending hin)
  exact ⟨w, hstep, fun hi => (obufRead_eq_some.mp (hvalid hi)).2, fun hi => hfree (Nat.not_lt.mpr hi)⟩

end Sys2Proof.Machine
end

section
/-!
The frame of each command (R51): what it leaves as it was, from the few forms its next state can have.
-/
namespace Sys2Proof.Machine

variable {s t : State}

/-! The forms of the next state, with the causes of a fault left open -/

theorem exec_encs_forms {sym : Arg} (h : exec (.encs sym) s = .next t) :
    (s.phase = .fault ∧ t = s) ∨ (∃ c w, t = faultEntry c w s) ∨ (∃ a, t = encExtend a s) ∨
    (∃ a v, t = { s with
      fwd := tableWrite s.nextCode (s.cur ++ [a]) s.fwd, nextCode := s.nextCode + 1, cur := [a],
      obuf := tableWrite s.olen v s.obuf, olen := s.olen + 1, arb := .encEmit }) := by
  rcases inPhase_cases h with hdiscard | ⟨-, -, h⟩ | ⟨-, -, rfl⟩
  · exact .inl hdiscard
  · rcases encStep_cases h with ⟨-, rfl⟩ | ⟨-, h⟩
    · exact .inr (.inl ⟨_, _, rfl⟩)
    rcases encSymbol_cases h with ⟨-, rfl⟩ | ⟨-, -, rfl⟩ | ⟨-, -, -, rfl⟩ | ⟨-, -, -, -, _, -, rfl⟩
    · exact .inr (.inr (.inl ⟨_, rfl⟩))
    · exact .inr (.inl ⟨_, _, rfl⟩)
    · exact .inr (.inl ⟨_, _, rfl⟩)
    · exact .inr (.inr (.inr ⟨_, _, rfl⟩))
  · exact .inr (.inl ⟨_, _, rfl⟩)

theorem exec_ence_forms (h : exec .ence s = .next t) :
    (s.phase = .fault ∧ t = s) ∨ (∃ c w, t = faultEntry c w s) ∨ t = encFinish .none s ∨
    (s.cur ≠ [] ∧ ∃ v, t =
      encFinish .encFlush { s with obuf := tableWrite s.olen v s.obuf, olen := s.olen + 1 }) := by
  rcases inPhase_cases h with hdiscard | ⟨-, -, h⟩ | ⟨-, -, rfl⟩
  · exact .inl hdiscard
  · rcases encFlush_cases h with ⟨-, rfl⟩ | ⟨-, -, rfl⟩ | ⟨hcur, -, _, -, rfl⟩
    · exact .inr (.inr (.inl rfl))
    · exact .inr (.inl ⟨_, _, rfl⟩)
    · exact .inr (.inr (.inr ⟨hcur, _, rfl⟩))
  · exact .inr (.inl ⟨_, _, rfl⟩)

theorem exec_decc_forms {code : Arg} (h : exec (.decc code) s = .next t) :
    (s.phase = .fault ∧ t = s) ∨ (∃ c w, t = faultEntry c w s) ∨
    (s.phase = .dec ∧ ∃ e a, t = { s with
      cur := e, obuf := wordsWritten e s.olen s.obuf, olen := s.olen + e.length, firstFlag := false, arb := a }) ∨
    (s.phase = .dec ∧ s.firstFlag = false ∧ ∃ e a x, t = { s with
      rev := tableWrite s.nextCode (s.cur ++ [x]) s.rev, nextCode := s.nextCode + 1, cur := e,
      obuf := wordsWritten e s.olen s.obuf, olen := s.olen + e.length, arb := a }) := by
  rcases inPhase_cases h with hdiscard | ⟨-, hp, h⟩ | ⟨-, -, rfl⟩
  · exact .inl hdiscard
  · rcases decStep_cases h with ⟨-, rfl⟩ | ⟨e, a, -, h⟩
    · exact .inr (.inl ⟨_, _, rfl⟩)
    rcases decEntry_cases h with ⟨-, rfl⟩ | ⟨-, -, rfl⟩ | ⟨-, -, -, rfl⟩ | ⟨-, hfirst, -, -, x, -, rfl⟩
    · exact .inr (.inl ⟨_, _, rfl⟩)
    · exact .inr (.inr (.inl ⟨hp, e, a, rfl⟩))
    · exact .inr (.inl ⟨_, _, rfl⟩)
    · exact .inr (.inr (.inr ⟨hp, hfirst, e, a, x, rfl⟩))
  · exact .inr (.inl ⟨_, _, rfl⟩)

/-! The frames -/

/-- Settles O41: only the emit of `ENCS` and the flush of `ENCE` write a word, and it is word `OLEN`. -/
theorem encodeStepFrame : Obligations.EncodeStepFrame := by
  have hword (v : Word) (s : State) (i : Nat) (hi : i ≠ s.olen) :
      tableRead i (tableWrite s.olen v s.obuf) = tableRead i s.obuf := tableRead_write_ne hi v _
  refine ⟨fun s t sym h => ?_, fun s t h => ?_⟩
  · rcases exec_encs_forms h with ⟨-, rfl⟩ | ⟨c, w, rfl⟩ | ⟨a, rfl⟩ | ⟨a, v, rfl⟩
    · simp
    · simp
    · simp
    · simpa using hword v s
  · rcases exec_ence_forms h with ⟨-, rfl⟩ | ⟨c, w, rfl⟩ | rfl | ⟨hcur, v, rfl⟩
    · simp
    · simp
    · simp
    · simpa [hcur] using hword v s

/-- Settles O42: `DECC` writes the words of its entry and the code NEXT, the latter only with `FIRST` clear. -/
theorem decodeStepFrame : Obligations.DecodeStepFrame := by
  refine ⟨fun s t code h => ?_, fun s t h => ?_⟩
  · have hwords (e : SymSeq) (i : Nat) (hi : i < s.olen ∨ s.olen + e.length ≤ i) :
        tableRead i (wordsWritten e s.olen s.obuf) = tableRead i s.obuf := tableRead_wordsWritten_out e _ _ hi
    rcases exec_decc_forms h with ⟨hp, rfl⟩ | ⟨c, w, rfl⟩ | ⟨hp, e, a, rfl⟩ | ⟨hp, hfirst, e, a, x, rfl⟩
    · simp [hp]
    · simp
    · simpa [hp] using hwords e
    · have hcodes (c : Nat) (hc : c ≠ s.nextCode) :
          revLookup c (tableWrite s.nextCode (s.cur ++ [x]) s.rev) = revLookup c s.rev := tableRead_write_ne hc _ _
      simpa [hp, hfirst] using ⟨hwords e, hcodes⟩
  · rcases inPhase_cases h with ⟨-, rfl⟩ | ⟨-, -, h⟩ | ⟨-, -, rfl⟩
    · simp
    · cases h; simp
    · simp

/-- A begin writes the fault record only by faulting, and its only fault is PROTOCOL (R110, R130, R174). -/
theorem begin_frame {i : Instr} {p : Phase} {first : Bool} (hp : p ≠ .fault)
    (h : inPhase .idle i s (.next (beginCall p first s)) = .next t) :
    t.obuf = s.obuf ∧ (t.phase ≠ .fault → t.fcause = s.fcause ∧ t.finfo = s.finfo) ∧
    (t.phase = .fault → t.fwd = s.fwd ∧ t.rev = s.rev ∧ t.nextCode = s.nextCode ∧ t.cur = s.cur ∧
      t.firstFlag = s.firstFlag ∧ t.arb = s.arb) := by
  rcases inPhase_cases h with ⟨-, rfl⟩ | ⟨-, -, h⟩ | ⟨-, -, rfl⟩
  · simp
  · cases h; simp [hp]
  · simp

/-- Settles O43: `DRST` clears the engine without a word written, the other two are begins. -/
theorem resetAndBeginFrame : Obligations.ResetAndBeginFrame := by
  rintro s t i (rfl | rfl | rfl) h
  · cases h; simp
  · obtain ⟨hobuf, hrecord, hfault⟩ := begin_frame (by decide) h
    exact ⟨hobuf, fun _ => hrecord, hfault⟩
  · obtain ⟨hobuf, hrecord, hfault⟩ := begin_frame (by decide) h
    exact ⟨hobuf, fun _ => hrecord, hfault⟩

end Sys2Proof.Machine
end

section
/-!
The fields of a word, and the words that are the word of a command: the decoder and `Legal` both single out the range of
`encode` (spec/30_encoding.md R71 to R77).
-/
namespace Sys2Proof.Machine

/-! A word is its three fields -/

theorem append_fields (w : Word) : opField w ++ rsvField w ++ argField w = w := by
  have hhead : opField w ++ rsvField w = w.extractLsb' 24 8 := BitVec.extractLsb'_append_extractLsb'_eq_extractLsb' rfl
  rw [hhead]
  exact (BitVec.extractLsb'_append_extractLsb'_eq_extractLsb' rfl).trans BitVec.extractLsb'_eq_self

theorem eq_wordOf_iff {w : Word} {op : BitVec 4} {arg : Arg} :
    w = wordOf op arg ↔ opField w = op ∧ rsvField w = 0 ∧ argField w = arg := by
  constructor
  · rintro rfl
    simp
  · rintro ⟨rfl, hrsv, rfl⟩
    conv_lhs => rw [← append_fields w, hrsv]
    rfl

/-! Mask `0xFF000000` keeps the operation code and the reserved field and clears the operand (R73) -/

theorem opField_and_mask (w : Word) : opField (w &&& 0xFF000000) = opField w := by
  rw [opField, BitVec.extractLsb'_and]
  exact BitVec.and_allOnes

theorem rsvField_and_mask (w : Word) : rsvField (w &&& 0xFF000000) = rsvField w := by
  rw [rsvField, BitVec.extractLsb'_and]
  exact BitVec.and_allOnes

theorem argField_and_mask (w : Word) : argField (w &&& 0xFF000000) = 0 := by
  rw [argField, BitVec.extractLsb'_and]
  exact BitVec.and_zero

theorem exists_wordOf_eq_iff_mask {w : Word} {op : BitVec 4} :
    (∃ arg, wordOf op arg = w) ↔ w &&& 0xFF000000 = wordOf op 0 := by
  rw [eq_wordOf_iff, opField_and_mask, rsvField_and_mask, argField_and_mask]
  simp only [eq_comm (b := w), eq_wordOf_iff, exists_and_left, exists_eq', and_true]

theorem and_fullMask (w : Word) : w &&& 0xFFFFFFFF = w := BitVec.and_allOnes

end Sys2Proof.Machine

namespace Sys2Proof

open Machine

/-! The decoder answers exactly on the words of commands -/

theorem noOperand_eq_command {arg : Arg} {i j : Instr} : noOperand arg i = .command j ↔ arg = 0 ∧ i = j := by
  simp only [noOperand, ite_eq_iff, Decoded.command.injEq, reduceCtorEq, and_false, or_false]

/-- Every arm of the decoder that answers a command is at the operation code `encode` gives that command (R72, R77). -/
theorem encode_of_decodeOp {op : BitVec 4} {arg : Arg} {i : Instr} (h : decodeOp op arg = .command i) :
    encode i = wordOf op arg := by
  rw [show op = BitVec.ofNat 4 op.toNat by simp]
  unfold decodeOp at h
  split at h
  case h_3 hop | h_6 hop =>
    cases h
    rw [hop]
    rfl
  case h_8 => cases h
  all_goals
    obtain ⟨rfl, rfl⟩ := noOperand_eq_command.mp h
    rw [‹op.toNat = _›]
    rfl

theorem decode_encode (i : Instr) : decode (encode i) = .command i := by
  cases i <;> simp [encode, decode, decodeOp, noOperand]

theorem encode_of_decode {w : Word} {i : Instr} (h : decode w = .command i) : encode i = w := by
  unfold decode at h
  split at h
  · next hrsv => exact (encode_of_decodeOp h).trans (eq_wordOf_iff.mpr ⟨rfl, hrsv, rfl⟩).symm
  · cases h

theorem decode_eq_command_iff {w : Word} {i : Instr} : decode w = .command i ↔ encode i = w :=
  ⟨encode_of_decode, fun h => h ▸ decode_encode i⟩

theorem encode_injective : Function.Injective encode := fun i j h => by
  have hij : Decoded.command i = .command j := by rw [← decode_encode i, h, decode_encode]
  injection hij

theorem decode_eq_illegal_iff {w : Word} : decode w = .illegal ↔ ¬ ∃ i, encode i = w := by
  simp only [← decode_eq_command_iff]
  cases decode w <;> simp

/-! The legal words are the words of commands -/

theorem legal_encode (i : Instr) : legal (encode i) = true :=
  match i with
  | .drst => Laws.EncodedWord.drst.1
  | .encb => Laws.EncodedWord.encb.1
  | .encs sym => (Laws.EncodedWord.encs sym).1
  | .ence => Laws.EncodedWord.ence.1
  | .decb => Laws.EncodedWord.decb.1
  | .decc code => (Laws.EncodedWord.decc code).1
  | .dece => Laws.EncodedWord.dece.1

theorem exists_encode_of_legal {w : Word} (h : legal w = true) : ∃ i, encode i = w := by
  have hrsv : rsvField w = 0 := by
    by_contra hne
    rw [legal, if_pos hne] at h
    cases h
  have hw {op : BitVec 4} {arg : Arg} (hop : opField w = op) (harg : argField w = arg) :
      wordOf op arg = w := (eq_wordOf_iff.mpr ⟨hop, hrsv, harg⟩).symm
  rw [legal, if_neg (not_not.mpr hrsv)] at h
  split_ifs at h with hop
  · have harg : argField w = 0 := beq_iff_eq.mp h
    simp only [takesNoOperand, Bool.or_eq_true, beq_iff_eq] at hop
    obtain (((hop | hop) | hop) | hop) | hop := hop
    · exact ⟨.drst, hw hop harg⟩
    · exact ⟨.encb, hw hop harg⟩
    · exact ⟨.ence, hw hop harg⟩
    · exact ⟨.decb, hw hop harg⟩
    · exact ⟨.dece, hw hop harg⟩
  · simp only [takesOperand, Bool.or_eq_true, beq_iff_eq] at h
    obtain hop | hop := h
    · exact ⟨.encs (argField w), hw hop rfl⟩
    · exact ⟨.decc (argField w), hw hop rfl⟩

theorem legal_iff {w : Word} : legal w = true ↔ ∃ i, encode i = w :=
  ⟨exists_encode_of_legal, fun ⟨i, hi⟩ => hi ▸ legal_encode i⟩

/-- Settles O3: the decoder inverts `encode`, which makes `encode` injective, and the legal words are its range. -/
theorem decodeOfEncodeIsIdentity : Obligations.DecodeOfEncodeIsIdentity := by
  refine ⟨decode_encode, fun w h => ?_⟩
  obtain ⟨i, hi⟩ := exists_encode_of_legal h
  exact ⟨i, hi, fun j hj => encode_injective (hj.trans hi.symm)⟩

/-- Settles O4: a mask and match of a command without an operand is equality with its word, and that of a command with an
operand is equality but for the operand. -/
theorem decoderIsMaskAndMatch : Obligations.DecoderIsMaskAndMatch := by
  intro w
  have hbare (i : Instr) : decode w = .command i ↔ w &&& 0xFFFFFFFF = encode i := by
    rw [decode_eq_command_iff, and_fullMask, eq_comm]
  have hfamily {op : BitVec 4} {i : Arg → Instr} (hi : ∀ arg, encode (i arg) = wordOf op arg) :
      (∃ arg, decode w = .command (i arg)) ↔ w &&& 0xFF000000 = wordOf op 0 := by
    simp only [decode_eq_command_iff, hi, exists_wordOf_eq_iff_mask]
  refine ⟨hbare .drst, hbare .encb, hfamily (i := .encs) fun _ => rfl, hbare .ence, hbare .decb,
    hfamily (i := .decc) fun _ => rfl, hbare .dece, ?_⟩
  rw [decode_eq_illegal_iff, ← legal_iff, Bool.not_eq_true]

/-! Counting -/

theorem card_arg : Nat.card Arg = 2 ^ 24 := by
  rw [Nat.card_congr BitVec.equivFin.toEquiv, Nat.card_fin]

/-- A command by its row of R72 and, in the two rows that have one, its operand. -/
def rowEquiv : Unit ⊕ Unit ⊕ Arg ⊕ Unit ⊕ Unit ⊕ Arg ⊕ Unit ≃ Instr := proxy_equiv% Instr

theorem card_instr : Nat.card Instr = 2 * 2 ^ 24 + 5 := by
  rw [← Nat.card_congr rowEquiv]
  simp only [Nat.card_sum, Nat.card_unique, card_arg]
  rfl

/-- Settles O5: the legal words are the range of the injective `encode`, so there are as many as commands. -/
theorem legalWordCount : Obligations.LegalWordCount := by
  have hrange : {w : Word | legal w = true} = Set.range encode := Set.ext fun _ => legal_iff
  rw [Obligations.LegalWordCount, hrange, Set.ncard_range_of_injective encode_injective, card_instr]

/-! The spec's own words and lines -/

/-- Settles O2, by evaluating the decoder on the fifteen words. -/
theorem tableWordsDecode : Obligations.TableWordsDecode := by
  unfold Obligations.TableWordsDecode
  decide

/-- Settles O60, by evaluating the assembler on the thirteen lines. -/
theorem assemblerLines : Obligations.AssemblerLines := by
  unfold Obligations.AssemblerLines
  decide

end Sys2Proof
end

section
/-!
The dictionary (R90 to R99): the comparator, the lookups, an insert, `DRST`, the longest match, and the counts the host reads.
-/
namespace Sys2Proof.Machine

variable {s : State}

/-! The comparator, the lookups and the seed -/

/-- Settles O14: the comparator decides equality, and equal lists are those of one length that agree below it. -/
theorem seqEqIsExact : Obligations.SeqEqIsExact := by
  refine fun a b => seqEq_iff.trans ⟨fun hab => ?_, fun ⟨hlen, hsym⟩ => ?_⟩
  · subst hab
    exact ⟨rfl, fun _ _ => rfl⟩
  · refine List.ext_getElem?' fun i hi => hsym i ?_
    rwa [← hlen, max_self] at hi

/-- Settles O15: what a lookup finds is an entry, and in a canonical form no earlier entry answers in its place. -/
theorem lookupsFindExactlyTheStored : Obligations.LookupsFindExactlyTheStored :=
  ⟨fun _ _ _ ⟨_, honce⟩ => ⟨mem_of_fwdLookup, fwdLookup_of_mem honce⟩,
    fun _ _ _ hwf => ⟨mem_of_tableRead, tableRead_of_mem hwf⟩⟩

/-- Settles O13: both maps are the seed. -/
theorem dictResetSeedsBothMaps : Obligations.DictResetSeedsBothMaps := by
  refine fun s => ⟨seedDict, seedDict, rfl, fwdLookup_seedDict_single, fun _ => fwdLookup_seedDict_of_length, ?_, ?_⟩
  · exact fun c hc => (revLookup_seedDict c).trans (if_pos hc)
  · exact fun c hc => (revLookup_seedDict c).trans (if_neg (Nat.not_lt.mpr hc))

/-! Inserts -/

theorem fwdLookup_cons_self (u : SymSeq) (k : Nat) (d : Dict) : fwdLookup u ((k, u) :: d) = some k :=
  if_pos (seqEq_iff.mpr rfl)

theorem fwdLookup_cons_ne {u v : SymSeq} (h : v ≠ u) (k : Nat) (d : Dict) :
    fwdLookup v ((k, u) :: d) = fwdLookup v d :=
  if_neg (mt seqEq_iff.mp h)

/-- A sequence that is not stored is found at the code it is written under, even where that code was taken. -/
theorem fwdLookup_write_same (k : Nat) {u : SymSeq} {d : Dict} (h : fwdLookup u d = none) :
    fwdLookup u (tableWrite k u d) = some k := by
  induction d with
  | nil => exact fwdLookup_cons_self u k []
  | cons p d ih =>
    obtain ⟨j, v⟩ := p
    have hv : u ≠ v := fun he => fwdLookup_eq_none_iff.mp h (j, v) List.mem_cons_self he.symm
    rw [fwdLookup_cons_ne hv] at h
    simp only [tableWrite]
    split
    · exact fwdLookup_cons_self u k _
    · split
      · exact fwdLookup_cons_self u k _
      · rw [fwdLookup_cons_ne hv, ih h]

/-- A write under a code that is not taken loses no other sequence. -/
theorem fwdLookup_write_ne {k : Nat} {u v : SymSeq} {d : Dict} (hk : tableRead k d = none) (hv : v ≠ u) :
    fwdLookup v (tableWrite k u d) = fwdLookup v d := by
  induction d with
  | nil => exact fwdLookup_cons_ne hv k []
  | cons p d ih =>
    obtain ⟨j, w⟩ := p
    obtain ⟨hkj, hd⟩ : k ≠ j ∧ tableRead k d = none := by
      simpa only [tableRead_eq_none_iff, List.map_cons, List.mem_cons, not_or] using hk
    simp only [tableWrite, if_neg hkj]
    split
    · exact fwdLookup_cons_ne hv k _
    · simp only [fwdLookup, ih hd]

/-- Settles O16: each insert is one write at `NEXT`, and a lookup after it finds that entry or what was there before. -/
theorem insertsAssignNextCode : Obligations.InsertsAssignNextCode := by
  refine ⟨fun s u hu hnext hcap => ?_, fun s u hnext hcap => ?_⟩
  · exact ⟨_, fwdInsert_eq_next.mpr ⟨hcap, hu, hnext, rfl⟩, fwdLookup_write_same _ hu,
      fun v hv => fwdLookup_write_ne hnext hv⟩
  · exact ⟨_, revInsert_eq_next.mpr ⟨hcap, hnext, rfl⟩, tableRead_write_same _ u _,
      fun c hc => tableRead_write_ne hc u _⟩

/-! `DRST` -/

theorem exec_drst (s : State) : exec .drst s = .next (clearEngine s) := rfl

theorem clearEngine_clearEngine (s : State) : clearEngine (clearEngine s) = clearEngine s := rfl

/-- With no valid word every read of `OBUF` is one the spec leaves unspecified (R57). -/
theorem obufRead_of_olen_zero (h : s.olen = 0) (i : Nat) : obufRead i s = none :=
  if_neg (h ▸ Nat.not_lt_zero i)

/-- Hardware reset differs from `DRST` in the words of `OBUF` only (R201), and neither leaves a valid one. -/
theorem sameObserved_clearEngine_hostReset (s : State) : sameObserved (clearEngine s) (hostReset s) :=
  ⟨fun _ => rfl, fun i => (obufRead_of_olen_zero rfl i).trans (obufRead_of_olen_zero rfl i).symm⟩

/-- Settles O12: `DRST` is the cleared engine in every phase. -/
theorem drstCompletesEverywhere : Obligations.DrstCompletesEverywhere :=
  fun s => ⟨clearEngine s, exec_drst s, rfl, sameObserved_clearEngine_hostReset s,
    (exec_drst _).trans (congrArg _ (clearEngine_clearEngine s))⟩

/-! The longest match -/

namespace GrownDict

variable {d : Dict} {n : Nat} {t u : SymSeq}

/-- With a sequence every non-empty prefix of it is stored (R38 item 3), by induction on the symbols after the prefix. -/
theorem stored_of_prefix (h : GrownDict d n) (ht : stored t d) (hu : u <+: t) (hne : u ≠ []) : stored u d := by
  induction t using List.reverseRecOn with
  | nil => exact absurd (List.prefix_nil.mp hu) hne
  | append_singleton t a ih =>
    rcases List.prefix_concat_iff.mp hu with rfl | hut
    · exact ht
    · have hpos := List.length_pos_of_ne_nil hne
      have hle := hut.length_le
      obtain ⟨e, he, het⟩ := ht
      obtain ⟨f, hf, -, hft⟩ := h.closed e he (by rw [het, List.length_append, List.length_singleton]; omega)
      exact ih ⟨f, hf, by rw [hft, het, List.dropLast_concat]⟩ hut

/-- No stored sequence is longer than its code allows, and a code is below `n` (R38 item 6). -/
theorem length_add_le_of_stored (h : GrownDict d n) (ht : stored t d) : t.length + 255 ≤ n := by
  obtain ⟨⟨c, t⟩, he, rfl⟩ := ht
  obtain ⟨hseed, hlong⟩ := h.lengths _ he
  have hc := h.code_lt he
  have hn := h.seeded
  simp only at hseed hlong ⊢
  omega

end GrownDict

/-- At a miss there is a pending match, since every one-symbol sequence is stored. -/
theorem cur_ne_nil_of_miss (h : s.Inv) (hp : s.phase = .enc) {a : Symbol}
    (hmiss : fwdLookup (s.cur ++ [a]) s.fwd = none) : s.cur ≠ [] := fun hnil => by
  obtain ⟨e, he, hea⟩ := (grownFwd_of_enc h hp).stored_single a
  exact fwdLookup_eq_none_iff.mp hmiss e he (by rw [hea, hnil, List.nil_append])

/-- Settles O23: a longer stored prefix would have the missed candidate as a prefix of its own, which would then be stored. -/
theorem emittedMatchIsLongestPrefix : Obligations.EmittedMatchIsLongestPrefix := by
  intro s a x p h hp hmiss
  refine ⟨curStored_of_enc h hp (cur_ne_nil_of_miss h hp hmiss), fun hpre hstored => Nat.not_lt.mp fun hlt => ?_⟩
  have hcand : s.cur ++ [a] <+: s.cur ++ a :: x := ⟨x, List.append_cons s.cur a x ▸ rfl⟩
  have hle : (s.cur ++ [a]).length ≤ p.length := by rw [List.length_append]; exact hlt
  have hsub : s.cur ++ [a] <+: p := List.prefix_of_prefix_length_le hcand hpre hle
  obtain ⟨e, he, hea⟩ := (grownFwd_of_enc h hp).stored_of_prefix hstored hsub (List.concat_ne_nil a s.cur)
  exact fwdLookup_eq_none_iff.mp hmiss e he hea

/-! The counts -/

theorem toNat_zextNat {n : Nat} (h : n < 2 ^ 32) : (zextNat n).toNat = n :=
  (BitVec.toNat_ofNat n 32).trans (Nat.mod_eq_of_lt h)

/-- `CUR` is empty or stored in one of the maps, in every phase (R38 items 4 and 5, R179). -/
theorem cur_eq_nil_or_stored (h : s.Inv) : s.cur = [] ∨ stored s.cur s.fwd ∨ stored s.cur s.rev := by
  cases hp : s.phase with
  | idle => exact .inl (h.curIdle hp)
  | enc => exact (h.curEnc hp).imp And.left Or.inl
  | dec =>
    cases hf : s.firstFlag with
    | true => exact .inl (h.curFirst hp hf).1
    | false => exact .inr (.inr (h.curDec hp hf))
  | fault => exact h.curFault hp

/-- No stored sequence has more than NEXT - 255 symbols, whichever of the maps has grown. -/
theorem length_add_le_of_stored (h : s.Inv) {t : SymSeq} (ht : stored t s.fwd ∨ stored t s.rev) :
    t.length + 255 ≤ s.nextCode := by
  have hseed (hst : stored t seedDict) : t.length + 255 ≤ s.nextCode :=
    (GrownDict.seed.length_add_le_of_stored hst).trans h.nextRange.1
  rcases h.dense with hd | hd
  · rw [hd.2] at ht
    exact ht.elim (grownFwd_of_dense h hd).length_add_le_of_stored hseed
  · rw [hd.2] at ht
    exact ht.elim hseed (grownRev_of_dense h hd).length_add_le_of_stored

theorem cur_length_add_le (h : s.Inv) : s.cur.length + 255 ≤ s.nextCode := by
  rcases cur_eq_nil_or_stored h with hnil | hstored
  · have hseeded := h.nextRange.1
    rw [hnil, List.length_nil]
    omega
  · exact length_add_le_of_stored h hstored

/-- Settles O9: the three counts are below 2^32, the longest `CUR` by the code it can have. -/
theorem countRegistersReadExactly : Obligations.CountRegistersReadExactly := by
  intro s h
  obtain ⟨⟨-, hdict⟩, -, hobuf⟩ := h.caps
  have hnext := h.nextRange.2
  have holen := h.validWords.1
  have hcur := cur_length_add_le h
  exact ⟨congrArg some (toNat_zextNat (by omega)), congrArg some (toNat_zextNat (by omega)),
    congrArg some (toNat_zextNat (by omega)), by omega⟩

end Sys2Proof.Machine
end

section
/-!
The pending match of an encode call (R38 item 4): what the engine and the reference encoder have in common between two symbols.
-/
namespace Sys2Proof.Machine

/-- Where an encode call is between two symbols: a grown dictionary, and a pending match that is empty or stored (R38 items 1
to 4). -/
structure MatchPending (d : Dict) (n : Nat) (cur : SymSeq) : Prop where
  grown : GrownDict d n
  pending : cur = [] ∨ stored cur d

namespace MatchPending

variable {d : Dict} {n : Nat} {cur : SymSeq} {a : Symbol}

/-- The start of a call. -/
protected theorem start : MatchPending seedDict 256 [] := ⟨GrownDict.seed, .inl rfl⟩

theorem code_of_ne_nil (h : MatchPending d n cur) (hc : cur ≠ []) : ∃ c, fwdLookup cur d = some c :=
  Option.isSome_iff_exists.mp (fwdLookup_isSome_iff.mpr (h.pending.resolve_left hc))

theorem ne_nil_of_miss (h : MatchPending d n cur) (hmiss : fwdLookup (cur ++ [a]) d = none) : cur ≠ [] := fun hnil => by
  obtain ⟨e, he, hea⟩ := h.grown.stored_single a
  exact fwdLookup_eq_none_iff.mp hmiss e he (by rw [hea, hnil, List.nil_append])

/-- A hit extends the match. -/
theorem extend (h : MatchPending d n cur) (hhit : (fwdLookup (cur ++ [a]) d).isSome) : MatchPending d n (cur ++ [a]) :=
  ⟨h.grown, .inr (fwdLookup_isSome_iff.mp hhit)⟩

/-- A miss inserts the candidate and restarts with the symbol. -/
theorem restart (h : MatchPending d n cur) (hmiss : fwdLookup (cur ++ [a]) d = none) :
    MatchPending (tableWrite n (cur ++ [a]) d) (n + 1) [a] :=
  ⟨h.grown.insert (h.pending.resolve_left (h.ne_nil_of_miss hmiss)) a,
    .inr (h.grown.stored_insert _ (h.grown.stored_single a))⟩

/-- Each symbol is a hit, or a miss with a match pending that has a code. -/
theorem hit_or_miss (h : MatchPending d n cur) (a : Symbol) :
    (fwdLookup (cur ++ [a]) d).isSome ∨
      fwdLookup (cur ++ [a]) d = none ∧ cur ≠ [] ∧ ∃ c, fwdLookup cur d = some c := by
  cases hlook : fwdLookup (cur ++ [a]) d with
  | some e => exact .inl rfl
  | none => exact .inr ⟨rfl, h.ne_nil_of_miss hlook, h.code_of_ne_nil (h.ne_nil_of_miss hlook)⟩

end MatchPending

theorem matchPending_of_enc {s : State} (h : s.Inv) (hp : s.phase = .enc) : MatchPending s.fwd s.nextCode s.cur :=
  ⟨grownFwd_of_enc h hp, (h.curEnc hp).imp_left And.left⟩

end Sys2Proof.Machine
end

section
/-!
The encode commands in each of their cases (R110 to R113): the next state of `ENCB` in IDLE, and of `ENCS` and `ENCE` in ENC.
-/
namespace Sys2Proof.Machine

variable {s : State} {a : Symbol} {c : Nat}

theorem exec_encb (hp : s.phase = .idle) : exec .encb s = .next (beginCall .enc false s) :=
  inPhase_own (by decide) hp

theorem exec_encs {sym : Arg} (hp : s.phase = .enc) (ha : symbolOperand sym = some a) :
    exec (.encs sym) s = encSymbol a (encode (.encs sym)) s :=
  (inPhase_own (by decide) hp).trans (by rw [encStep, ha])

theorem exec_ence (hp : s.phase = .enc) : exec .ence s = encFlush s :=
  inPhase_own (by decide) hp

/-! `ENCS` on a symbol -/

theorem encSymbol_of_hit (w : Word) (hhit : (fwdLookup (s.cur ++ [a]) s.fwd).isSome) :
    encSymbol a w s = .next (encExtend a s) :=
  if_pos hhit

theorem encSymbol_of_not_hit (w : Word) (hmiss : fwdLookup (s.cur ++ [a]) s.fwd = none) :
    encSymbol a w s =
      if s.olen = s.obufCap then raiseFault .obufFull w s
      else if s.nextCode = s.dictCap then raiseFault .dictFull w s
      else encEmit a s :=
  if_neg (by rw [hmiss]; exact Bool.false_ne_true)

theorem encSymbol_of_obufFull (w : Word) (hmiss : fwdLookup (s.cur ++ [a]) s.fwd = none) (ho : s.olen = s.obufCap) :
    encSymbol a w s = .next (faultEntry .obufFull w s) :=
  (encSymbol_of_not_hit w hmiss).trans (if_pos ho)

theorem encSymbol_of_dictFull (w : Word) (hmiss : fwdLookup (s.cur ++ [a]) s.fwd = none) (ho : s.olen ≠ s.obufCap)
    (hn : s.nextCode = s.dictCap) : encSymbol a w s = .next (faultEntry .dictFull w s) := by
  rw [encSymbol_of_not_hit w hmiss, if_neg ho, if_pos hn, raiseFault]

theorem encSymbol_of_miss (w : Word) (hmiss : fwdLookup (s.cur ++ [a]) s.fwd = none)
    (hcur : fwdLookup s.cur s.fwd = some c) (ho : s.olen < s.obufCap) (hn : s.nextCode < s.dictCap)
    (hfree : tableRead s.nextCode s.fwd = none) :
    encSymbol a w s = .next { s with
      fwd := tableWrite s.nextCode (s.cur ++ [a]) s.fwd, nextCode := s.nextCode + 1, cur := [a],
      obuf := tableWrite s.olen (zextNat c) s.obuf, olen := s.olen + 1, arb := .encEmit } := by
  rw [encSymbol_of_not_hit w hmiss, if_neg ho.ne, if_neg hn.ne]
  exact andThen_eq_next.mpr ⟨_, emitCodeOfCur_eq_next.mpr ⟨c, hcur, ho, rfl⟩,
    andThen_eq_next.mpr ⟨_, fwdInsert_eq_next.mpr ⟨hn, hmiss, hfree, rfl⟩, rfl⟩⟩

/-! `ENCE` -/

theorem encFlush_of_nil (hcur : s.cur = []) : encFlush s = .next (encFinish .none s) :=
  if_pos hcur

theorem encFlush_of_obufFull (hcur : s.cur ≠ []) (ho : s.olen = s.obufCap) :
    encFlush s = .next (faultEntry .obufFull (encode .ence) s) := by
  rw [encFlush, if_neg hcur, if_pos ho, raiseFault]

theorem encFlush_of_room (hne : s.cur ≠ []) (hcur : fwdLookup s.cur s.fwd = some c) (ho : s.olen < s.obufCap) :
    encFlush s =
      .next (encFinish .encFlush { s with obuf := tableWrite s.olen (zextNat c) s.obuf, olen := s.olen + 1 }) := by
  rw [encFlush, if_neg hne, if_neg ho.ne]
  exact andThen_eq_next.mpr ⟨_, emitCodeOfCur_eq_next.mpr ⟨c, hcur, ho, rfl⟩, rfl⟩

/-! The commands under the invariant -/

/-- Settles O19: `ENCB` in IDLE is the begin of a call. -/
theorem encbBeginsEncodeCall : Obligations.EncbBeginsEncodeCall :=
  fun _ => exec_encb

/-- Settles O20: on a hit `ENCS` is the arbiter's extend. -/
theorem encsHitExtends : Obligations.EncsHitExtends :=
  fun _ sym hp hsym hhit => (exec_encs hp (symbolOperand_of_le hsym)).trans (encSymbol_of_hit (encode (.encs sym)) hhit)

/-- Settles O21: at a miss a match is pending and `NEXT` is not assigned, so that the word is one write at `OLEN` and the entry
one write at `NEXT`. -/
theorem encsMissEmitsAndInserts : Obligations.EncsMissEmitsAndInserts := by
  intro s sym h hp hsym hmiss ho hn
  have hmatch := matchPending_of_enc h hp
  obtain ⟨c, hc⟩ := hmatch.code_of_ne_nil (hmatch.ne_nil_of_miss hmiss)
  have hfree : tableRead s.nextCode s.fwd = none := hmatch.grown.read_next
  refine ⟨c, _, _, hc, (exec_encs hp (symbolOperand_of_le hsym)).trans
    (encSymbol_of_miss _ hmiss hc (olen_lt_obufCap h ho) (nextCode_lt_dictCap h hn) hfree), ?_, ?_, ?_, ?_⟩
  · exact tableRead_write_same _ _ _
  · exact fun i hi => tableRead_write_ne hi _ _
  · exact fwdLookup_write_same _ hmiss
  · exact fun u hu => fwdLookup_write_ne hfree hu

/-- Settles O22: the flush is one write at `OLEN`. -/
theorem enceFlushesAndFinishes : Obligations.EnceFlushesAndFinishes := by
  refine ⟨fun s h hp hcur ho => ?_, fun s hp hcur => ?_⟩
  · obtain ⟨c, hc⟩ := (matchPending_of_enc h hp).code_of_ne_nil hcur
    exact ⟨c, _, hc, (exec_ence hp).trans (encFlush_of_room hcur hc (olen_lt_obufCap h ho)),
      tableRead_write_same _ _ _, fun i hi => tableRead_write_ne hi _ _⟩
  · rw [exec_ence hp, encFlush_of_nil hcur, encFinish, hcur]

end Sys2Proof.Machine
end

section
/-!
The reference encoder (R114): its equations at a hit, a miss and the end of the input, and the count of its codes (R118).
-/
namespace Sys2Proof.Machine

variable {d : Dict} {n c : Nat} {cur x : SymSeq} {a : Symbol}

/-! The equations -/

theorem encodeFrom_nil_nil (d : Dict) (n : Nat) : encodeFrom d n [] [] = [] := rfl

theorem encodeFrom_nil (hne : cur ≠ []) (hc : fwdLookup cur d = some c) : encodeFrom d n cur [] = [c] := by
  rw [encodeFrom, if_neg hne, hc, Option.toList_some]

theorem encodeFrom_of_hit (hhit : (fwdLookup (cur ++ [a]) d).isSome) :
    encodeFrom d n cur (a :: x) = encodeFrom d n (cur ++ [a]) x :=
  if_pos hhit

/-- The reference's entry at the end of the list is the insert at `NEXT`. -/
theorem encodeFrom_of_miss (hd : GrownDict d n) (hmiss : fwdLookup (cur ++ [a]) d = none)
    (hc : fwdLookup cur d = some c) :
    encodeFrom d n cur (a :: x) = c :: encodeFrom (tableWrite n (cur ++ [a]) d) (n + 1) [a] x := by
  rw [encodeFrom, hmiss, hc, hd.write_next]
  rfl

theorem extendsFrom_of_hit (hhit : (fwdLookup (cur ++ [a]) d).isSome) :
    extendsFrom d n cur (a :: x) = (if cur = [] then 0 else 1) + extendsFrom d n (cur ++ [a]) x :=
  if_pos hhit

theorem extendsFrom_of_miss (hd : GrownDict d n) (hmiss : fwdLookup (cur ++ [a]) d = none) :
    extendsFrom d n cur (a :: x) = extendsFrom (tableWrite n (cur ++ [a]) d) (n + 1) [a] x := by
  rw [extendsFrom, hmiss, hd.write_next]
  rfl

/-! The counts -/

/-- A symbol extends the match or ends it with a code, and the match pending at the end is one code more. -/
theorem length_encodeFrom_add_extendsFrom (h : MatchPending d n cur) (x : SymSeq) :
    (encodeFrom d n cur x).length + extendsFrom d n cur x = x.length + if cur = [] then 0 else 1 := by
  induction x generalizing d n cur with
  | nil =>
    by_cases hne : cur = []
    · subst hne
      rfl
    · obtain ⟨c, hc⟩ := h.code_of_ne_nil hne
      rw [encodeFrom_nil hne hc, if_neg hne]
      rfl
  | cons a x ih =>
    rcases h.hit_or_miss a with hhit | ⟨hmiss, hne, c, hc⟩
    · have hrest := ih (h.extend hhit)
      rw [if_neg (List.concat_ne_nil a cur)] at hrest
      rw [encodeFrom_of_hit hhit, extendsFrom_of_hit hhit, List.length_cons]
      omega
    · have hrest := ih (h.restart hmiss)
      rw [if_neg (List.cons_ne_nil a [])] at hrest
      rw [encodeFrom_of_miss h.grown hmiss hc, extendsFrom_of_miss h.grown hmiss, if_neg hne, List.length_cons,
        List.length_cons]
      omega

/-- Settles O56: the count along a call that starts with no match pending. -/
theorem outputLengthCountsExtensions : Obligations.OutputLengthCountsExtensions :=
  length_encodeFrom_add_extendsFrom MatchPending.start

theorem length_encodeRef_le (x : SymSeq) : (encodeRef x).length ≤ x.length :=
  Nat.le.intro (outputLengthCountsExtensions x)

/-- From a pending match at least one code is to come. -/
theorem length_encodeFrom_pos (h : MatchPending d n cur) (hne : cur ≠ []) (x : SymSeq) :
    0 < (encodeFrom d n cur x).length := by
  induction x generalizing cur with
  | nil =>
    obtain ⟨c, hc⟩ := h.code_of_ne_nil hne
    rw [encodeFrom_nil hne hc]
    exact Nat.one_pos
  | cons a x ih =>
    rcases h.hit_or_miss a with hhit | ⟨hmiss, -, c, hc⟩
    · rw [encodeFrom_of_hit hhit]
      exact ih (h.extend hhit) (List.concat_ne_nil a cur)
    · rw [encodeFrom_of_miss h.grown hmiss hc]
      exact Nat.succ_pos _

end Sys2Proof.Machine
end

section
/-!
Whole calls (R115, R135, R211): the commands one at a time, a call that has ended in FAULT, the valid words as they are emitted,
and the two ways a call can end.
-/
namespace Sys2Proof.Machine

variable {s t : State} {i : Instr} {is : List Instr} {ws : List Word}

/-- The rest of the commands follow what the first has done: a command leaves the queue of the host as it is. -/
theorem performCommands_of_exec (h : exec i { s with hostIn := hostCmds is } = .next t) :
    performCommands (i :: is) s = performCommands is t := by
  obtain ⟨-, -, hin, -⟩ := commandsKeepParameters _ _ _ h
  exact performCommands_cons (decode_encode i) h hin

theorem exec_of_fault (hf : s.phase = .fault) (hi : i ≠ .drst) : exec i s = .next s := by
  cases i with
  | drst => exact absurd rfl hi
  | _ => exact inPhase_fault hf

/-- In FAULT the rest of a call is discarded (R180). -/
theorem performCommands_of_fault (hf : s.phase = .fault) (his : .drst ∉ is) :
    performCommands is s = .next { s with hostIn := [] } := by
  induction is generalizing s with
  | nil => exact performCommands_nil s
  | cons i is ih =>
    obtain ⟨hi, his⟩ := not_or.mp (mt List.mem_cons.mpr his)
    rw [performCommands_of_exec (exec_of_fault hf (Ne.symm hi))]
    exact ih hf his

/-! The valid words -/

theorem holdsWords_nil (h : s.olen = 0) : holdsWords s [] :=
  ⟨h, fun i => obufRead_of_olen_zero h i⟩

/-- A word written at `OLEN` is the next valid word. -/
theorem holdsWords_emit (h : holdsWords s ws) {v : Word} (hl : t.olen = s.olen + 1)
    (ho : t.obuf = tableWrite s.olen v s.obuf) : holdsWords t (ws ++ [v]) := by
  obtain ⟨hlen, hread⟩ := h
  refine ⟨by rw [hl, hlen, List.length_append, List.length_singleton], fun i => ?_⟩
  rw [obufRead, hl, ho]
  rcases lt_trichotomy i s.olen with hi | rfl | hi
  · rw [if_pos (by omega), tableRead_write_ne hi.ne, List.getElem?_append_left (by omega), ← hread, obufRead, if_pos hi]
  · rw [if_pos (by omega), tableRead_write_same, hlen, List.getElem?_concat_length]
  · rw [if_neg (by omega), List.getElem?_eq_none (by rw [List.length_append, List.length_singleton]; omega)]

/-! The end of a call -/

/-- How a call ends in `t` that has `ws` as its result and `n` as its `NEXT`, on an engine of the given capacities (R116, R136):
with them exactly when the capacities suffice, else in a capacity fault. -/
def CallEnds (obufCap dictCap : Nat) (ws : List Word) (n : Nat) (t : State) : Prop :=
  t.hostIn = [] ∧
  (ws.length ≤ obufCap ∧ n ≤ dictCap → callResult t ws ∧ t.nextCode = n) ∧
  (¬ (ws.length ≤ obufCap ∧ n ≤ dictCap) → capacityFailure t)

theorem CallEnds.of_result {obufCap dictCap n : Nat} (hin : t.hostIn = []) (hr : callResult t ws) (hn : t.nextCode = n)
    (hfit : ws.length ≤ obufCap ∧ n ≤ dictCap) : CallEnds obufCap dictCap ws n t :=
  ⟨hin, fun _ => ⟨hr, hn⟩, fun h => absurd hfit h⟩

/-- Once a capacity fault is raised, the call ends in it. -/
theorem exists_callEnds_of_fault {c : Cause} {w : Word} {obufCap dictCap n : Nat} (hc : c = .obufFull ∨ c = .dictFull)
    (his : .drst ∉ is) (hfull : ¬ (ws.length ≤ obufCap ∧ n ≤ dictCap)) :
    ∃ t, performCommands is (faultEntry c w s) = .next t ∧ CallEnds obufCap dictCap ws n t :=
  ⟨_, performCommands_of_fault rfl his, rfl, fun h => absurd h hfull, fun _ => ⟨rfl, hc, rfl, rfl⟩⟩

end Sys2Proof.Machine
end

section
/-!
An encode call refines the reference encoder (R116): between two symbols the engine and the reference have the same dictionary,
`NEXT` and pending match, and each `ENCS` is one round of the reference's loop.
-/
namespace Sys2Proof.Machine

/-- What is still to come of the commands of `ENCODE <x>` when `x` is still to come of the input. -/
def encodeTail (x : SymSeq) : List Instr := x.map (fun a => .encs (a.setWidth 24)) ++ [.ence]

theorem encodeCommands_eq (x : SymSeq) : encodeCommands x = .encb :: encodeTail x := rfl

theorem encodeTail_cons (a : Symbol) (x : SymSeq) : encodeTail (a :: x) = .encs (a.setWidth 24) :: encodeTail x := rfl

theorem drst_notMem_encodeTail (x : SymSeq) : .drst ∉ encodeTail x := by simp [encodeTail]

theorem symbolOperand_setWidth (a : Symbol) : symbolOperand (a.setWidth 24) = some a := by
  have ha : (a.setWidth 24).toNat ≤ 255 := by
    rw [BitVec.toNat_setWidth]
    omega
  rw [symbolOperand_of_le ha, BitVec.setWidth_setWidth_of_le a (by decide), BitVec.setWidth_eq]

/-- An encode call in progress, with the codes `ws` emitted so far. -/
structure EncodeCall (s : State) (ws : List Word) : Prop where
  phase : s.phase = .enc
  noCause : s.fcause = .none
  words : holdsWords s ws
  room : s.olen ≤ s.obufCap
  codes : s.nextCode ≤ s.dictCap
  pending : MatchPending s.fwd s.nextCode s.cur

namespace EncodeCall

variable {s : State} {ws : List Word} {a : Symbol} {c : Nat}

theorem withHostIn (h : EncodeCall s ws) (l : List HostOp) : EncodeCall { s with hostIn := l } ws :=
  ⟨h.phase, h.noCause, h.words, h.room, h.codes, h.pending⟩

theorem begin (hc : capsInRange s) (hn : s.fcause = .none) : EncodeCall (beginCall .enc false s) [] :=
  ⟨rfl, hn, holdsWords_nil rfl, Nat.zero_le _, hc.1.1, MatchPending.start⟩

theorem extend (h : EncodeCall s ws) (hhit : (fwdLookup (s.cur ++ [a]) s.fwd).isSome) : EncodeCall (encExtend a s) ws :=
  ⟨h.phase, h.noCause, h.words, h.room, h.codes, h.pending.extend hhit⟩

theorem exec_symbol (h : EncodeCall s ws) (a : Symbol) :
    exec (.encs (a.setWidth 24)) s = encSymbol a (encode (.encs (a.setWidth 24))) s :=
  exec_encs h.phase (symbolOperand_setWidth a)

/-- A miss without room is a capacity fault. -/
theorem exec_full (h : EncodeCall s ws) (hmiss : fwdLookup (s.cur ++ [a]) s.fwd = none)
    (hfull : s.olen = s.obufCap ∨ s.nextCode = s.dictCap) :
    ∃ k w, (k = .obufFull ∨ k = .dictFull) ∧ exec (.encs (a.setWidth 24)) s = .next (faultEntry k w s) := by
  by_cases ho : s.olen = s.obufCap
  · exact ⟨_, _, .inl rfl, (h.exec_symbol a).trans (encSymbol_of_obufFull _ hmiss ho)⟩
  · exact ⟨_, _, .inr rfl, (h.exec_symbol a).trans (encSymbol_of_dictFull _ hmiss ho (hfull.resolve_left ho))⟩

/-- A miss with room emits the code of the match, and the call goes on with the symbol. -/
theorem exec_miss (h : EncodeCall s ws) (hmiss : fwdLookup (s.cur ++ [a]) s.fwd = none)
    (hc : fwdLookup s.cur s.fwd = some c) (ho : s.olen < s.obufCap) (hn : s.nextCode < s.dictCap) :
    ∃ t, exec (.encs (a.setWidth 24)) s = .next t ∧ EncodeCall t (ws ++ [zextNat c]) ∧
      t.fwd = tableWrite s.nextCode (s.cur ++ [a]) s.fwd ∧ t.nextCode = s.nextCode + 1 ∧ t.cur = [a] ∧
      t.obufCap = s.obufCap ∧ t.dictCap = s.dictCap :=
  ⟨_, (h.exec_symbol a).trans (encSymbol_of_miss _ hmiss hc ho hn h.pending.grown.read_next),
    ⟨h.phase, h.noCause, holdsWords_emit h.words rfl rfl, ho, hn, h.pending.restart hmiss⟩, rfl, rfl, rfl, rfl, rfl⟩

/-- `ENCE` ends the call as the reference ends at the end of its input. -/
theorem flush_refines (h : EncodeCall s ws) {cs : List Nat} (hcs : encodeFrom s.fwd s.nextCode s.cur [] = cs) :
    ∃ t, performCommands [.ence] s = .next t ∧
      CallEnds s.obufCap s.dictCap (ws ++ cs.map zextNat) (s.nextCode + (cs.length - 1)) t := by
  have hend : exec .ence { s with hostIn := [] } = encFlush { s with hostIn := [] } := exec_ence h.phase
  obtain ⟨hlen, -⟩ := h.words
  have hroom := h.room
  by_cases hne : s.cur = []
  · obtain rfl : cs = [] := by rw [← hcs, hne, encodeFrom_nil_nil]
    rw [List.map_nil, List.append_nil]
    exact ⟨_, performCommands_of_exec (hend.trans (encFlush_of_nil hne)),
      .of_result rfl ⟨rfl, rfl, h.noCause, h.words⟩ rfl ⟨hlen ▸ hroom, h.codes⟩⟩
  · obtain ⟨c, hc⟩ := h.pending.code_of_ne_nil hne
    obtain rfl : cs = [c] := hcs.symm.trans (encodeFrom_nil hne hc)
    have hone : (ws ++ [c].map zextNat).length = s.olen + 1 := by rw [List.length_append, hlen]; rfl
    by_cases ho : s.olen = s.obufCap
    · rw [performCommands_of_exec (hend.trans (encFlush_of_obufFull hne ho))]
      exact exists_callEnds_of_fault (.inl rfl) List.not_mem_nil (by omega)
    · have hlt : s.olen < s.obufCap := lt_of_le_of_ne hroom ho
      exact ⟨_, performCommands_of_exec (hend.trans (encFlush_of_room hne hc hlt)),
        .of_result rfl ⟨rfl, rfl, h.noCause, holdsWords_emit h.words rfl rfl⟩ rfl ⟨hone ▸ hlt, h.codes⟩⟩

/-- The commands still to come do what the reference does with the input still to come, by induction on it. -/
theorem tail_refines (h : EncodeCall s ws) (x : SymSeq) {cs : List Nat}
    (hcs : encodeFrom s.fwd s.nextCode s.cur x = cs) :
    ∃ t, performCommands (encodeTail x) s = .next t ∧
      CallEnds s.obufCap s.dictCap (ws ++ cs.map zextNat) (s.nextCode + (cs.length - 1)) t := by
  induction x generalizing s ws cs with
  | nil => exact h.flush_refines hcs
  | cons a x ih =>
    have hq := h.withHostIn (hostCmds (encodeTail x))
    rw [encodeTail_cons]
    rcases h.pending.hit_or_miss a with hhit | ⟨hmiss, -, c, hc⟩
    · rw [encodeFrom_of_hit hhit] at hcs
      rw [performCommands_of_exec ((hq.exec_symbol a).trans (encSymbol_of_hit _ hhit))]
      exact ih (hq.extend hhit) hcs
    obtain ⟨rest, hrest, rfl⟩ : ∃ rest,
        encodeFrom (tableWrite s.nextCode (s.cur ++ [a]) s.fwd) (s.nextCode + 1) [a] x = rest ∧ cs = c :: rest :=
      ⟨_, rfl, hcs.symm.trans (encodeFrom_of_miss h.pending.grown hmiss hc)⟩
    have hpos : 0 < rest.length :=
      hrest ▸ length_encodeFrom_pos (h.pending.restart hmiss) (List.cons_ne_nil a []) x
    have hwords : (ws ++ (c :: rest).map zextNat).length = s.olen + rest.length + 1 := by
      rw [List.length_append, h.words.1, List.length_map]; rfl
    have hcodes : s.nextCode + ((c :: rest).length - 1) = s.nextCode + 1 + (rest.length - 1) := by
      rw [List.length_cons]; omega
    by_cases hfull : s.olen = s.obufCap ∨ s.nextCode = s.dictCap
    · obtain ⟨k, w, hk, hstep⟩ := hq.exec_full hmiss hfull
      rw [performCommands_of_exec hstep]
      exact exists_callEnds_of_fault hk (drst_notMem_encodeTail x) (by omega)
    · obtain ⟨ho, hn⟩ := not_or.mp hfull
      obtain ⟨t, hstep, ht, hfwd, hnext, hcur, hobuf, hdict⟩ :=
        hq.exec_miss hmiss hc (lt_of_le_of_ne h.room ho) (lt_of_le_of_ne h.codes hn)
      rw [performCommands_of_exec hstep, hcodes, List.map_cons, List.append_cons, ← hobuf, ← hdict, ← hnext]
      exact ih ht (by rw [hfwd, hnext, hcur, hrest])

end EncodeCall

/-- The whole call: `ENCB` puts the engine where the reference starts. -/
theorem encodeCall_refines {s : State} (x : SymSeq) (hcaps : capsInRange s) (hp : s.phase = .idle)
    (hn : s.fcause = .none) :
    ∃ t, performCommands (encodeCommands x) s = .next t ∧
      CallEnds s.obufCap s.dictCap ((encodeRef x).map zextNat) (256 + ((encodeRef x).length - 1)) t := by
  rw [encodeCommands_eq, performCommands_of_exec (exec_encb hp)]
  exact (EncodeCall.begin (s := { s with hostIn := hostCmds (encodeTail x) }) hcaps hn).tail_refines x rfl

/-- The premise of R116 on the input's length: the output is no longer than the input (R118). -/
theorem callFits_of_length_le {s : State} {x : SymSeq} (hcaps : capsInRange s) (ho : x.length ≤ s.obufCap)
    (hd : x.length + 255 ≤ s.dictCap) : callFits s (encodeRef x).length (encodeRef x).length := by
  have hle := length_encodeRef_le x
  have hcap := hcaps.1.1
  exact ⟨hle.trans ho, by omega⟩

/-- Settles O47: the whole call read off its end. -/
theorem encodeCallRefinesReference : Obligations.EncodeCallRefinesReference := by
  intro s x hcaps hp hn
  obtain ⟨t, ht, hin, hfits, hfull⟩ := encodeCall_refines x hcaps hp hn
  rw [List.length_map] at hfits hfull
  exact ⟨t, ht, hin, hfits, hfull, fun ho hd => (hfits (callFits_of_length_le hcaps ho hd)).1⟩

end Sys2Proof.Machine
end

section
/-!
Calls of no element and of one (R117, R137, R154, R155, R158).
-/
namespace Sys2Proof.Machine

variable {s : State}

/-! The decode commands of such a call: begin, first code and end -/

theorem exec_decb (hp : s.phase = .idle) : exec .decb s = .next (beginCall .dec true s) :=
  inPhase_own (by decide) hp

theorem exec_dece (hp : s.phase = .dec) : exec .dece s = .next (decFinish s) :=
  inPhase_own (by decide) hp

/-- The first code of a call, known and with room, outputs its entry and inserts nothing (R131, step 3). -/
theorem exec_decc_first {code : Arg} {e : SymSeq} (hp : s.phase = .dec) (hf : s.firstFlag = true)
    (hr : revLookup code.toNat s.rev = some e) (hroom : s.olen + e.length ≤ s.obufCap) :
    exec (.decc code) s = .next { s with
      cur := e, obuf := wordsWritten e s.olen s.obuf, olen := s.olen + e.length, firstFlag := false,
      arb := .decFirst } := by
  have hresolve : resolveCode (codeOperand code) s = .entry e .decFirst := by
    rw [codeOperand, resolveCode, hr, hf]
    rfl
  have hstep : decStep code s = decEntry e .decFirst (encode (.decc code)) s := by rw [decStep, hresolve]
  refine (inPhase_own (by decide) hp).trans ?_
  rw [hstep, decEntry, if_neg (Nat.not_lt.mpr hroom), if_pos hf, decFirst, emitAll_of_room e s hroom, andThen_next]

/-! The reference functions -/

theorem encodeRef_nil : encodeRef [] = [] := rfl

/-- The one symbol is a hit, and its own code is flushed. -/
theorem encodeRef_singleton (a : Symbol) : encodeRef [a] = [a.toNat] := by
  have hcode := fwdLookup_seedDict_single a
  rw [encodeRef, encodeFrom_of_hit (by rw [List.nil_append, hcode]; rfl)]
  exact encodeFrom_nil (List.cons_ne_nil a []) hcode

/-! The engine's calls -/

/-- An input of at most one symbol fits the smallest capacities the spec allows (R5). -/
theorem encodeCall_of_length_le_one (h : s.Inv) (hp : s.phase = .idle) {x : SymSeq} (hx : x.length ≤ 1) :
    ∃ t, performCommands (encodeCommands x) s = .next t ∧ callResult t ((encodeRef x).map zextNat) ∧ t.nextCode = 256 := by
  obtain ⟨⟨hdict, -⟩, hobuf, -⟩ := h.caps
  have hle := length_encodeRef_le x
  obtain ⟨t, ht, -, hfits, -⟩ := encodeCall_refines x h.caps hp (fcause_eq_none h (by simp [hp]))
  rw [List.length_map] at hfits
  obtain ⟨hr, hn⟩ := hfits (callFits_of_length_le h.caps (by omega) (by omega))
  exact ⟨t, ht, hr, by omega⟩

theorem decodeCall_nil (hp : s.phase = .idle) (hn : s.fcause = .none) :
    ∃ t, performCommands (decodeCommands []) s = .next t ∧ callResult t [] ∧ t.nextCode = 256 := by
  rw [show decodeCommands [] = [.decb, .dece] from rfl, performCommands_of_exec (exec_decb hp),
    performCommands_of_exec (exec_dece rfl)]
  exact ⟨_, rfl, ⟨rfl, rfl, hn, holdsWords_nil rfl⟩, rfl⟩

theorem decodeCall_singleton (h : s.Inv) (hp : s.phase = .idle) {c : Nat} (hc : c < 256) :
    ∃ t, performCommands (decodeCommands [c]) s = .next t ∧ callResult t [BitVec.ofNat 32 c] ∧ t.nextCode = 256 := by
  have hn : s.fcause = .none := fcause_eq_none h (by simp [hp])
  have hcode : (BitVec.ofNat 24 c).toNat = c := by rw [BitVec.toNat_ofNat]; omega
  have hknown : revLookup (BitVec.ofNat 24 c).toNat seedDict = some [BitVec.ofNat 8 c] := by
    rw [hcode, revLookup_seedDict, if_pos hc]
  have hword : zextSymbol (BitVec.ofNat 8 c) = BitVec.ofNat 32 c := by
    apply BitVec.eq_of_toNat_eq
    simp only [zextSymbol, BitVec.toNat_setWidth, BitVec.toNat_ofNat]
    omega
  have hroom : 0 + 1 ≤ s.obufCap := h.caps.2.1
  rw [show decodeCommands [c] = [.decb, deccOf c, .dece] from rfl, performCommands_of_exec (exec_decb hp)]
  refine ⟨_, (performCommands_of_exec (exec_decc_first rfl rfl hknown hroom)).trans
    (performCommands_of_exec (exec_dece rfl)), ⟨rfl, rfl, hn, ?_⟩, rfl⟩
  exact hword ▸ holdsWords_emit (s := beginCall .dec true s) (holdsWords_nil rfl) rfl rfl

/-- Settles O57: the encode calls by refinement, the decode calls command by command. -/
theorem emptyAndSingletonCalls : Obligations.EmptyAndSingletonCalls := by
  refine ⟨encodeRef_nil, rfl, encodeRef_singleton, fun s h hp => ⟨?_, ?_, fun a => ?_, fun c => ?_⟩⟩
  · exact encodeCall_of_length_le_one h hp (x := []) (Nat.zero_le 1)
  · exact decodeCall_nil hp (fcause_eq_none h (by simp [hp]))
  · have hword : [a.setWidth 32] = (encodeRef [a]).map zextNat := by
      rw [encodeRef_singleton, List.map_singleton, zextNat, BitVec.ofNat_toNat]
    rw [hword]
    exact encodeCall_of_length_le_one h hp (Nat.le_refl 1)
  · exact decodeCall_singleton h hp

end Sys2Proof.Machine
end

section
/-!
The decode-side match arbiter (R133): its decision from `FIRST` and the comparison of the code with NEXT alone, on what R38 says of
the decode side between two codes.
-/
namespace Sys2Proof.Machine

variable {s : State} {code : Nat} {e : SymSeq} {a : Symbol}

/-! The arbiter by what the reverse lookup answers -/

theorem resolveCode_of_known (hr : revLookup code s.rev = some e) :
    resolveCode code s = .entry e (if s.firstFlag then .decFirst else .decKnown) := by
  rw [resolveCode, hr]

theorem resolveCode_of_unknown_first (hr : revLookup code s.rev = none) (hf : s.firstFlag = true) :
    resolveCode code s = .invalid := by
  rw [resolveCode, hr]
  exact if_pos hf

theorem resolveCode_of_unknown_subsequent (hr : revLookup code s.rev = none) (hf : s.firstFlag = false) :
    resolveCode code s = if code = s.nextCode then selfrefEntry s.cur else .invalid := by
  rw [resolveCode, hr]
  exact if_neg (ne_true_of_eq_false hf)

theorem selfrefEntry_of_head {u : SymSeq} (ha : u.head? = some a) : selfrefEntry u = .entry (u ++ [a]) .decSelfref := by
  obtain ⟨t, rfl⟩ := List.head?_eq_some_iff.mp ha
  rfl

/-- Where a decode call is between two codes: a grown `REV`, of which a call that has had no code has the seeds only, and else a
stored `CUR` (R38 items 1 to 5). -/
structure DecodeReady (s : State) : Prop where
  grown : GrownDict s.rev s.nextCode
  seedsOnly : s.firstFlag = true → s.nextCode = 256
  current : s.firstFlag = false → stored s.cur s.rev

theorem decodeReady_of_dec (h : s.Inv) (hp : s.phase = .dec) : DecodeReady s :=
  ⟨grownRev_of_dec h hp, fun hf => (h.curFirst hp hf).2.1, h.curDec hp⟩

namespace DecodeReady

theorem exists_known (h : DecodeReady s) (hc : code < s.nextCode) : ∃ e, revLookup code s.rev = some e :=
  Option.isSome_iff_exists.mp (h.grown.read_isSome_iff.mpr hc)

theorem unknown (h : DecodeReady s) (hc : s.nextCode ≤ code) : revLookup code s.rev = none :=
  Option.not_isSome_iff_eq_none.mp (mt h.grown.read_isSome_iff.mp (Nat.not_lt.mpr hc))

theorem exists_head_cur (h : DecodeReady s) (hf : s.firstFlag = false) : ∃ a, s.cur.head? = some a :=
  ⟨_, List.head?_eq_some_head (h.grown.ne_nil_of_stored (h.current hf))⟩

theorem resolveCode_seed (h : DecodeReady s) (hf : s.firstFlag = true) (hc : code < 256) :
    resolveCode code s = .entry [BitVec.ofNat 8 code] .decFirst := by
  rw [resolveCode_of_known (h.grown.read_seed hc), if_pos hf]

theorem resolveCode_known (h : DecodeReady s) (hf : s.firstFlag = false) (hc : code < s.nextCode) :
    ∃ e, e ≠ [] ∧ revLookup code s.rev = some e ∧ resolveCode code s = .entry e .decKnown := by
  obtain ⟨e, hr⟩ := h.exists_known hc
  exact ⟨e, h.grown.ne_nil_of_mem (mem_of_tableRead hr), hr, by simp [resolveCode_of_known hr, hf]⟩

theorem resolveCode_selfref (h : DecodeReady s) (hf : s.firstFlag = false) (hc : code = s.nextCode)
    (ha : s.cur.head? = some a) : resolveCode code s = .entry (s.cur ++ [a]) .decSelfref := by
  rw [resolveCode_of_unknown_subsequent (h.unknown hc.ge) hf, if_pos hc, selfrefEntry_of_head ha]

/-- A code beyond those the case of `FIRST` allows resolves by no case. -/
theorem resolveCode_invalid (h : DecodeReady s)
    (hc : s.firstFlag = true ∧ 256 ≤ code ∨ s.firstFlag = false ∧ s.nextCode < code) : resolveCode code s = .invalid := by
  rcases hc with ⟨hf, hc⟩ | ⟨hf, hc⟩
  · exact resolveCode_of_unknown_first (h.unknown ((h.seedsOnly hf).trans_le hc)) hf
  · rw [resolveCode_of_unknown_subsequent (h.unknown hc.le) hf, if_neg hc.ne']

/-- The arbiter is total (R133). -/
theorem resolves (h : DecodeReady s) (code : Nat) :
    resolveCode code s = .invalid ∨ ∃ e b, resolveCode code s = .entry e b := by
  cases hf : s.firstFlag with
  | true =>
    rcases Nat.lt_or_ge code 256 with hc | hc
    · exact .inr ⟨_, _, h.resolveCode_seed hf hc⟩
    · exact .inl (h.resolveCode_invalid (.inl ⟨hf, hc⟩))
  | false =>
    rcases lt_trichotomy code s.nextCode with hc | hc | hc
    · obtain ⟨e, -, -, he⟩ := h.resolveCode_known hf hc
      exact .inr ⟨e, _, he⟩
    · obtain ⟨a, ha⟩ := h.exists_head_cur hf
      exact .inr ⟨_, _, h.resolveCode_selfref hf hc ha⟩
    · exact .inl (h.resolveCode_invalid (.inr ⟨hf, hc⟩))

theorem exists_head_of_resolveCode (h : DecodeReady s) {b : Arb} (he : resolveCode code s = .entry e b) :
    ∃ x, e.head? = some x := by
  have hknown (hr : revLookup code s.rev = some e) : ∃ x, e.head? = some x :=
    ⟨_, List.head?_eq_some_head (h.grown.ne_nil_of_mem (mem_of_tableRead hr))⟩
  rcases resolveCode_eq_entry he with ⟨-, hr, -⟩ | ⟨-, hr, -⟩ | ⟨-, -, -, -, x, hx, rfl⟩
  · exact hknown hr
  · exact hknown hr
  · exact ⟨x, by rw [List.head?_append, hx, Option.some_or]⟩

end DecodeReady

/-- Settles O25: under the invariant the call is ready for its next code, and the table is the arbiter's five cases there. -/
theorem decodeArbiterTable : Obligations.DecodeArbiterTable := by
  intro s code h hp
  have hready := decodeReady_of_dec h hp
  refine ⟨fun hf hc => hready.resolveCode_seed hf (Nat.lt_succ_of_le hc),
    fun hf hc => hready.resolveCode_invalid (.inl ⟨hf, hc⟩), hready.resolveCode_known, fun hf hc => ?_,
    fun hf hc => hready.resolveCode_invalid (.inr ⟨hf, hc⟩)⟩
  obtain ⟨a, ha⟩ := hready.exists_head_cur hf
  exact ⟨a, ha, hready.resolveCode_selfref hf hc ha⟩

end Sys2Proof.Machine
end

section
/-!
The decode commands in each of their cases (R130 to R132): the next state of `DECC` on a code that resolves by no case, on one
without room, and on one with room.
-/
namespace Sys2Proof.Machine

variable {s : State} {code : Arg} {e : SymSeq} {b : Arb} {x : Symbol}

theorem exec_decc (hp : s.phase = .dec) (code : Arg) : exec (.decc code) s = decStep code s :=
  inPhase_own (by decide) hp

theorem exec_decc_invalid (hp : s.phase = .dec) (hr : resolveCode code.toNat s = .invalid) :
    exec (.decc code) s = .next (faultEntry .invalidCode (zextArg code) s) := by
  rw [exec_decc hp, decStep, codeOperand, hr, raiseFault]

theorem exec_decc_entry (hp : s.phase = .dec) (he : resolveCode code.toNat s = .entry e b) :
    exec (.decc code) s = decEntry e b (encode (.decc code)) s := by
  rw [exec_decc hp, decStep, codeOperand, he]

theorem decEntry_of_obufFull (b : Arb) (w : Word) (ho : s.obufCap < s.olen + e.length) :
    decEntry e b w s = .next (faultEntry .obufFull w s) :=
  if_pos ho

theorem decEntry_of_first (b : Arb) (w : Word) (ho : s.olen + e.length ≤ s.obufCap) (hf : s.firstFlag = true) :
    decEntry e b w s = .next { s with
      cur := e, obuf := wordsWritten e s.olen s.obuf, olen := s.olen + e.length, firstFlag := false, arb := b } := by
  rw [decEntry, if_neg (Nat.not_lt.mpr ho), if_pos hf, decFirst, emitAll_of_room e s ho, andThen_next]

theorem decEntry_of_dictFull (b : Arb) (w : Word) (ho : s.olen + e.length ≤ s.obufCap) (hf : s.firstFlag = false)
    (hn : s.nextCode = s.dictCap) : decEntry e b w s = .next (faultEntry .dictFull w s) := by
  rw [decEntry, if_neg (Nat.not_lt.mpr ho), if_neg (ne_true_of_eq_false hf), if_pos hn, raiseFault]

theorem decEntry_of_subsequent (b : Arb) (w : Word) (ho : s.olen + e.length ≤ s.obufCap) (hf : s.firstFlag = false)
    (hn : s.nextCode < s.dictCap) (hfree : revLookup s.nextCode s.rev = none) (hx : e.head? = some x) :
    decEntry e b w s = .next { s with
      rev := tableWrite s.nextCode (s.cur ++ [x]) s.rev, nextCode := s.nextCode + 1, cur := e,
      obuf := wordsWritten e s.olen s.obuf, olen := s.olen + e.length, arb := b } := by
  obtain ⟨t, rfl⟩ := List.head?_eq_some_iff.mp hx
  rw [decEntry, if_neg (Nat.not_lt.mpr ho), if_neg (ne_true_of_eq_false hf), if_neg hn.ne]
  exact andThen_eq_next.mpr ⟨_, emitAll_of_room _ s ho, andThen_eq_next.mpr ⟨_, revInsert_eq_next.mpr ⟨hn, hfree, rfl⟩, rfl⟩⟩

/-! The commands under the invariant -/

/-- Settles O24: `DECB` in IDLE is the begin of a call. -/
theorem decbBeginsDecodeCall : Obligations.DecbBeginsDecodeCall :=
  fun _ => exec_decb

/-- Settles O29: `DECE` in DEC is the end of the call. -/
theorem deceFinishesDecodeCall : Obligations.DeceFinishesDecodeCall :=
  fun _ => exec_dece

/-- A seed's symbol, as it is output, is its code. -/
theorem zextSymbol_setWidth {code : Arg} (hc : code.toNat ≤ 255) : zextSymbol (code.setWidth 8) = code.setWidth 32 := by
  apply BitVec.eq_of_toNat_eq
  simp only [zextSymbol, BitVec.toNat_setWidth]
  omega

/-- Settles O26: no word is valid yet, so there is room for the one word of a seed's entry, written at `OLEN`. -/
theorem deccFirstOutputsSymbol : Obligations.DeccFirstOutputsSymbol := by
  intro s code h hp hf hc
  obtain ⟨-, -, holen⟩ := h.curFirst hp hf
  have hknown : revLookup code.toNat s.rev = some [code.setWidth 8] :=
    (grownRev_of_dec h hp).read_seed (Nat.lt_succ_of_le hc)
  have hroom : s.olen + [code.setWidth 8].length ≤ s.obufCap := by
    rw [holen]
    exact h.caps.2.1
  refine ⟨_, exec_decc_first hp hf hknown hroom, ?_, fun i hi => tableRead_write_ne hi _ _⟩
  exact zextSymbol_setWidth hc ▸ tableRead_write_same _ _ _

/-- A subsequent code with room (R131, step 4), whichever way it resolves: one entry stored at `NEXT`, which no code has, and the
words of its own entry output from `OLEN` on. -/
theorem exec_decc_subsequent (h : s.Inv) (hp : s.phase = .dec) (hf : s.firstFlag = false)
    (he : resolveCode code.toNat s = .entry e b) (hx : e.head? = some x) (ho : s.olen + e.length ≤ s.obufCap)
    (hn : s.nextCode ≠ s.dictCap) :
    ∃ r o, exec (.decc code) s = .next { s with
        rev := r, nextCode := s.nextCode + 1, cur := e, obuf := o, olen := s.olen + e.length, arb := b } ∧
      (∀ k, k < e.length → tableRead (s.olen + k) o = e[k]?.map (fun a => a.setWidth 32)) ∧
      (∀ i, i < s.olen ∨ s.olen + e.length ≤ i → tableRead i o = tableRead i s.obuf) ∧
      revLookup s.nextCode r = some (s.cur ++ [x]) ∧ ∀ c, c ≠ s.nextCode → revLookup c r = revLookup c s.rev :=
  ⟨_, _, (exec_decc_entry hp he).trans (decEntry_of_subsequent b _ ho hf (nextCode_lt_dictCap h hn)
      (grownRev_of_dec h hp).read_next hx),
    fun _ hk => tableRead_wordsWritten_in e s.olen s.obuf hk, fun _ hi => tableRead_wordsWritten_out e s.olen s.obuf hi,
    tableRead_write_same _ _ _, fun _ hc => tableRead_write_ne hc _ _⟩

/-- Settles O27: a subsequent code that resolves to its own entry. -/
theorem deccKnownOutputsEntry : Obligations.DeccKnownOutputsEntry := by
  intro s code e h hp hf hr ho hn
  have he : resolveCode code.toNat s = .entry e .decKnown := by simp [resolveCode_of_known hr, hf]
  obtain ⟨x, hx⟩ := (decodeReady_of_dec h hp).exists_head_of_resolveCode he
  obtain ⟨r, o, hstep⟩ := exec_decc_subsequent h hp hf he hx ho hn
  exact ⟨x, r, o, hx, hstep⟩

/-- Settles O28: a subsequent code that resolves to `CUR` and its first symbol, which is the first symbol of that entry too. -/
theorem deccSelfrefDefinesItsCode : Obligations.DeccSelfrefDefinesItsCode := by
  intro s code h hp hf hc ho hn
  have hready := decodeReady_of_dec h hp
  obtain ⟨x, hx⟩ := hready.exists_head_cur hf
  have hlen : (s.cur ++ [x]).length = s.cur.length + 1 := List.length_append
  have hhead : (s.cur ++ [x]).head? = some x := by rw [List.head?_append, hx, Option.some_or]
  obtain ⟨r, o, hstep⟩ :=
    exec_decc_subsequent h hp hf (hready.resolveCode_selfref hf hc hx) hhead (hlen ▸ ho) hn
  rw [hlen] at hstep
  exact ⟨x, r, o, hx, hc ▸ hstep⟩

end Sys2Proof.Machine
end

section
/-!
The reference decoder (R134), from where an engine in phase DEC stands: what it makes of the codes still to come, one code at a
time.
-/
namespace Sys2Proof.Machine

variable {s : State} {c : Nat} {e : SymSeq} {b : Arb} {x : Symbol}

theorem prependOutput_append (e f : SymSeq) (r : RefDecoded) :
    prependOutput (e ++ f) r = prependOutput e (prependOutput f r) := by
  cases r with
  | symbols y => exact congrArg RefDecoded.symbols (List.append_assoc e f y)
  | invalidCode c => rfl

theorem prependOutput_eq_symbols {r : RefDecoded} {y : SymSeq} :
    prependOutput e r = .symbols y ↔ ∃ z, r = .symbols z ∧ e ++ z = y := by
  cases r <;> simp [prependOutput]

/-- The reference decoder on the codes `cs` still to come, from the engine's `REV`, `NEXT` and `CUR`: the whole function where
the call has had no code. -/
def decodeRest (s : State) (cs : List Nat) : RefDecoded :=
  if s.firstFlag = true then decodeRef cs else decodeFrom s.rev s.nextCode s.cur cs

theorem decodeRest_of_first (hf : s.firstFlag = true) (cs : List Nat) : decodeRest s cs = decodeRef cs :=
  if_pos hf

theorem decodeRest_of_subsequent (hf : s.firstFlag = false) (cs : List Nat) :
    decodeRest s cs = decodeFrom s.rev s.nextCode s.cur cs :=
  if_neg (ne_true_of_eq_false hf)

@[simp] theorem decodeRest_nil (s : State) : decodeRest s [] = .symbols [] := by
  unfold decodeRest
  split <;> rfl

/-- A map that holds the codes 0 to 255 only is the seed. -/
theorem GrownDict.eq_seed {d : Dict} (h : GrownDict d 256) : d = seedDict := by
  have hlen : d.length = 256 := by simpa using congrArg List.length h.keys
  rw [← h.seeds, List.take_of_length_le hlen.le]

namespace DecodeReady

theorem rev_of_first (h : DecodeReady s) (hf : s.firstFlag = true) : s.rev = seedDict :=
  (h.seedsOnly hf ▸ h.grown).eq_seed

/-- The first code resolves in the reference as in the engine. -/
theorem decodeRest_first (h : DecodeReady s) (hf : s.firstFlag = true) (he : resolveCode c s = .entry e b) (cs : List Nat) :
    decodeRest s (c :: cs) = prependOutput e (decodeFrom s.rev s.nextCode e cs) := by
  rcases resolveCode_eq_entry he with ⟨-, hr, -⟩ | ⟨hf', -⟩ | ⟨hf', -⟩
  · rw [h.rev_of_first hf] at hr ⊢
    rw [decodeRest_of_first hf, decodeRef, hr, h.seedsOnly hf]
    rfl
  · exact absurd hf (ne_true_of_eq_false hf')
  · exact absurd hf (ne_true_of_eq_false hf')

theorem refEntry_of_resolveCode (hf : s.firstFlag = false) (he : resolveCode c s = .entry e b) :
    refEntry c s.rev s.nextCode s.cur = some e := by
  rcases resolveCode_eq_entry he with ⟨hf', -⟩ | ⟨-, hr, -⟩ | ⟨-, hr, hc, -, x, hx, rfl⟩
  · exact absurd hf' (ne_true_of_eq_false hf)
  · rw [refEntry, hr]
  · obtain ⟨u, hu⟩ := List.head?_eq_some_iff.mp hx
    rw [refEntry, hr, hu]
    exact if_pos hc

/-- A subsequent code resolves in the reference as in the engine, and both insert the same entry. -/
theorem decodeRest_subsequent (h : DecodeReady s) (hf : s.firstFlag = false) (he : resolveCode c s = .entry e b)
    (hx : e.head? = some x) (cs : List Nat) :
    decodeRest s (c :: cs) =
      prependOutput e (decodeFrom (tableWrite s.nextCode (s.cur ++ [x]) s.rev) (s.nextCode + 1) e cs) := by
  obtain ⟨u, rfl⟩ := List.head?_eq_some_iff.mp hx
  rw [decodeRest_of_subsequent hf, decodeFrom, refEntry_of_resolveCode hf he, h.grown.write_next]
  rfl

/-- What the reference makes of a resolved code begins with its entry. -/
theorem decodeRest_entry (h : DecodeReady s) (he : resolveCode c s = .entry e b) (cs : List Nat) :
    ∃ d n, decodeRest s (c :: cs) = prependOutput e (decodeFrom d n e cs) := by
  cases hf : s.firstFlag with
  | true => exact ⟨_, _, h.decodeRest_first hf he cs⟩
  | false =>
    obtain ⟨x, hx⟩ := h.exists_head_of_resolveCode he
    exact ⟨_, _, h.decodeRest_subsequent hf he hx cs⟩

/-- A code that resolves by no case is the reference's error. -/
theorem decodeRest_invalid (h : DecodeReady s) (hr : resolveCode c s = .invalid) (cs : List Nat) :
    decodeRest s (c :: cs) = .invalidCode c := by
  have hunknown : revLookup c s.rev = none := by
    cases hrev : revLookup c s.rev with
    | none => rfl
    | some e => cases hr.symm.trans (resolveCode_of_known hrev)
  cases hf : s.firstFlag with
  | true => rw [decodeRest_of_first hf, decodeRef, ← h.rev_of_first hf, hunknown]
  | false =>
    obtain ⟨a, ha⟩ := h.exists_head_cur hf
    have hc : c ≠ s.nextCode := fun hc => by cases hr.symm.trans (h.resolveCode_selfref hf hc ha)
    have hnone : refEntry c s.rev s.nextCode s.cur = none := by
      rw [refEntry, hunknown]
      exact if_neg hc
    rw [decodeRest_of_subsequent hf, decodeFrom, hnone]

end DecodeReady

end Sys2Proof.Machine
end

section
/-!
A decode call refines the reference decoder code by code (R136): where a call stands after `DECB` and some codes, and what the next
code makes of it.
-/
namespace Sys2Proof.Machine

variable {s t : State} {cs : List Nat} {y : SymSeq} {c : Nat} {e : SymSeq} {b : Arb}

/-- The symbols of an entry written at `OLEN` are the next valid words. -/
theorem holdsWords_emitAll {ws : List Word} (h : holdsWords s ws) (hl : t.olen = s.olen + e.length)
    (ho : t.obuf = wordsWritten e s.olen s.obuf) : holdsWords t (ws ++ e.map zextSymbol) := by
  obtain ⟨hlen, hread⟩ := h
  refine ⟨by rw [hl, hlen, List.length_append, List.length_map], fun i => ?_⟩
  rw [obufRead, hl, ho]
  rcases Nat.lt_or_ge i s.olen with hi | hi
  · rw [if_pos (by omega), tableRead_wordsWritten_out _ _ _ (.inl hi), List.getElem?_append_left (by omega), ← hread,
      obufRead, if_pos hi]
  obtain ⟨k, rfl⟩ := Nat.exists_eq_add_of_le hi
  rw [List.getElem?_append_right (by omega), hlen, Nat.add_sub_cancel_left, List.getElem?_map, ← hlen]
  rcases Nat.lt_or_ge k e.length with hk | hk
  · rw [if_pos (by omega), tableRead_wordsWritten_in _ _ _ hk]
  · rw [if_neg (by omega), List.getElem?_eq_none hk, Option.map_none]

/-- A decode call in progress, with the symbols `y` output for the codes `cs`. -/
structure DecodeCall (s : State) (cs : List Nat) (y : SymSeq) : Prop where
  phase : s.phase = .dec
  noCause : s.fcause = .none
  words : holdsWords s (y.map zextSymbol)
  room : s.olen ≤ s.obufCap
  codes : s.nextCode ≤ s.dictCap
  ready : DecodeReady s
  first : s.firstFlag = true ↔ cs = []
  counted : s.nextCode = 256 + (cs.length - 1)
  refines : ∀ more, decodeRef (cs ++ more) = prependOutput y (decodeRest s more)

namespace DecodeCall

theorem withHostIn (h : DecodeCall s cs y) (l : List HostOp) : DecodeCall { s with hostIn := l } cs y :=
  ⟨h.phase, h.noCause, h.words, h.room, h.codes, ⟨h.ready.grown, h.ready.seedsOnly, h.ready.current⟩, h.first, h.counted,
    h.refines⟩

theorem begin (hc : capsInRange s) (hn : s.fcause = .none) : DecodeCall (beginCall .dec true s) [] [] where
  phase := rfl
  noCause := hn
  words := holdsWords_nil rfl
  room := Nat.zero_le _
  codes := hc.1.1
  ready := ⟨GrownDict.seed, fun _ => rfl, by simp⟩
  first := by simp
  counted := rfl
  refines := fun more => by
    rw [decodeRest_of_first rfl, List.nil_append]
    cases decodeRef more <;> rfl

theorem olen_eq (h : DecodeCall s cs y) : s.olen = y.length :=
  h.words.1.trans (List.length_map _)

theorem decodeRef_eq (h : DecodeCall s cs y) : decodeRef cs = .symbols y := by
  simpa [prependOutput] using h.refines []

theorem ne_nil_of_subsequent (h : DecodeCall s cs y) (hf : s.firstFlag = false) : 0 < cs.length :=
  List.length_pos_of_ne_nil fun hnil => absurd (h.first.mpr hnil) (ne_true_of_eq_false hf)

theorem refines_cons (h : DecodeCall s cs y) (c : Nat) (more : List Nat) :
    decodeRef (cs ++ [c] ++ more) = prependOutput y (decodeRest s (c :: more)) := by
  rw [← h.refines, List.append_assoc, List.singleton_append]

/-- A code that resolves by no case is the reference's error, whatever comes after it. -/
theorem decodeRef_of_invalid (h : DecodeCall s cs y) (hr : resolveCode c s = .invalid) (more : List Nat) :
    decodeRef (cs ++ [c] ++ more) = .invalidCode c := by
  rw [h.refines_cons, h.ready.decodeRest_invalid hr, prependOutput]

/-- A code the reference rejects resolves by no case. -/
theorem resolveCode_invalid_of_decodeRef (h : DecodeCall s cs y) (hr : decodeRef (cs ++ [c]) = .invalidCode c) :
    resolveCode c s = .invalid := by
  refine (h.ready.resolves c).resolve_right ?_
  rintro ⟨e, b, he⟩
  obtain ⟨d, n, hrest⟩ := h.ready.decodeRest_entry he []
  have hsymbols : decodeRef (cs ++ [c]) = .symbols (y ++ (e ++ [])) := by rw [h.refines, hrest]; rfl
  cases hr.symm.trans hsymbols

/-- The first code with room is output; the call goes on. -/
theorem accept_first (h : DecodeCall s cs y) (hf : s.firstFlag = true) (he : resolveCode c s = .entry e b)
    (ho : s.olen + e.length ≤ s.obufCap) :
    DecodeCall { s with
      cur := e, obuf := wordsWritten e s.olen s.obuf, olen := s.olen + e.length, firstFlag := false, arb := b }
      (cs ++ [c]) (y ++ e) where
  phase := h.phase
  noCause := h.noCause
  words := List.map_append ▸ holdsWords_emitAll h.words rfl rfl
  room := ho
  codes := h.codes
  ready := ⟨h.ready.grown, by simp, fun _ => stored_of_resolveCode_first (s := s) he hf⟩
  first := by simp
  counted := by simp [h.ready.seedsOnly hf, h.first.mp hf]
  refines := fun more => by
    rw [h.refines_cons, h.ready.decodeRest_first hf he, prependOutput_append, decodeRest_of_subsequent]
    rfl

/-- A subsequent code with room is output and an entry inserted; the call goes on. -/
theorem accept_subsequent (h : DecodeCall s cs y) (hf : s.firstFlag = false) (he : resolveCode c s = .entry e b) {x : Symbol}
    (hx : e.head? = some x) (ho : s.olen + e.length ≤ s.obufCap) (hn : s.nextCode < s.dictCap) :
    DecodeCall { s with
      rev := tableWrite s.nextCode (s.cur ++ [x]) s.rev, nextCode := s.nextCode + 1, cur := e,
      obuf := wordsWritten e s.olen s.obuf, olen := s.olen + e.length, arb := b } (cs ++ [c]) (y ++ e) where
  phase := h.phase
  noCause := h.noCause
  words := List.map_append ▸ holdsWords_emitAll h.words rfl rfl
  room := ho
  codes := hn
  ready := ⟨h.ready.grown.insert (h.ready.current hf) x, by simp [hf],
    fun _ => stored_of_resolveCode_insert h.ready.grown he hx⟩
  first := by simp [hf]
  counted := by
    have hpos := h.ne_nil_of_subsequent hf
    have hcount := h.counted
    simp only [List.length_append, List.length_singleton]
    omega
  refines := fun more => by
    rw [h.refines_cons, h.ready.decodeRest_subsequent hf he hx, prependOutput_append, decodeRest_of_subsequent]
    exact hf

/-- What does not fit with one more code does not fit with all that may follow it (R96). -/
theorem not_callFits (h : DecodeCall s cs y) (he : resolveCode c s = .entry e b)
    (hfull : s.obufCap < s.olen + e.length ∨ s.firstFlag = false ∧ s.nextCode = s.dictCap) (more : List Nat) {z : SymSeq}
    (hz : decodeRef (cs ++ [c] ++ more) = .symbols z) : ¬ callFits s z.length (cs ++ [c] ++ more).length := by
  obtain ⟨d, n, hr⟩ := h.ready.decodeRest_entry he more
  rw [h.refines_cons, hr, ← prependOutput_append] at hz
  obtain ⟨u, -, rfl⟩ := prependOutput_eq_symbols.mp hz
  have holen := h.olen_eq
  have hcount := h.counted
  simp only [callFits, List.length_append, List.length_singleton]
  rcases hfull with ho | ⟨hf, hn⟩
  · omega
  · have hpos := h.ne_nil_of_subsequent hf
    omega

end DecodeCall

/-- A call ended in INVALID_CODE with the code `c` (R135, R172): FAULT, the code recorded, no result. -/
abbrev invalidCodeFailure (c : Nat) (t : State) : Prop :=
  t.phase = .fault ∧ t.fcause = .invalidCode ∧ t.finfo = BitVec.ofNat 32 c ∧ t.arb = .decInvalid ∧ t.olen = 0 ∧
    t.doneFlag = false

/-- Where a decode call begun in `s` is after the codes `cs`: in progress, or in a fault, and then what the reference makes of
every code sequence that begins with `cs` (R136). -/
inductive DecodeReaches (s : State) (cs : List Nat) (t : State) : Prop
  | running (y : SymSeq) (call : DecodeCall t cs y) (obufCap : t.obufCap = s.obufCap) (dictCap : t.dictCap = s.dictCap)
  | invalid (c : Nat) (fits : c < 2 ^ 24) (failure : invalidCodeFailure c t)
      (rejects : ∀ more, decodeRef (cs ++ more) = .invalidCode c)
  | full (failure : capacityFailure t)
      (tooLarge : ∀ more z, decodeRef (cs ++ more) = .symbols z → ¬ callFits s z.length (cs ++ more).length)

theorem toNat_ofNat_code (hc : c < 2 ^ 24) : (BitVec.ofNat 24 c).toNat = c :=
  (BitVec.toNat_ofNat c 24).trans (Nat.mod_eq_of_lt hc)

theorem zextArg_ofNat (hc : c < 2 ^ 24) : zextArg (BitVec.ofNat 24 c) = BitVec.ofNat 32 c := by
  apply BitVec.eq_of_toNat_eq
  simp only [zextArg, BitVec.toNat_setWidth, BitVec.toNat_ofNat]
  omega

namespace DecodeCall

theorem exec_invalid (h : DecodeCall s cs y) (hc : c < 2 ^ 24) (hr : resolveCode c s = .invalid) :
    exec (deccOf c) s = .next (faultEntry .invalidCode (BitVec.ofNat 32 c) s) := by
  rw [deccOf, exec_decc_invalid h.phase ((toNat_ofNat_code hc).symm ▸ hr), zextArg_ofNat hc]

theorem exec_entry (h : DecodeCall s cs y) (hc : c < 2 ^ 24) (he : resolveCode c s = .entry e b) :
    exec (deccOf c) s = decEntry e b (encode (deccOf c)) s :=
  exec_decc_entry h.phase ((toNat_ofNat_code hc).symm ▸ he)

/-- A resolved code without room is a capacity fault, and with room the call goes on. -/
theorem exec_entry_cases (h : DecodeCall s cs y) (hc : c < 2 ^ 24) (he : resolveCode c s = .entry e b) :
    (∃ k w, (k = .obufFull ∨ k = .dictFull) ∧ exec (deccOf c) s = .next (faultEntry k w s) ∧
      (s.obufCap < s.olen + e.length ∨ s.firstFlag = false ∧ s.nextCode = s.dictCap)) ∨
    ∃ t, exec (deccOf c) s = .next t ∧ DecodeCall t (cs ++ [c]) (y ++ e) ∧ t.obufCap = s.obufCap ∧ t.dictCap = s.dictCap := by
  have hstep := h.exec_entry hc he
  rcases Nat.lt_or_ge s.obufCap (s.olen + e.length) with ho | ho
  · exact .inl ⟨_, _, .inl rfl, hstep.trans (decEntry_of_obufFull b _ ho), .inl ho⟩
  cases hf : s.firstFlag with
  | true => exact .inr ⟨_, hstep.trans (decEntry_of_first b _ ho hf), h.accept_first hf he ho, rfl, rfl⟩
  | false =>
    by_cases hn : s.nextCode = s.dictCap
    · exact .inl ⟨_, _, .inr rfl, hstep.trans (decEntry_of_dictFull b _ ho hf hn), .inr ⟨rfl, hn⟩⟩
    · have hlt := lt_of_le_of_ne h.codes hn
      obtain ⟨x, hx⟩ := h.ready.exists_head_of_resolveCode he
      exact .inr ⟨_, hstep.trans (decEntry_of_subsequent b _ ho hf hlt h.ready.grown.read_next hx),
        h.accept_subsequent hf he hx ho hlt, rfl, rfl⟩

end DecodeCall

namespace DecodeReaches

theorem withHostIn (h : DecodeReaches s cs t) (l : List HostOp) : DecodeReaches s cs { t with hostIn := l } := by
  cases h with
  | running y call ho hd => exact .running y (call.withHostIn l) ho hd
  | invalid c hc hfail hrej => exact .invalid c hc hfail hrej
  | full hfail hlarge => exact .full hfail hlarge

/-- A fault is the end of the call: more codes leave it as it is. -/
theorem append_of_fault (h : DecodeReaches s cs t) (hf : t.phase = .fault) (ds : List Nat) : DecodeReaches s (cs ++ ds) t := by
  cases h with
  | running y call ho hd => cases call.phase.symm.trans hf
  | invalid c hc hfail hrej => exact .invalid c hc hfail fun more => by rw [List.append_assoc, hrej]
  | full hfail hlarge =>
    refine .full hfail fun more z => ?_
    rw [List.append_assoc]
    exact hlarge (ds ++ more) z

theorem step (h : DecodeReaches s cs t) (hc : c < 2 ^ 24) :
    ∃ u, exec (deccOf c) t = .next u ∧ DecodeReaches s (cs ++ [c]) u := by
  by_cases hf : t.phase = .fault
  · exact ⟨t, exec_of_fault hf (by simp [deccOf]), h.append_of_fault hf [c]⟩
  cases h with
  | invalid d hd hfail hrej => exact absurd hfail.1 hf
  | full hfail hlarge => exact absurd hfail.1 hf
  | running y call ho hd =>
    rcases call.ready.resolves c with hr | ⟨e, b, he⟩
    · exact ⟨_, call.exec_invalid hc hr, .invalid c hc ⟨rfl, rfl, rfl, rfl, rfl, rfl⟩ (call.decodeRef_of_invalid hr)⟩
    rcases call.exec_entry_cases hc he with ⟨k, w, hk, hstep, hfull⟩ | ⟨u, hstep, hu, huo, hud⟩
    · refine ⟨_, hstep, .full ⟨rfl, hk, rfl, rfl⟩ fun more z hz => ?_⟩
      simpa only [callFits, ho, hd] using call.not_callFits he hfull more hz
    · exact ⟨u, hstep, .running _ hu (huo.trans ho) (hud.trans hd)⟩

/-- The codes of a call, by induction on them. -/
theorem performCodes (h : DecodeReaches s cs t) (ds : List Nat) (hds : ∀ d ∈ ds, d < 2 ^ 24) (rest : List Instr) :
    ∃ u, performCommands (ds.map deccOf ++ rest) t = performCommands rest u ∧ DecodeReaches s (cs ++ ds) u := by
  induction ds generalizing cs t with
  | nil => exact ⟨t, rfl, (List.append_nil cs).symm ▸ h⟩
  | cons d ds ih =>
    obtain ⟨hd, hds⟩ := List.forall_mem_cons.mp hds
    obtain ⟨u, hstep, hu⟩ := (h.withHostIn (hostCmds (ds.map deccOf ++ rest))).step hd
    obtain ⟨v, hv, hreach⟩ := ih hu hds
    exact ⟨v, (performCommands_of_exec hstep).trans hv, List.append_cons cs d ds ▸ hreach⟩

end DecodeReaches

/-- `DECB` and codes that fit a word, whatever the host issues next: `DECB` puts the engine where the reference starts. -/
theorem decodeCodes_reach {s : State} (hcaps : capsInRange s) (hp : s.phase = .idle) (hn : s.fcause = .none) (cs : List Nat)
    (hcs : ∀ c ∈ cs, c < 2 ^ 24) (rest : List Instr) :
    ∃ t, performCommands (.decb :: (cs.map deccOf ++ rest)) s = performCommands rest t ∧ DecodeReaches s cs t := by
  rw [performCommands_of_exec (exec_decb hp)]
  have hbegin := DecodeCall.begin (s := { s with hostIn := hostCmds (cs.map deccOf ++ rest) }) hcaps hn
  exact DecodeReaches.performCodes (s := s) (cs := []) (.running [] hbegin rfl rfl) cs hcs rest

end Sys2Proof.Machine
end

section
/-!
Whole decode calls (R135, R136): what `DECE` makes of where the codes have brought the call.
-/
namespace Sys2Proof.Machine

variable {s t : State} {cs : List Nat}

/-- The offending code is read exactly (R172). -/
theorem toNat_finfo_of_invalidCode {c : Nat} (hc : c < 2 ^ 24) (h : invalidCodeFailure c t) : t.finfo.toNat = c := by
  obtain ⟨-, -, hinfo, -⟩ := h
  exact hinfo ▸ toNat_zextNat (by omega)

theorem decodeCommands_eq (cs : List Nat) : decodeCommands cs = .decb :: (cs.map deccOf ++ [.dece]) := rfl

/-- A decode call begun in `s` has ended in `t` with the result the reference gives, for which the capacities suffice (R136). -/
abbrev decodeSucceeds (s : State) (cs : List Nat) (t : State) : Prop :=
  ∃ y, decodeRef cs = .symbols y ∧ callFits s y.length cs.length ∧ callResult t (y.map zextSymbol) ∧
    t.nextCode = 256 + (cs.length - 1)

theorem DecodeCall.callFits {y : SymSeq} (h : DecodeCall t cs y) (ho : t.obufCap = s.obufCap) (hd : t.dictCap = s.dictCap) :
    callFits s y.length cs.length :=
  ⟨h.olen_eq ▸ ho ▸ h.room, h.counted ▸ hd ▸ h.codes⟩

theorem DecodeCall.finish {y : SymSeq} (h : DecodeCall t cs y) : callResult (decFinish t) (y.map zextSymbol) :=
  ⟨rfl, rfl, h.noCause, h.words⟩

/-- The call has ended where the codes have brought it to a fault, and else `DECE` ends it well. -/
theorem DecodeReaches.perform_dece (h : DecodeReaches s cs t) :
    ∃ u, performCommands [.dece] t = .next u ∧ u.hostIn = [] ∧
      (u.phase = .fault ∧ DecodeReaches s cs u ∨ decodeSucceeds s cs u) := by
  have hq := h.withHostIn []
  by_cases hf : t.phase = .fault
  · exact ⟨_, performCommands_of_fault hf (by simp), rfl, .inl ⟨hf, hq⟩⟩
  cases hq with
  | running y call ho hd =>
    exact ⟨_, performCommands_of_exec (exec_dece call.phase), rfl,
      .inr ⟨y, call.decodeRef_eq, call.callFits ho hd, call.finish, call.counted⟩⟩
  | invalid c hc hfail hrej => exact absurd hfail.1 hf
  | full hfail hlarge => exact absurd hfail.1 hf

theorem decodeCall_ends (hcaps : capsInRange s) (hp : s.phase = .idle) (hn : s.fcause = .none)
    (hcs : ∀ c ∈ cs, c < 2 ^ 24) :
    ∃ t, performCommands (decodeCommands cs) s = .next t ∧ t.hostIn = [] ∧
      (t.phase = .fault ∧ DecodeReaches s cs t ∨ decodeSucceeds s cs t) := by
  obtain ⟨t, ht, hreach⟩ := decodeCodes_reach hcaps hp hn cs hcs [.dece]
  rw [decodeCommands_eq, ht]
  exact hreach.perform_dece

/-- Settles O48: the call ends with the reference's result, in the reference's error, or in a capacity fault, which a sequence
the capacities suffice for excludes. -/
theorem decodeCallRefinesReference : Obligations.DecodeCallRefinesReference := by
  intro s cs hcaps hp hn hcs
  obtain ⟨t, ht, hin, hend⟩ := decodeCall_ends hcaps hp hn hcs
  refine ⟨t, ht, hin, ?_⟩
  rcases hend with ⟨hf, hreach⟩ | ⟨y, hy, hfits, hresult, hnext⟩
  · cases hreach with
    | running y call ho hd => cases call.phase.symm.trans hf
    | invalid c hc hfail hrej =>
      have href : decodeRef cs = .invalidCode c := by simpa using hrej []
      refine ⟨fun y hy => (by cases hy.symm.trans href), fun _ => ?_⟩
      rw [href, toNat_finfo_of_invalidCode hc hfail]
    | full hfail hlarge =>
      refine ⟨fun y hy => ⟨fun hfits => ?_, fun _ => hfail⟩, fun hc => ?_⟩
      · exact absurd hfits (by simpa using hlarge [] y (by simpa using hy))
      · obtain ⟨-, hcause, -⟩ := hfail
        simp [hc] at hcause
  · obtain ⟨hidle, hdone, hcause, hwords⟩ := hresult
    refine ⟨fun z hz => ?_, fun hc => ?_⟩
    · cases hy.symm.trans hz
      exact ⟨fun _ => ⟨⟨hidle, hdone, hcause, hwords⟩, hnext⟩, fun h => absurd hfits h⟩
    · cases hc.symm.trans hcause

/-- Settles O49: if the codes before the rejected one bring the engine to it, they fit, and it resolves by no case there either;
else a capacity fault has ended the call. -/
theorem decodeCallReportsInvalidCode : Obligations.DecodeCallReportsInvalidCode := by
  intro s pre post c y hcaps hp hn hcs hpre hrej
  obtain ⟨hcs, hc, -⟩ : (∀ d ∈ pre, d < 2 ^ 24) ∧ c < 2 ^ 24 ∧ ∀ d ∈ post, d < 2 ^ 24 := by
    simpa only [List.forall_mem_append, List.forall_mem_cons] using hcs
  have hdrst : .drst ∉ post.map deccOf ++ [.dece] := by simp [deccOf]
  obtain ⟨t, ht, hreach⟩ := decodeCodes_reach hcaps hp hn pre hcs (deccOf c :: (post.map deccOf ++ [.dece]))
  have hcall : performCommands (decodeCommands (pre ++ c :: post)) s =
      performCommands (deccOf c :: (post.map deccOf ++ [.dece])) t := by
    rw [← ht, decodeCommands_eq, List.map_append, List.map_cons, List.append_assoc, List.cons_append]
  rw [hcall]
  cases hreach with
  | running z call ho hd =>
    cases hpre.symm.trans call.decodeRef_eq
    have hstep := (call.withHostIn (hostCmds (post.map deccOf ++ [.dece]))).exec_invalid hc
      (call.resolveCode_invalid_of_decodeRef hrej)
    rw [performCommands_of_exec hstep]
    exact ⟨_, performCommands_of_fault rfl hdrst, rfl, rfl, rfl, fun _ => ⟨rfl, rfl, rfl⟩,
      fun h => absurd (call.callFits ho hd) h⟩
  | invalid d hd hfail hall => cases hpre.symm.trans (by simpa using hall [])
  | full hfail hlarge =>
    obtain ⟨hf, hcause, holen, hdone⟩ := hfail
    have hnot : ¬ callFits s y.length pre.length := by simpa using hlarge [] y (by simpa using hpre)
    exact ⟨_, performCommands_of_fault hf (by simp [deccOf]), hf, holen, hdone, fun h => absurd h hnot,
      fun _ => ⟨hf, hcause, holen, hdone⟩⟩

end Sys2Proof.Machine
end

section
/-!
The host in a decode call on any code sequence (R135, U7): what it reports, and what it issues after its report.
-/
namespace Sys2Proof.Machine

variable {s t : State} {cs pre post : List Nat} {c : Nat}

/-! What the host does at the end of the plan, by the phase of the engine -/

theorem decodeReport_of_fault (hf : t.phase = .fault) (cs : List Nat) : decodeReport cs t = callOutcome t := by
  unfold decodeReport
  split
  · rfl
  · exact if_pos hf

theorem decodeClosing_of_fault (hf : t.phase = .fault) (cs : List Nat) : decodeClosing cs t = [] := by
  unfold decodeClosing
  split
  · rfl
  · exact if_pos hf

theorem decodeReport_of_fit (hcs : ∀ d ∈ cs, d < 2 ^ 24) (t : State) : decodeReport cs t = callOutcome t := by
  rw [decodeReport, firstOversized_eq_none 0 hcs]

theorem decodePlan_of_fit (hcs : ∀ d ∈ cs, d < 2 ^ 24) : decodePlan cs = decodeCommands cs := by
  rw [decodePlan, firstOversized_eq_none 0 hcs]

theorem decodeClosing_of_fit (hcs : ∀ d ∈ cs, d < 2 ^ 24) (t : State) : decodeClosing cs t = [] := by
  rw [decodeClosing, firstOversized_eq_none 0 hcs]

theorem decodeReport_of_oversized (hf : t.phase ≠ .fault) (post : List Nat) (hpre : ∀ d ∈ pre, d < 2 ^ 24)
    (hc : 2 ^ 24 ≤ c) : decodeReport (pre ++ c :: post) t = oversizedReport pre.length c := by
  rw [decodeReport, firstOversized_append 0 c post hpre hc, Nat.zero_add]
  exact if_neg hf

theorem hostDecode_of_plan (hplan : performCommands (decodePlan cs) s = .next t) :
    hostDecode cs s = performCommands (decodeClosing cs t) t := by
  rw [hostDecode, hplan, andThen_next]

/-- Where nothing follows the report, the call is its plan. -/
theorem hostDecode_of_closing_nil (hplan : performCommands (decodePlan cs) s = .next t) (hin : t.hostIn = [])
    (hclosing : decodeClosing cs t = []) : hostDecode cs s = .next t := by
  rw [hostDecode_of_plan hplan, hclosing, performCommands_nil, ← hin]

/-- Where the host has stopped before an oversized code, it issues `DRST` after its report. -/
theorem hostDecode_of_oversized (hplan : performCommands (decodePlan (pre ++ c :: post)) s = .next t) (hin : t.hostIn = [])
    (hf : t.phase ≠ .fault) (hpre : ∀ d ∈ pre, d < 2 ^ 24) (hc : 2 ^ 24 ≤ c) :
    hostDecode (pre ++ c :: post) s = exec .drst t := by
  have heta : ({ t with hostIn := [] } : State) = t := by rw [← hin]
  rw [hostDecode_of_plan hplan, decodeClosing_append c post t hpre hc, if_neg hf,
    performCommands_of_exec (exec_drst { t with hostIn := hostCmds [] }), performCommands_nil]
  show exec .drst { t with hostIn := [] } = exec .drst t
  rw [heta]

/-! The host's own report -/

theorem oversizedReport_eq_capacity {j : Nat} (h : 1 ≤ j ∧ c = 256 + (j - 1)) : oversizedReport j c = .capacity :=
  if_pos h

theorem oversizedReport_eq_invalidCode {j : Nat} (h : ¬ (1 ≤ j ∧ c = 256 + (j - 1))) : oversizedReport j c = .invalidCode c :=
  if_neg h

theorem oversizedReport_ne_success (j c : Nat) : oversizedReport j c ≠ .success := by
  unfold oversizedReport
  split <;> simp

/-- An oversized code the host reports resolves by no case: it is above every code an engine can have, and is not `NEXT`. -/
theorem DecodeCall.resolveCode_oversized {y : SymSeq} (h : DecodeCall t pre y) (hcap : t.dictCap ≤ 2 ^ 24) (hc : 2 ^ 24 ≤ c)
    (hne : ¬ (1 ≤ pre.length ∧ c = 256 + (pre.length - 1))) : resolveCode c t = .invalid := by
  have hcount := h.counted
  have hcodes := h.codes
  cases hf : t.firstFlag with
  | true => exact h.ready.resolveCode_invalid (.inl ⟨hf, by omega⟩)
  | false =>
    have hpos := h.ne_nil_of_subsequent hf
    exact h.ready.resolveCode_invalid (.inr ⟨hf, by omega⟩)

/-! The engine's outcome -/

theorem callOutcome_of_result {ws : List Word} (h : callResult t ws) : callOutcome t = .success := by
  obtain ⟨hp, hdone, hcause, -⟩ := h
  simp [callOutcome, hp, hdone, hcause]

theorem callOutcome_of_invalidCode (h : t.fcause = .invalidCode) : callOutcome t = .invalidCode t.finfo.toNat := by
  rw [callOutcome, h]

theorem callOutcome_of_capacity (h : t.fcause = .obufFull ∨ t.fcause = .dictFull) : callOutcome t = .capacity := by
  rcases h with h | h <;> rw [callOutcome, h]

/-- How the plan of a decode call on `cs` ends: in a fault of the engine on some of the codes, with the result of the whole call,
or stopped by the host before an oversized code (R135). -/
inductive PlanEnds (s : State) (cs : List Nat) (t : State) : Prop
  | faulted (pre more : List Nat) (codes : cs = pre ++ more) (fault : t.phase = .fault) (reached : DecodeReaches s pre t)
  | finished (fit : ∀ d ∈ cs, d < 2 ^ 24) (succeeds : decodeSucceeds s cs t)
  | stopped (pre post : List Nat) (c : Nat) (y : SymSeq) (codes : cs = pre ++ c :: post) (fit : ∀ d ∈ pre, d < 2 ^ 24)
      (oversized : 2 ^ 24 ≤ c) (call : DecodeCall t pre y) (dictCap : t.dictCap = s.dictCap)

/-- Every code fits a word, or there is a first that does not. -/
theorem forall_fit_or_exists_oversized (cs : List Nat) :
    (∀ d ∈ cs, d < 2 ^ 24) ∨ ∃ pre c post, cs = pre ++ c :: post ∧ (∀ d ∈ pre, d < 2 ^ 24) ∧ 2 ^ 24 ≤ c := by
  induction cs with
  | nil => exact .inl (by simp)
  | cons d cs ih =>
    rcases Nat.lt_or_ge d (2 ^ 24) with hd | hd
    · rcases ih with ih | ⟨pre, c, post, rfl, hpre, hc⟩
      · exact .inl (List.forall_mem_cons.mpr ⟨hd, ih⟩)
      · exact .inr ⟨d :: pre, c, post, rfl, List.forall_mem_cons.mpr ⟨hd, hpre⟩, hc⟩
    · exact .inr ⟨[], d, cs, rfl, by simp, hd⟩

theorem planEnds (hcaps : capsInRange s) (hp : s.phase = .idle) (hn : s.fcause = .none)
    (hplan : performCommands (decodePlan cs) s = .next t) : t.hostIn = [] ∧ PlanEnds s cs t := by
  rcases forall_fit_or_exists_oversized cs with hcs | ⟨pre, c, post, rfl, hpre, hc⟩
  · obtain ⟨u, hu, hin, hend⟩ := decodeCall_ends hcaps hp hn hcs
    rw [decodePlan_of_fit hcs, hu] at hplan
    cases hplan
    refine ⟨hin, ?_⟩
    rcases hend with ⟨hf, hreach⟩ | hsucc
    · exact .faulted cs [] (List.append_nil cs).symm hf hreach
    · exact .finished hcs hsucc
  · obtain ⟨u, hu, hreach⟩ := decodeCodes_reach hcaps hp hn pre hpre []
    rw [decodePlan_append c post hpre hc, ← List.append_nil (pre.map deccOf), hu] at hplan
    cases hplan
    refine ⟨rfl, ?_⟩
    have hq := hreach.withHostIn []
    by_cases hf : u.phase = .fault
    · exact .faulted pre (c :: post) rfl hf hq
    cases hq with
    | running y call ho hd => exact .stopped pre post c y rfl hpre hc call hd
    | invalid d hd hfail hrej => exact absurd hfail.1 hf
    | full hfail hlarge => exact absurd hfail.1 hf

/-- A fault of the engine: no result, and the report is the reference's error or a capacity failure. -/
theorem DecodeReaches.report_of_fault (h : DecodeReaches s pre t) (hf : t.phase = .fault) :
    t.olen = 0 ∧ t.doneFlag = false ∧
      (t.fcause = .invalidCode ∧ callOutcome t = .invalidCode t.finfo.toNat ∧
          (∀ more, decodeRef (pre ++ more) = .invalidCode t.finfo.toNat) ∨
        (t.fcause = .obufFull ∨ t.fcause = .dictFull) ∧ callOutcome t = .capacity) := by
  cases h with
  | running y call ho hd => cases call.phase.symm.trans hf
  | invalid c hc hfail hrej =>
    have hcode := toNat_finfo_of_invalidCode hc hfail
    obtain ⟨-, hcause, -, -, holen, hdone⟩ := hfail
    exact ⟨holen, hdone, .inl ⟨hcause, callOutcome_of_invalidCode hcause, hcode.symm ▸ hrej⟩⟩
  | full hfail hlarge =>
    obtain ⟨-, hcause, holen, hdone⟩ := hfail
    exact ⟨holen, hdone, .inr ⟨hcause, callOutcome_of_capacity hcause⟩⟩

/-- The report is never an error the reference does not report. -/
theorem decodeRef_of_report_invalidCode (hcaps : capsInRange s) (hend : PlanEnds s cs t)
    (hr : decodeReport cs t = .invalidCode c) : decodeRef cs = .invalidCode c := by
  cases hend with
  | faulted pre more hcs hf hreach =>
    rw [decodeReport_of_fault hf] at hr
    obtain ⟨-, -, ⟨-, hout, hrej⟩ | ⟨-, hout⟩⟩ := hreach.report_of_fault hf
    · cases hout.symm.trans hr
      exact hcs ▸ hrej more
    · cases hout.symm.trans hr
  | finished hfit hsucc =>
    obtain ⟨y, -, -, hresult, -⟩ := hsucc
    cases (callOutcome_of_result hresult).symm.trans ((decodeReport_of_fit hfit t).symm.trans hr)
  | stopped pre post d y hcs hfit hover call hcap =>
    have hf : t.phase ≠ .fault := by simp [call.phase]
    rw [hcs, decodeReport_of_oversized hf post hfit hover] at hr
    by_cases hcorner : 1 ≤ pre.length ∧ d = 256 + (pre.length - 1)
    · cases (oversizedReport_eq_capacity hcorner).symm.trans hr
    · cases (oversizedReport_eq_invalidCode hcorner).symm.trans hr
      have hinv := call.resolveCode_oversized (hcap ▸ hcaps.1.2) hover hcorner
      rw [hcs, List.append_cons]
      exact call.decodeRef_of_invalid hinv post

/-- A success is the reference's result. -/
theorem succeeds_of_report_success (hend : PlanEnds s cs t) (hr : decodeReport cs t = .success) : decodeSucceeds s cs t := by
  cases hend with
  | faulted pre more hcs hf hreach =>
    rw [decodeReport_of_fault hf] at hr
    obtain ⟨-, -, ⟨-, hout, -⟩ | ⟨-, hout⟩⟩ := hreach.report_of_fault hf <;> cases hout.symm.trans hr
  | finished hfit hsucc => exact hsucc
  | stopped pre post d y hcs hfit hover call hcap =>
    have hf : t.phase ≠ .fault := by simp [call.phase]
    rw [hcs, decodeReport_of_oversized hf post hfit hover] at hr
    exact absurd hr (oversizedReport_ne_success _ _)

/-- Settles O50: by how the plan ends, and what the host does there. -/
theorem hostDecodeReportIsSound : Obligations.HostDecodeReportIsSound := by
  intro s t cs h hp hplan
  obtain ⟨hin, hend⟩ := planEnds h.caps hp (fcause_eq_none h (by simp [hp])) hplan
  refine ⟨fun c => decodeRef_of_report_invalidCode h.caps hend, fun hr => ?_, fun hf => ?_, fun hf hcs => ?_, ?_⟩
  · obtain ⟨y, hy, -, hresult, -⟩ := succeeds_of_report_success hend hr
    exact ⟨y, hy, hresult⟩
  · rw [decodeReport_of_fault hf]
    refine ⟨hostDecode_of_closing_nil hplan hin (decodeClosing_of_fault hf cs), ?_⟩
    cases hend with
    | faulted pre more hcs _ hreach =>
      obtain ⟨holen, hdone, hout⟩ := hreach.report_of_fault hf
      exact ⟨holen, hdone, hout.imp_left fun ⟨hcause, hout, _⟩ => ⟨hcause, hout⟩⟩
    | finished hfit hsucc =>
      obtain ⟨y, -, -, ⟨hidle, -⟩, -⟩ := hsucc
      cases hidle.symm.trans hf
    | stopped pre post d y hcs hfit hover call hcap => cases call.phase.symm.trans hf
  · refine ⟨hostDecode_of_closing_nil hplan hin (decodeClosing_of_fit hcs t), ?_⟩
    cases hend with
    | faulted pre more _ hfault hreach => exact absurd hfault hf
    | finished hfit hsucc =>
      obtain ⟨y, -, -, hresult, -⟩ := hsucc
      exact (decodeReport_of_fit hcs t).trans (callOutcome_of_result hresult)
    | stopped pre post d y hsplit hfit hover call hcap =>
      exact absurd hover (Nat.not_le.mpr (hcs d (by simp [hsplit])))
  · rintro pre post c hf rfl hpre hc
    rw [decodeReport_of_oversized hf post hpre hc, ← List.length_pos_iff, ← List.length_eq_zero_iff]
    exact ⟨hostDecode_of_oversized hplan hin hf hpre hc, fun hne => oversizedReport_eq_invalidCode (by omega),
      oversizedReport_eq_capacity⟩

end Sys2Proof.Machine
end

section
/-!
The reference decoder on the output of the reference encoder (R150, R151): it stays one code behind the encoder, whose latest entry
it completes with the first symbol of the next code.
-/
namespace Sys2Proof.Machine

variable {d r : Dict} {n c : Nat} {p u v : SymSeq} {a : Symbol}

/-- The dictionary in which the reference encoder (R114) ends, from where it stands before the input still to come. -/
def encodeDict (d : Dict) (n : Nat) (cur : SymSeq) : SymSeq → Dict
  | [] => d
  | a :: x =>
    if (fwdLookup (cur ++ [a]) d).isSome then encodeDict d n (cur ++ [a]) x
    else encodeDict (tableWrite n (cur ++ [a]) d) (n + 1) [a] x

theorem encodeDict_of_hit {cur x : SymSeq} (hhit : (fwdLookup (cur ++ [a]) d).isSome) :
    encodeDict d n cur (a :: x) = encodeDict d n (cur ++ [a]) x :=
  if_pos hhit

theorem encodeDict_of_miss {cur x : SymSeq} (hmiss : fwdLookup (cur ++ [a]) d = none) :
    encodeDict d n cur (a :: x) = encodeDict (tableWrite n (cur ++ [a]) d) (n + 1) [a] x := by
  rw [encodeDict, hmiss]
  rfl

/-- A miss costs one code and makes one entry. -/
theorem next_of_miss {cur : SymSeq} (h : MatchPending d n cur) (hmiss : fwdLookup (cur ++ [a]) d = none) (x : SymSeq) :
    n + ((encodeFrom d n cur (a :: x)).length - 1) =
      n + 1 + ((encodeFrom (tableWrite n (cur ++ [a]) d) (n + 1) [a] x).length - 1) := by
  obtain ⟨c, hc⟩ := h.code_of_ne_nil (h.ne_nil_of_miss hmiss)
  have hpos := length_encodeFrom_pos (h.restart hmiss) (List.cons_ne_nil a []) x
  rw [encodeFrom_of_miss h.grown hmiss hc, List.length_cons]
  omega

/-- The encoder's dictionary is grown at its end, one entry for each code but the last. -/
theorem grown_encodeDict {cur : SymSeq} (h : MatchPending d n cur) (x : SymSeq) :
    GrownDict (encodeDict d n cur x) (n + ((encodeFrom d n cur x).length - 1)) := by
  induction x generalizing d n cur with
  | nil =>
    have hlen : (encodeFrom d n cur []).length ≤ 1 := by
      by_cases hne : cur = []
      · rw [hne, encodeFrom_nil_nil]
        exact Nat.zero_le 1
      · obtain ⟨c, hc⟩ := h.code_of_ne_nil hne
        rw [encodeFrom_nil hne hc, List.length_singleton]
    rw [Nat.sub_eq_zero_of_le hlen]
    exact h.grown
  | cons a x ih =>
    rcases h.hit_or_miss a with hhit | ⟨hmiss, -⟩
    · rw [encodeDict_of_hit hhit, encodeFrom_of_hit hhit]
      exact ih (h.extend hhit)
    · rw [encodeDict_of_miss hmiss, next_of_miss h hmiss]
      exact ih (h.restart hmiss)

/-- Each of the encoder's codes is a code of its dictionary at the end. -/
theorem lt_of_mem_encodeFrom {cur : SymSeq} (h : MatchPending d n cur) (x : SymSeq) (hc : c ∈ encodeFrom d n cur x) :
    c < n + ((encodeFrom d n cur x).length - 1) := by
  induction x generalizing d n cur with
  | nil =>
    by_cases hne : cur = []
    · rw [hne, encodeFrom_nil_nil] at hc
      cases hc
    · obtain ⟨b, hb⟩ := h.code_of_ne_nil hne
      rw [encodeFrom_nil hne hb] at hc ⊢
      cases List.mem_singleton.mp hc
      exact h.grown.code_lt (mem_of_fwdLookup hb)
  | cons a x ih =>
    rcases h.hit_or_miss a with hhit | ⟨hmiss, -, b, hb⟩
    · rw [encodeFrom_of_hit hhit] at hc ⊢
      exact ih (h.extend hhit) hc
    · rw [encodeFrom_of_miss h.grown hmiss hb] at hc
      rw [next_of_miss h hmiss]
      rcases List.mem_cons.mp hc with rfl | hc
      · have hlt := h.grown.code_lt (mem_of_fwdLookup hb)
        omega
      · exact ih (h.restart hmiss) hc

theorem nodup_encodeDict {cur : SymSeq} (h : MatchPending d n cur) (hd : (d.map Prod.snd).Nodup) (x : SymSeq) :
    ((encodeDict d n cur x).map Prod.snd).Nodup := by
  induction x generalizing d n cur with
  | nil => exact hd
  | cons a x ih =>
    rcases h.hit_or_miss a with hhit | ⟨hmiss, -⟩
    · rw [encodeDict_of_hit hhit]
      exact ih (h.extend hhit) hd
    · rw [encodeDict_of_miss hmiss]
      exact ih (h.restart hmiss) (h.grown.nodup_insert hd hmiss)

/-! One code behind -/

/-- The decoder `D` is one code behind an encoder with the dictionary `d`, the counter `n` and a pending match that begins with
`a`: the code of that match brings it to the same dictionary and counter. -/
def OneCodeBehind (D : List Nat → RefDecoded) (d : Dict) (n : Nat) (a : Symbol) : Prop :=
  ∀ u c, fwdLookup (a :: u) d = some c → ∀ cs, D (c :: cs) = prependOutput (a :: u) (decodeFrom d n (a :: u) cs)

/-- At the start both have the seed. -/
theorem oneCodeBehind_start (a : Symbol) : OneCodeBehind decodeRef seedDict 256 a := by
  intro u c hc cs
  have hknown : revLookup c seedDict = some (a :: u) := tableRead_of_mem seedDict_wf (mem_of_fwdLookup hc)
  rw [decodeRef, hknown]
  rfl

/-- After a miss the encoder has one entry more, `p` and the missed symbol. The code of that entry itself, if it comes next, is the
self-referential one, since its match then begins with the missed symbol. -/
theorem oneCodeBehind_of_miss (hr : GrownDict r n) (hp : p ≠ []) (a : Symbol) :
    OneCodeBehind (decodeFrom r n p) (tableWrite n (p ++ [a]) r) (n + 1) a := by
  intro u c hc cs
  have hentry : refEntry c r n p = some (a :: u) := by
    have hmem := mem_of_fwdLookup hc
    rw [hr.write_next, List.mem_append, List.mem_singleton] at hmem
    rcases hmem with hmem | hnew
    · have hknown : revLookup c r = some (a :: u) := tableRead_of_mem hr.wf hmem
      rw [refEntry, hknown]
    · obtain ⟨rfl, hu⟩ := Prod.mk.inj hnew
      obtain ⟨b, q, rfl⟩ := List.exists_cons_of_ne_nil hp
      obtain ⟨rfl, -⟩ := List.cons.inj hu
      have hunknown : revLookup c r = none := hr.read_next
      rw [refEntry, hunknown, hu]
      exact if_pos rfl
  rw [decodeFrom, hentry, hr.write_next]
  rfl

/-- A decoder one code behind gives back what the encoder takes, and ends with the encoder's dictionary. -/
theorem OneCodeBehind.decodes {D : List Nat → RefDecoded} (hD : OneCodeBehind D d n a) (h : MatchPending d n (a :: u))
    (x : SymSeq) :
    ∃ m w, ∀ more, D (encodeFrom d n (a :: u) x ++ more) =
      prependOutput (a :: u ++ x) (decodeFrom (encodeDict d n (a :: u) x) m w more) := by
  induction x generalizing D d n a u with
  | nil =>
    obtain ⟨c, hc⟩ := h.code_of_ne_nil (List.cons_ne_nil a u)
    rw [encodeFrom_nil (List.cons_ne_nil a u) hc, List.append_nil]
    exact ⟨n, a :: u, hD u c hc⟩
  | cons b x ih =>
    rcases h.hit_or_miss b with hhit | ⟨hmiss, -, c, hc⟩
    · rw [encodeFrom_of_hit hhit, encodeDict_of_hit hhit, List.append_cons (a :: u) b x]
      exact ih hD (h.extend hhit)
    · rw [encodeFrom_of_miss h.grown hmiss hc, encodeDict_of_miss hmiss]
      obtain ⟨m, w, hrest⟩ :=
        ih (oneCodeBehind_of_miss h.grown (List.cons_ne_nil a u) b) (h.restart hmiss)
      refine ⟨m, w, fun more => ?_⟩
      rw [List.cons_append, hD u c hc, hrest, ← prependOutput_append, List.singleton_append]

/-- The first symbol of a call is a hit. -/
theorem seed_hit (a : Symbol) : (fwdLookup ([] ++ [a]) seedDict).isSome := by
  rw [List.nil_append, fwdLookup_seedDict_single]
  rfl

theorem encodeRef_cons (a : Symbol) (x : SymSeq) : encodeRef (a :: x) = encodeFrom seedDict 256 [a] x :=
  encodeFrom_of_hit (seed_hit a)

theorem decodeRef_encodeRef_append (a : Symbol) (x : SymSeq) :
    ∃ m w, ∀ more, decodeRef (encodeRef (a :: x) ++ more) =
      prependOutput (a :: x) (decodeFrom (encodeDict seedDict 256 [] (a :: x)) m w more) := by
  rw [encodeRef_cons, encodeDict_of_hit (seed_hit a)]
  exact (oneCodeBehind_start a).decodes (MatchPending.start.extend (seed_hit a)) x

theorem decodeRef_encodeRef (x : SymSeq) : decodeRef (encodeRef x) = .symbols x := by
  cases x with
  | nil => rfl
  | cons a x =>
    obtain ⟨m, w, h⟩ := decodeRef_encodeRef_append a x
    simpa [decodeFrom, prependOutput] using h []

/-- One code more, of the encoder's dictionary at its end, stands for its sequence there (R151). -/
theorem decodeRef_encodeRef_concat (x : SymSeq) (hc : revLookup c (encodeDict seedDict 256 [] x) = some v) :
    decodeRef (encodeRef x ++ [c]) = .symbols (x ++ v) := by
  cases x with
  | nil =>
    change revLookup c seedDict = some v at hc
    rw [encodeRef_nil, List.nil_append, decodeRef, hc]
    simp [decodeFrom, prependOutput]
  | cons a x =>
    obtain ⟨m, w, h⟩ := decodeRef_encodeRef_append a x
    rw [h, decodeFrom, refEntry, hc]
    simp [decodeFrom, prependOutput]

/-- Settles O51: the decoder stays one code behind the encoder; the vector by evaluation. -/
theorem referenceRoundTrip : Obligations.ReferenceRoundTrip :=
  ⟨decodeRef_encodeRef, by decide +kernel⟩

end Sys2Proof.Machine
end

section
/-!
Runs of commands (R59): the first command and the rest make the run, so what every command keeps, a run keeps.
-/
namespace Sys2Proof.Machine

variable {s t : State} {i : Instr} {is : List Instr}

/-- A run is its first command, then the rest of it. -/
theorem performCommands_cons_eq (i : Instr) (is : List Instr) (s : State) :
    performCommands (i :: is) s = andThen (exec i { s with hostIn := hostCmds is }) (performCommands is) := by
  have hstep : core.step { s with hostIn := hostCmds (i :: is) } = exec i { s with hostIn := hostCmds is } :=
    (step_of_pending (s := { s with hostIn := hostCmds (i :: is) }) rfl).trans (hostOp_cmd_of_command (decode_encode i) _)
  cases h : exec i { s with hostIn := hostCmds is } with
  | next u => exact performCommands_of_exec h
  | fault r => simp only [performCommands, List.length_cons, Host.Core.run, hstep, h]; rfl
  | refused r => simp only [performCommands, List.length_cons, Host.Core.run, hstep, h]; rfl

theorem performCommands_cons_eq_next :
    performCommands (i :: is) s = .next t ↔
      ∃ u, exec i { s with hostIn := hostCmds is } = .next u ∧ performCommands is u = .next t := by
  rw [performCommands_cons_eq, andThen_eq_next]

theorem performCommands_keeps_inv (h : s.Inv) (ht : performCommands is s = .next t) : t.Inv := by
  induction is generalizing s with
  | nil =>
    cases ht
    exact { h with }
  | cons i is ih =>
    obtain ⟨u, hu, ht⟩ := performCommands_cons_eq_next.mp ht
    exact ih (exec_keeps_inv (s := { s with hostIn := hostCmds is }) { h with } hu) ht

theorem performCommands_obufCap (ht : performCommands is s = .next t) : t.obufCap = s.obufCap := by
  induction is generalizing s with
  | nil =>
    cases ht
    rfl
  | cons i is ih =>
    obtain ⟨u, hu, ht⟩ := performCommands_cons_eq_next.mp ht
    obtain ⟨-, hcap, -⟩ := commandsKeepParameters _ _ _ hu
    exact (ih ht).trans hcap

end Sys2Proof.Machine
end

section
/-!
A call forgets what was before it (R152): two states that differ only in words of `OBUF` that are not valid, and on the host's side in
what its reads have returned, are driven alike by every command.
-/
namespace Sys2Proof.Machine

variable {s t : State} {i : Instr} {is : List Instr} {o : Table Word} {l : List Word} {k : Nat}

/-- The state with another history: other words in `OBUF`, other words returned to the host. -/
def State.withHistory (s : State) (o : Table Word) (l : List Word) (k : Nat) : State :=
  { s with obuf := o, hostOut := l, draws := k }

/-- Two output buffers have the same words below `n`. -/
abbrev agreeBelow (n : Nat) (o p : Table Word) : Prop := ∀ i < n, tableRead i o = tableRead i p

theorem agreeBelow_zero (o p : Table Word) : agreeBelow 0 o p := fun i hi => absurd hi (Nat.not_lt_zero i)

theorem agreeBelow_write {n : Nat} {o p : Table Word} (h : agreeBelow n o p) (v : Word) :
    agreeBelow (n + 1) (tableWrite n v o) (tableWrite n v p) := by
  intro i hi
  rcases Nat.lt_succ_iff_lt_or_eq.mp hi with hi | rfl
  · rw [tableRead_write_ne hi.ne, tableRead_write_ne hi.ne, h i hi]
  · rw [tableRead_write_same, tableRead_write_same]

theorem agreeBelow_wordsWritten {n : Nat} {o p : Table Word} (h : agreeBelow n o p) (e : SymSeq) :
    agreeBelow (n + e.length) (wordsWritten e n o) (wordsWritten e n p) := by
  induction e generalizing n o p with
  | nil => exact h
  | cons a e ih =>
    rw [List.length_cons, Nat.add_comm e.length 1, ← Nat.add_assoc]
    exact ih (agreeBelow_write h _)

/-- What `r` makes of a state, `r'` makes of one with another history: the same next state, up to that history. -/
def Replays (l : List Word) (k : Nat) (r r' : Result) : Prop :=
  ∀ t, r = .next t → ∃ o, r' = .next (t.withHistory o l k) ∧ agreeBelow t.olen o t.obuf

theorem replays_next (h : agreeBelow t.olen o t.obuf) : Replays l k (.next t) (.next (t.withHistory o l k)) := by
  rintro _ ⟨⟩
  exact ⟨o, rfl, h⟩

/-- A bracketed command is replayed when its effect is (R183). -/
theorem inPhase_replays {p : Phase} {r r' : Result} (h : agreeBelow s.olen o s.obuf) (hr : Replays l k r r') :
    Replays l k (inPhase p i s r) (inPhase p i (s.withHistory o l k) r') := by
  intro t ht
  rcases inPhase_cases ht with ⟨hf, rfl⟩ | ⟨hf, hp, ht⟩ | ⟨hf, hp, rfl⟩
  · exact ⟨o, inPhase_fault hf, h⟩
  · obtain ⟨o', ho', hagree⟩ := hr t ht
    exact ⟨o', (inPhase_own (s := s.withHistory o l k) (hp ▸ hf) hp).trans ho', hagree⟩
  · exact ⟨o, inPhase_other hf hp, agreeBelow_zero _ _⟩

theorem encSymbol_replays (h : agreeBelow s.olen o s.obuf) (a : Symbol) (w : Word) :
    Replays l k (encSymbol a w s) (encSymbol a w (s.withHistory o l k)) := by
  intro t ht
  rcases encSymbol_cases ht with ⟨hhit, rfl⟩ | ⟨hmiss, ho, rfl⟩ | ⟨hmiss, ho, hn, rfl⟩ | ⟨hmiss, ho, hn, hfree, c, hc, rfl⟩
  · exact ⟨o, encSymbol_of_hit w hhit, h⟩
  · exact ⟨o, encSymbol_of_obufFull w hmiss ho, agreeBelow_zero _ _⟩
  · exact ⟨o, encSymbol_of_dictFull w hmiss ho hn, agreeBelow_zero _ _⟩
  · exact ⟨_, encSymbol_of_miss w hmiss hc ho hn hfree, agreeBelow_write h (zextNat c)⟩

theorem encStep_replays (h : agreeBelow s.olen o s.obuf) (sym : Arg) :
    Replays l k (encStep sym s) (encStep sym (s.withHistory o l k)) := by
  unfold encStep
  split
  · exact replays_next (agreeBelow_zero _ _)
  · exact encSymbol_replays h _ _

theorem encFlush_replays (h : agreeBelow s.olen o s.obuf) :
    Replays l k (encFlush s) (encFlush (s.withHistory o l k)) := by
  intro t ht
  rcases encFlush_cases ht with ⟨hcur, rfl⟩ | ⟨hcur, ho, rfl⟩ | ⟨hcur, ho, c, hc, rfl⟩
  · exact ⟨o, encFlush_of_nil hcur, h⟩
  · exact ⟨o, encFlush_of_obufFull hcur ho, agreeBelow_zero _ _⟩
  · exact ⟨_, encFlush_of_room hcur hc ho, agreeBelow_write h (zextNat c)⟩

theorem decEntry_replays (h : agreeBelow s.olen o s.obuf) (e : SymSeq) (b : Arb) (w : Word) :
    Replays l k (decEntry e b w s) (decEntry e b w (s.withHistory o l k)) := by
  intro t ht
  rcases decEntry_cases ht with ⟨ho, rfl⟩ | ⟨ho, hf, rfl⟩ | ⟨ho, hf, hn, rfl⟩ | ⟨ho, hf, hn, hfree, x, hx, rfl⟩
  · exact ⟨o, decEntry_of_obufFull b w ho, agreeBelow_zero _ _⟩
  · exact ⟨_, decEntry_of_first b w ho hf, agreeBelow_wordsWritten h e⟩
  · exact ⟨o, decEntry_of_dictFull b w ho hf hn, agreeBelow_zero _ _⟩
  · exact ⟨_, decEntry_of_subsequent b w ho hf hn hfree hx, agreeBelow_wordsWritten h e⟩

theorem resolveCode_withHistory (code : Nat) (s : State) (o : Table Word) (l : List Word) (k : Nat) :
    resolveCode code (s.withHistory o l k) = resolveCode code s := rfl

theorem decStep_replays (h : agreeBelow s.olen o s.obuf) (code : Arg) :
    Replays l k (decStep code s) (decStep code (s.withHistory o l k)) := by
  unfold decStep
  rw [resolveCode_withHistory]
  split
  · exact decEntry_replays h _ _ _
  · exact replays_next (agreeBelow_zero _ _)
  · exact nofun

/-- Every command does the same whatever was before. -/
theorem exec_replays (h : agreeBelow s.olen o s.obuf) (i : Instr) :
    Replays l k (exec i s) (exec i (s.withHistory o l k)) := by
  cases i with
  | drst => exact replays_next (agreeBelow_zero _ _)
  | encb => exact inPhase_replays h (replays_next (agreeBelow_zero _ _))
  | encs sym => exact inPhase_replays h (encStep_replays h sym)
  | ence => exact inPhase_replays h (encFlush_replays h)
  | decb => exact inPhase_replays h (replays_next (agreeBelow_zero _ _))
  | decc code => exact inPhase_replays h (decStep_replays h code)
  | dece => exact inPhase_replays h (replays_next h)

theorem performCommands_replays (h : agreeBelow s.olen o s.obuf) (is : List Instr) :
    Replays l k (performCommands is s) (performCommands is (s.withHistory o l k)) := by
  induction is generalizing s o with
  | nil => exact replays_next h
  | cons i is ih =>
    intro t ht
    obtain ⟨u, hu, ht⟩ := performCommands_cons_eq_next.mp ht
    obtain ⟨p, hp, hagree⟩ := exec_replays (s := { s with hostIn := hostCmds is }) (l := l) (k := k) h i u hu
    obtain ⟨q, hq, hagree'⟩ := ih hagree t ht
    exact ⟨q, performCommands_cons_eq_next.mpr ⟨_, hp, hq⟩, hagree'⟩

theorem sameObserved_withHistory (h : agreeBelow s.olen o s.obuf) (l : List Word) (k : Nat) :
    sameObserved s (s.withHistory o l k) := by
  refine ⟨fun n => rfl, fun i => ?_⟩
  by_cases hi : i < s.olen
  · exact (if_pos hi).trans ((h i hi).trans (if_pos hi).symm)
  · exact (if_neg hi).trans (if_neg hi).symm

/-- The begin of a call sets every item of the engine but the words of `OBUF` and the fault record (R110, R130), and between calls
there is no fault recorded. -/
theorem beginCall_withHistory (hs : s.Inv) (ht : t.Inv) (hps : s.phase = .idle) (hpt : t.phase = .idle)
    (hd : s.dictCap = t.dictCap) (ho : s.obufCap = t.obufCap) (p : Phase) (first : Bool) (q : List HostOp) :
    beginCall p first { t with hostIn := q } =
      (beginCall p first { s with hostIn := q }).withHistory t.obuf t.hostOut t.draws := by
  have hsf : s.phase ≠ .fault := by simp [hps]
  have htf : t.phase ≠ .fault := by simp [hpt]
  have hcause : t.fcause = s.fcause := (fcause_eq_none ht htf).trans (fcause_eq_none hs hsf).symm
  have hinfo : t.finfo = s.finfo := (ht.infoZero htf).trans (hs.infoZero hsf).symm
  simp only [State.withHistory, beginCall, dictReset, hcause, hinfo, hd, ho]

/-- Settles O54: after its begin a call runs in two states that differ in their history alone. -/
theorem callsForgetHistory : Obligations.CallsForgetHistory := by
  intro s t s' b is hs ht hps hpt hd ho hb hrun
  obtain ⟨p, first, hbegin⟩ : ∃ p first, ∀ u : State, u.phase = .idle → exec b u = .next (beginCall p first u) := by
    rcases hb with rfl | rfl
    · exact ⟨_, _, fun _ => exec_encb⟩
    · exact ⟨_, _, fun _ => exec_decb⟩
  rw [performCommands_of_exec (hbegin { s with hostIn := hostCmds is } hps)] at hrun
  rw [performCommands_of_exec (hbegin { t with hostIn := hostCmds is } hpt), beginCall_withHistory hs ht hps hpt hd ho]
  obtain ⟨o, hreplay, hagree⟩ := performCommands_replays (agreeBelow_zero t.obuf _) is s' hrun
  exact ⟨_, hreplay, sameObserved_withHistory hagree _ _, rfl, rfl, rfl, rfl⟩

end Sys2Proof.Machine
end

section
/-!
An encode call and the decode call on its codes (R150, R151): the result comes back, and `REV` ends as the inverse of the encoder's
`FWD`.
-/
namespace Sys2Proof.Machine

variable {s t u : State} {x y v : SymSeq} {ws us : List Word} {cs : List Nat} {c : Nat}

/-- The valid words of a state are one list. -/
theorem holdsWords_unique (hw : holdsWords s ws) (hu : holdsWords s us) : ws = us := by
  obtain ⟨-, hws⟩ := hw
  obtain ⟨-, hus⟩ := hu
  exact List.ext_getElem? fun i => (hws i).symm.trans (hus i)

/-! The encode call -/

/-- An encode call that has ended well has the reference's codes as its result, and the capacities sufficed (R116). -/
theorem encodeCall_of_done (h : s.Inv) (hp : s.phase = .idle) (ht : performCommands (encodeCommands x) s = .next t)
    (hdone : t.doneFlag = true) :
    callFits s (encodeRef x).length (encodeRef x).length ∧ callResult t ((encodeRef x).map zextNat) ∧
      t.nextCode = 256 + ((encodeRef x).length - 1) := by
  obtain ⟨t', ht', -, hfits, hfull⟩ := encodeCall_refines x h.caps hp (fcause_eq_none h (by simp [hp]))
  cases ht.symm.trans ht'
  rw [List.length_map] at hfits hfull
  by_cases hfit : callFits s (encodeRef x).length (encodeRef x).length
  · exact ⟨hfit, hfits hfit⟩
  · obtain ⟨-, -, -, hnot⟩ := hfull hfit
    cases hdone.symm.trans hnot

/-- The codes of an encode call that has ended well fit a command word (R96). -/
theorem codes_lt_of_callFits {k : Nat} (h : s.Inv) (hfit : callFits s k (encodeRef x).length) :
    ∀ c ∈ encodeRef x, c < 2 ^ 24 := by
  intro c hc
  obtain ⟨-, hcodes⟩ := hfit
  obtain ⟨⟨-, hcap⟩, -⟩ := h.caps
  have hlt : c < 256 + ((encodeRef x).length - 1) := lt_of_mem_encodeFrom MatchPending.start x hc
  exact hlt.trans_le (hcodes.trans hcap)

/-- The words of codes that fit a word are read back as the codes (R135). -/
theorem map_toNat_map_zextNat (hcs : ∀ c ∈ cs, c < 2 ^ 24) : (cs.map zextNat).map BitVec.toNat = cs := by
  rw [List.map_map]
  refine (List.map_congr_left (g := id) fun c hc => ?_).trans (List.map_id cs)
  exact toNat_zextNat ((hcs c hc).trans (by decide))

/-- A call that ends well leaves the reference encoder's dictionary in `FWD`, by induction on the input still to come. -/
theorem EncodeCall.fwd_of_done (h : EncodeCall s ws) (ht : performCommands (encodeTail x) s = .next t)
    (hdone : t.doneFlag = true) : t.fwd = encodeDict s.fwd s.nextCode s.cur x := by
  have hfault {k : Cause} {w : Word} {q : State} {is : List Instr} (his : .drst ∉ is)
      (ht : performCommands is (faultEntry k w q) = .next t) : False := by
    rw [performCommands_of_fault rfl his] at ht
    cases ht
    cases hdone
  induction x generalizing s ws with
  | nil =>
    obtain ⟨q, hq, ht⟩ := performCommands_cons_eq_next.mp ht
    have hcall := h.withHostIn (hostCmds [])
    rcases encFlush_cases ((exec_ence hcall.phase).symm.trans hq) with ⟨-, rfl⟩ | ⟨-, -, rfl⟩ | ⟨-, -, c, -, rfl⟩
    · cases ht
      rfl
    · exact (hfault List.not_mem_nil ht).elim
    · cases ht
      rfl
  | cons a x ih =>
    obtain ⟨q, hq, ht⟩ := performCommands_cons_eq_next.mp ht
    have hcall := h.withHostIn (hostCmds (encodeTail x))
    rcases h.pending.hit_or_miss a with hhit | ⟨hmiss, -, c, hc⟩
    · cases hq.symm.trans ((hcall.exec_symbol a).trans (encSymbol_of_hit _ hhit))
      rw [encodeDict_of_hit hhit]
      exact ih (hcall.extend hhit) ht
    by_cases hfull : s.olen = s.obufCap ∨ s.nextCode = s.dictCap
    · obtain ⟨k, w, -, hstep⟩ := hcall.exec_full hmiss hfull
      cases hq.symm.trans hstep
      exact (hfault (drst_notMem_encodeTail x) ht).elim
    · obtain ⟨ho, hn⟩ := not_or.mp hfull
      obtain ⟨q', hstep, hcall', hfwd, hnext, hcur, -⟩ :=
        hcall.exec_miss hmiss hc (lt_of_le_of_ne h.room ho) (lt_of_le_of_ne h.codes hn)
      cases hq.symm.trans hstep
      have hrest := ih hcall' ht
      rw [hfwd, hnext, hcur] at hrest
      rw [encodeDict_of_miss hmiss]
      exact hrest

theorem encodeCall_fwd (h : s.Inv) (hp : s.phase = .idle) (ht : performCommands (encodeCommands x) s = .next t)
    (hdone : t.doneFlag = true) : t.fwd = encodeDict seedDict 256 [] x := by
  have hn : s.fcause = .none := fcause_eq_none h (by simp [hp])
  rw [encodeCommands_eq, performCommands_of_exec (exec_encb hp)] at ht
  have hbegin := EncodeCall.begin (s := { s with hostIn := hostCmds (encodeTail x) }) h.caps hn
  exact hbegin.fwd_of_done ht hdone

/-! The decode call -/

/-- A decode call that has ended well was in progress after its last code. -/
theorem decodeCall_of_done (h : s.Inv) (hp : s.phase = .idle) (hcs : ∀ c ∈ cs, c < 2 ^ 24)
    (ht : performCommands (decodeCommands cs) s = .next t) (hdone : t.doneFlag = true) :
    ∃ q y, DecodeCall q cs y ∧ t = decFinish q := by
  obtain ⟨q, hq, hreach⟩ := decodeCodes_reach h.caps hp (fcause_eq_none h (by simp [hp])) cs hcs [.dece]
  rw [decodeCommands_eq, hq] at ht
  have hreach := hreach.withHostIn []
  by_cases hf : q.phase = .fault
  · rw [performCommands_of_fault hf (by simp)] at ht
    cases ht
    obtain ⟨-, hnot, -⟩ := hreach.report_of_fault hf
    cases hdone.symm.trans hnot
  cases hreach with
  | running y call ho hd =>
    rw [performCommands_of_exec (exec_dece call.phase)] at ht
    cases ht
    exact ⟨_, y, call, rfl⟩
  | invalid c hc hfail hrej => exact absurd hfail.1 hf
  | full hfail hlarge => exact absurd hfail.1 hf

/-- What `REV` holds shows in what one more code decodes to. -/
theorem DecodeCall.decodeRef_concat (h : DecodeCall s cs y) (hv : revLookup c s.rev = some v) :
    decodeRef (cs ++ [c]) = .symbols (y ++ v) := by
  obtain ⟨d, n, hrest⟩ := h.ready.decodeRest_entry (resolveCode_of_known hv) []
  rw [h.refines, hrest]
  simp [decodeFrom, prependOutput]

/-! Both -/

/-- Settles O52: the words are the reference's codes, on which the decode call gives the input back, with room for it by premise and
for the codes since they were given out by the encoder. -/
theorem engineRoundTrip : Obligations.EngineRoundTrip := by
  intro s t x ws h hp ht hresult hroom
  obtain ⟨hidle, hdone, hcause, hwords⟩ := hresult
  obtain ⟨hfit, ⟨-, -, -, hcodes⟩, hnext⟩ := encodeCall_of_done h hp ht hdone
  obtain rfl := holdsWords_unique hwords hcodes
  have hlt := codes_lt_of_callFits h hfit
  rw [map_toNat_map_zextNat hlt]
  have htinv := performCommands_keeps_inv h ht
  obtain ⟨u, hu, -, hdecodes, -⟩ := decodeCallRefinesReference t (encodeRef x) htinv.caps hidle hcause hlt
  have hfit' : callFits t x.length (encodeRef x).length :=
    ⟨performCommands_obufCap ht ▸ hroom, hnext ▸ htinv.nextRange.2⟩
  obtain ⟨hback, hcount⟩ := (hdecodes x (decodeRef_encodeRef x)).1 hfit'
  exact ⟨u, hu, hback, hcount.trans hnext.symm⟩

/-- Settles O53: after the codes of `x` a code stands for `v` in `FWD` when one more code decodes to `x` and `v`, and for the same
reason in `REV`. -/
theorem dictionariesGrowInLockstep : Obligations.DictionariesGrowInLockstep := by
  intro s t u x h hp ht htdone hu hudone
  obtain ⟨hfit, ⟨hidle, -⟩, hnext⟩ := encodeCall_of_done h hp ht htdone
  have htinv := performCommands_keeps_inv h ht
  obtain ⟨q, y, call, rfl⟩ := decodeCall_of_done htinv hidle (codes_lt_of_callFits h hfit) hu hudone
  refine ⟨call.counted.trans hnext.symm, fun c hc => ?_⟩
  have hgrown : GrownDict (encodeDict seedDict 256 [] x) q.nextCode :=
    call.counted ▸ grown_encodeDict MatchPending.start x
  obtain ⟨v, hv⟩ := call.ready.exists_known hc
  obtain ⟨w, hw⟩ := Option.isSome_iff_exists.mp (hgrown.read_isSome_iff.mpr hc)
  have hxy : y = x := RefDecoded.symbols.inj (call.decodeRef_eq.symm.trans (decodeRef_encodeRef x))
  have hvw : v = w := List.append_cancel_left
    (hxy ▸ RefDecoded.symbols.inj ((call.decodeRef_concat hv).symm.trans (decodeRef_encodeRef_concat x hw)))
  refine ⟨v, hv, ?_⟩
  rw [encodeCall_fwd h hp ht htdone, hvw]
  exact fwdLookup_of_mem (nodup_encodeDict MatchPending.start seedDict_sequences_nodup x) (mem_of_tableRead hw)

end Sys2Proof.Machine
end

section
/-!
The codes of one symbol repeated (R153): each code is one symbol longer than the code before it.
-/
namespace Sys2Proof.Machine

variable {a : Symbol} {d : Dict} {j m : Nat}

/-- The code of `m` times the symbol `a`, where it has one: the symbol's own, and from 256 on one for each length from 2 on. -/
def runCode (a : Symbol) (m : Nat) : Nat := if m = 1 then a.toNat else 254 + m

theorem runCode_eq (a : Symbol) (m : Nat) : runCode a m = if m = 1 then a.toNat else 256 + m - 2 := by
  rw [runCode, show 254 + m = 256 + m - 2 by omega]

theorem map_runCode_range' (a : Symbol) (i : Nat) :
    (List.range' 2 i).map (runCode a) = (List.range i).map (fun j => 256 + j) := by
  rw [List.range'_eq_map_range, List.map_map]
  refine List.map_congr_left fun j _ => ?_
  rw [Function.comp_apply, runCode, if_neg (by omega)]
  omega

/-- The dictionary after `j` codes of an input of `a` alone: it holds the repetitions of `a` of length 1 to `j + 1`, and no longer
one. -/
structure RunDict (a : Symbol) (d : Dict) (j : Nat) : Prop where
  grown : GrownDict d (256 + j)
  lookup : ∀ m, 1 ≤ m → fwdLookup (List.replicate m a) d = if m ≤ j + 1 then some (runCode a m) else none

namespace RunDict

protected theorem seed (a : Symbol) : RunDict a seedDict 0 where
  grown := GrownDict.seed
  lookup := fun m hm => by
    by_cases h1 : m = 1
    · subst h1
      exact fwdLookup_seedDict_single a
    · rw [if_neg (by omega)]
      exact fwdLookup_seedDict_of_length (by rwa [List.length_replicate])

theorem hit (h : RunDict a d j) (hm : 1 ≤ m) (hj : m ≤ j + 1) : fwdLookup (List.replicate m a) d = some (runCode a m) :=
  (h.lookup m hm).trans (if_pos hj)

theorem miss (h : RunDict a d j) : fwdLookup (List.replicate (j + 1) a ++ [a]) d = none := by
  rw [← List.replicate_succ']
  exact (h.lookup (j + 2) (by omega)).trans (if_neg (by omega))

/-- The next code adds the next longer repetition. -/
theorem insert (h : RunDict a d j) : RunDict a (tableWrite (256 + j) (List.replicate (j + 1) a ++ [a]) d) (j + 1) where
  grown := h.grown.insert (fwdLookup_isSome_iff.mp (by rw [h.hit (by omega) le_rfl]; rfl)) a
  lookup := fun m hm => by
    by_cases hnew : m = j + 2
    · rw [hnew, List.replicate_succ', fwdLookup_write_same _ h.miss, if_pos (by omega), runCode, if_neg (by omega)]
      congr 1
      omega
    · have hne : List.replicate m a ≠ List.replicate (j + 1) a ++ [a] := fun he => hnew (by simpa using congrArg List.length he)
      rw [fwdLookup_write_ne h.grown.read_next hne, h.lookup m hm]
      simp only [show m ≤ j + 1 ↔ m ≤ j + 1 + 1 by omega]

theorem encodeFrom_hit (h : RunDict a d j) (n k : Nat) (hj : m + 1 ≤ j + 1) :
    encodeFrom d n (List.replicate m a) (List.replicate (k + 1) a) =
      encodeFrom d n (List.replicate (m + 1) a) (List.replicate k a) := by
  have hhit : (fwdLookup (List.replicate m a ++ [a]) d).isSome := by
    rw [← List.replicate_succ', h.hit (by omega) hj]
    rfl
  rw [List.replicate_succ (n := k), encodeFrom_of_hit hhit, ← List.replicate_succ']

/-- With at most `j + 1` symbols pending and to come, all are one match. -/
theorem encodeFrom_short (h : RunDict a d j) (n : Nat) {k : Nat} (hm : 1 ≤ m) (hj : m + k ≤ j + 1) :
    encodeFrom d n (List.replicate m a) (List.replicate k a) = [runCode a (m + k)] := by
  induction k generalizing m with
  | zero => exact encodeFrom_nil (by rw [ne_eq, List.replicate_eq_nil_iff]; omega) (h.hit hm hj)
  | succ k ih =>
    rw [h.encodeFrom_hit n k (by omega), ih (by omega) (by omega), Nat.add_right_comm, Nat.add_assoc]

/-- With more, the longest match is `j + 1` symbols long; its code is given out and the dictionary has the next longer one. -/
theorem encodeFrom_long (h : RunDict a d j) {k : Nat} (hm : 1 ≤ m) (hj : m ≤ j + 1) (hk : j + 1 < m + k) :
    encodeFrom d (256 + j) (List.replicate m a) (List.replicate k a) =
      runCode a (j + 1) :: encodeFrom (tableWrite (256 + j) (List.replicate (j + 1) a ++ [a]) d) (256 + (j + 1))
        (List.replicate 1 a) (List.replicate (m + k - (j + 2)) a) := by
  induction k generalizing m with
  | zero => omega
  | succ k ih =>
    rcases Nat.lt_or_ge m (j + 1) with hlt | hge
    · rw [h.encodeFrom_hit _ k (by omega), ih (by omega) (by omega) (by omega), Nat.add_right_comm, Nat.add_assoc]
    · obtain rfl : m = j + 1 := by omega
      rw [List.replicate_succ (n := k), encodeFrom_of_miss h.grown h.miss (h.hit hm le_rfl), show j + 1 + (k + 1) - (j + 2) = k by omega]
      rfl

end RunDict

/-- `j` triangular steps make `j (j + 1) / 2`. -/
theorem half_mul_succ (j : Nat) : (j + 1) * (j + 1 + 1) / 2 = j * (j + 1) / 2 + (j + 1) := by
  have h := Nat.triangle_succ (j + 1)
  rw [Nat.add_sub_cancel, Nat.add_sub_cancel, Nat.mul_comm, Nat.mul_comm (j + 1) j] at h
  exact h

/-- From `j` codes on, with `k + 1` symbols still to encode: `i` codes of full length, then one for the `m` symbols left. -/
theorem encodeFrom_run (i : Nat) {k : Nat} (h : RunDict a d j) (hm : 1 ≤ m) (hi : m ≤ j + i + 1)
    (hk : j * (j + 1) / 2 + (k + 1) = (j + i) * (j + i + 1) / 2 + m) :
    encodeFrom d (256 + j) (List.replicate 1 a) (List.replicate k a) =
      (List.range' (j + 1) i).map (runCode a) ++ [runCode a m] := by
  induction i generalizing d j k with
  | zero =>
    obtain rfl : m = 1 + k := by
      simp only [Nat.add_zero] at hk
      omega
    exact h.encodeFrom_short _ le_rfl (by omega)
  | succ i ih =>
    have hstep := half_mul_succ j
    have hmono : (j + 1) * (j + 1 + 1) / 2 ≤ (j + (i + 1)) * (j + (i + 1) + 1) / 2 :=
      Nat.div_le_div_right (Nat.mul_le_mul (by omega) (by omega))
    rw [h.encodeFrom_long le_rfl (by omega) (by omega), ih h.insert (by omega) ?_]
    · rfl
    · rw [show j + 1 + i = j + (i + 1) by omega]
      omega

theorem encodeRef_replicate (n : Nat) (a : Symbol) :
    encodeRef (List.replicate (n + 1) a) = encodeFrom seedDict 256 (List.replicate 1 a) (List.replicate n a) :=
  encodeRef_cons a (List.replicate n a)

/-- Settles O55: all codes but the last have full length. -/
theorem repetitionClosedForm : Obligations.RepetitionClosedForm := by
  intro a n k hn hle hlt
  obtain ⟨n, rfl⟩ := Nat.exists_eq_add_of_le' hn
  obtain ⟨i, rfl⟩ : ∃ i, k = i + 1 := Nat.exists_eq_add_of_le' (Nat.pos_of_ne_zero fun h0 => by simp [h0] at hle)
  rw [Nat.add_sub_cancel] at hlt ⊢
  have hstep := half_mul_succ i
  have hcodes := encodeFrom_run i (m := n + 1 - i * (i + 1) / 2) (k := n) (RunDict.seed a) (by omega) (by omega)
    (by simp only [Nat.zero_add]; omega)
  rw [encodeRef_replicate, hcodes]
  refine ⟨?_, by simp, fun h3 => ?_⟩
  · cases i with
    | zero => simp [runCode]; omega
    | succ i =>
      rw [if_neg (by omega), List.range'_succ, List.map_cons, map_runCode_range', runCode_eq a (n + 1 - _)]
      rfl
  · by_contra hge
    have hmul : 2 * (i + 1) ≤ i * (i + 1) := Nat.mul_le_mul_right _ (by omega)
    omega

end Sys2Proof.Machine
end

section
/-!
The causes of a fault (R171, R172): what each command can raise, and when a code resolves by no case.
-/
namespace Sys2Proof.Machine

variable {s t : State}

/-- A code resolves by no case exactly when it is beyond those the case of `FIRST` allows (R133). -/
theorem DecodeReady.resolveCode_eq_invalid_iff (h : DecodeReady s) (code : Nat) :
    resolveCode code s = .invalid ↔ s.firstFlag = true ∧ 256 ≤ code ∨ s.firstFlag = false ∧ s.nextCode < code := by
  refine ⟨fun hr => ?_, h.resolveCode_invalid⟩
  cases hf : s.firstFlag with
  | true =>
    refine .inl ⟨rfl, Nat.not_lt.mp fun hc => ?_⟩
    cases hr.symm.trans (h.resolveCode_seed hf hc)
  | false =>
    refine .inr ⟨rfl, Nat.not_le.mp fun hc => ?_⟩
    rcases Nat.lt_or_eq_of_le hc with hc | hc
    · obtain ⟨e, -, -, he⟩ := h.resolveCode_known hf hc
      cases hr.symm.trans he
    · obtain ⟨a, ha⟩ := h.exists_head_cur hf
      cases hr.symm.trans (h.resolveCode_selfref hf hc ha)

/-! What cause a command leaves -/

theorem fcause_of_encStep {sym : Arg} (ht : encStep sym s = .next t) :
    t.fcause = s.fcause ∨ t.fcause ∈ mayRaise (.encs sym) := by
  rcases encStep_cases ht with ⟨-, rfl⟩ | ⟨-, ht⟩
  · simp [mayRaise]
  · rcases encSymbol_cases ht with ⟨-, rfl⟩ | ⟨-, -, rfl⟩ | ⟨-, -, -, rfl⟩ | ⟨-, -, -, -, _, -, rfl⟩ <;> simp [mayRaise]

theorem fcause_of_encFlush (ht : encFlush s = .next t) : t.fcause = s.fcause ∨ t.fcause ∈ mayRaise .ence := by
  rcases encFlush_cases ht with ⟨-, rfl⟩ | ⟨-, -, rfl⟩ | ⟨-, -, _, -, rfl⟩ <;> simp [mayRaise]

theorem fcause_of_decEntry {e : SymSeq} {b : Arb} {w : Word} (ht : decEntry e b w s = .next t) :
    t.fcause = s.fcause ∨ t.fcause = .obufFull ∨ t.fcause = .dictFull := by
  rcases decEntry_cases ht with ⟨-, rfl⟩ | ⟨-, -, rfl⟩ | ⟨-, -, -, rfl⟩ | ⟨-, -, -, -, _, -, rfl⟩ <;> simp

/-- INVALID_CODE comes of a `DECC` in phase DEC whose code resolves by no case, and of nothing else (R172). -/
theorem decc_of_fcause_invalidCode {i : Instr} (hn : s.fcause = .none) (hexec : exec i s = .next t)
    (hc : t.fcause = .invalidCode) : ∃ code, i = .decc code ∧ s.phase = .dec ∧ resolveCode code.toNat s = .invalid := by
  rcases exec_cases hexec with ⟨-, rfl⟩ | ⟨-, rfl⟩ | ⟨-, rfl, -⟩ | ⟨-, -, rfl⟩ | ⟨-, -, rfl⟩ | ⟨-, sym, -, ht⟩ |
    ⟨-, -, ht⟩ | ⟨hp, code, rfl, ht⟩ | ⟨-, -, rfl⟩
  · cases hc
  · cases hn.symm.trans hc
  · cases hc
  · cases hn.symm.trans hc
  · cases hn.symm.trans hc
  · have hcause := fcause_of_encStep ht
    simp [hc, hn, mayRaise] at hcause
  · have hcause := fcause_of_encFlush ht
    simp [hc, hn, mayRaise] at hcause
  · rcases decStep_cases ht with ⟨hr, -⟩ | ⟨e, b, -, ht⟩
    · exact ⟨code, rfl, hp, hr⟩
    · have hcause := fcause_of_decEntry ht
      simp [hc, hn] at hcause
  · cases hn.symm.trans hc

/-- Settles O33: by when a code resolves by no case, and by what raises the cause. -/
theorem invalidCodeFaults : Obligations.InvalidCodeFaults := by
  refine ⟨fun s code h hp hcode => ?_, fun s t i h hf ht hc => ?_⟩
  · exact exec_decc_invalid hp ((decodeReady_of_dec h hp).resolveCode_invalid hcode)
  · obtain ⟨code, hi, hp, hr⟩ := decc_of_fcause_invalidCode (fcause_eq_none h hf) ht hc
    exact ⟨code, hi, hp, ((decodeReady_of_dec h hp).resolveCode_eq_invalid_iff code.toNat).mp hr⟩

end Sys2Proof.Machine
end

section
/-!
The ratio helper (R160).
-/
namespace Sys2Proof.Machine

theorem ratio_of_ne_zero {nSym nCode bits : Nat} (h : nCode * bits ≠ 0) :
    ratio nSym nCode bits = some (((nSym * 8 : ℕ) : ℚ) / (nCode * bits : ℕ)) := by
  rw [ratio, if_neg h, Rat.mkRat_eq_div]
  rfl

theorem ratio_of_eq_zero {nSym nCode bits : Nat} (h : nCode * bits = 0) : ratio nSym nCode bits = none :=
  if_pos h

/-- Settles O59: the quotient times its denominator is its numerator; the examples by arithmetic. -/
theorem ratioIsExactRational : Obligations.RatioIsExactRational := by
  refine ⟨fun nSym nCode bits h => ⟨_, ratio_of_ne_zero h, ?_⟩, fun _ _ _ => ratio_of_eq_zero, rfl, ?_, ?_⟩
  · have hden : ((nCode * bits : ℕ) : ℚ) ≠ 0 := Nat.cast_ne_zero.mpr h
    rw [← Nat.cast_mul nCode bits, div_mul_cancel₀ _ hden, Nat.cast_mul]
    rfl
  · rw [ratioDefault, ratio_of_ne_zero (by decide)]
    norm_num [Config.bitsPerCode]
  · rw [ratioDefault, ratio_of_ne_zero (by decide)]
    norm_num [Config.bitsPerCode]

end Sys2Proof.Machine
end

section
/-!
Every host operation answers (R98, R170, R208), and what a pending operation does in phase FAULT (R180, R181).
-/
namespace Sys2Proof.Machine

variable {s t : State} {op : HostOp} {w : Word}

/-- An illegal word is never more than a fault or a word discarded (R173, R180). -/
theorem illegalCommand_answers (w : Word) (s : State) : ∃ t, illegalCommand w s = .next t := by
  unfold illegalCommand
  split
  · exact ⟨_, rfl⟩
  · exact ⟨_, rfl⟩

theorem hostOp_answers (h : s.Inv) (op : HostOp) : ∃ t, hostOp op s = .next t := by
  cases op with
  | cmd w =>
    cases hd : decode w with
    | command i => rw [hostOp_cmd_of_command hd]; exact exec_answers h i
    | illegal => rw [hostOp_cmd_of_illegal hd]; exact illegalCommand_answers w s
  | readReg n => exact ⟨_, rfl⟩
  | readObuf i => exact ⟨_, rfl⟩
  | reset => exact ⟨_, rfl⟩

/-- Settles O46: the oldest pending operation answers, since taking it from the queue keeps the invariant. -/
theorem engineNeverStops : Obligations.EngineNeverStops := by
  intro s h
  cases hin : s.hostIn with
  | nil => exact ⟨s, step_of_none_pending hin⟩
  | cons op rest => rw [step_of_pending hin]; exact hostOp_answers (s := { s with hostIn := rest }) { h with } op

/-! Phase FAULT -/

theorem illegalCommand_of_fault (hf : s.phase = .fault) (w : Word) : illegalCommand w s = .next s :=
  if_pos hf

theorem illegalCommand_of_ne_fault (hf : s.phase ≠ .fault) (w : Word) :
    illegalCommand w s = .next (faultEntry .illegalCommand w s) :=
  if_neg hf

/-- In FAULT a word is discarded unless it is the word of `DRST` (R180). -/
theorem hostOp_cmd_of_fault (hf : s.phase = .fault) (hw : w ≠ 0x10000000) : hostOp (.cmd w) s = .next s := by
  cases hd : decode w with
  | command i =>
    have hi : i ≠ .drst := by
      rintro rfl
      exact hw (encode_of_decode hd).symm
    exact (hostOp_cmd_of_command hd s).trans (exec_of_fault hf hi)
  | illegal => exact (hostOp_cmd_of_illegal hd s).trans (illegalCommand_of_fault hf w)

theorem hostReturn_phase (v : Option Word) (s : State) : (hostReturn v s).phase = s.phase := by
  cases v <;> rfl

/-- All that a host operation can do in FAULT: leave it there, or be one of the two ways out (R181). -/
theorem hostOp_cases_of_fault (hf : s.phase = .fault) (h : hostOp op s = .next t) :
    t.phase = .fault ∨ (op = .cmd 0x10000000 ∧ t = clearEngine s) ∨ (op = .reset ∧ t = hostReset s) := by
  cases op with
  | cmd w =>
    by_cases hw : w = 0x10000000
    · subst hw
      cases h
      exact .inr (.inl ⟨rfl, rfl⟩)
    · rw [hostOp_cmd_of_fault hf hw] at h
      cases h
      exact .inl hf
  | readReg n =>
    cases h
    exact .inl ((hostReturn_phase _ s).trans hf)
  | readObuf i =>
    cases h
    exact .inl ((hostReturn_phase _ s).trans hf)
  | reset =>
    cases h
    exact .inr (.inr ⟨rfl, rfl⟩)

/-- Settles O36: the step performs the word, and in FAULT performing it changes nothing. -/
theorem faultPhaseDiscardsWords : Obligations.FaultPhaseDiscardsWords :=
  fun _ _ _ hf hin hw => (step_of_pending hin).trans (hostOp_cmd_of_fault hf hw)

/-- Settles O39: of all host operations in FAULT only `DRST` and hardware reset end in another phase. -/
theorem onlyResetLeavesFault : Obligations.OnlyResetLeavesFault := by
  intro s t hf hstep hleft
  cases hin : s.hostIn with
  | nil =>
    rw [step_of_none_pending hin] at hstep
    cases hstep
    exact absurd hf hleft
  | cons op rest =>
    rw [step_of_pending hin] at hstep
    obtain hstay | ⟨rfl, rfl⟩ | ⟨rfl, rfl⟩ := hostOp_cases_of_fault (s := { s with hostIn := rest }) hf hstep
    · exact absurd hstay hleft
    · exact ⟨⟨rest, .inl rfl⟩, rfl, rfl, rfl, rfl, rfl, rfl⟩
    · exact ⟨⟨rest, .inr rfl⟩, rfl, rfl, rfl, rfl, rfl, rfl⟩

/-- Settles O30: the illegal words are those the decoder answers `illegal` on, whatever their fields. -/
theorem illegalWordFaults : Obligations.IllegalWordFaults := by
  intro s w hw hf
  have hd : decode w = .illegal := by
    rw [decode_eq_illegal_iff, ← legal_iff, hw]
    exact Bool.false_ne_true
  exact (hostOp_cmd_of_illegal hd s).trans (illegalCommand_of_ne_fault hf w)

end Sys2Proof.Machine
end

section
/-!
When a command raises which cause (R171 to R177), said once: it then makes fault entry and nothing else, and otherwise it
completes as the phase table has it (R179, R183).
-/
namespace Sys2Proof.Machine

variable {s t : State} {i : Instr} {c : Cause}

/-- The command `i` in the state `s` raises the cause: the conditions of R172 and R174 to R177, in the order of their tests. -/
inductive Raises (s : State) : Instr → Cause → Prop where
  /-- R174: out of its phase. -/
  | protocol {i : Instr} (hout : tablePhase s.phase i = none) : Raises s i .protocol
  /-- R175: a symbol above 255. -/
  | encsBadSymbol {sym : Arg} (hp : s.phase = .enc) (hsym : 255 < sym.toNat) : Raises s (.encs sym) .badSymbol
  /-- R176: a miss without room for the code of `CUR`. -/
  | encsObufFull {sym : Arg} (hp : s.phase = .enc) (hsym : sym.toNat ≤ 255)
      (hmiss : fwdLookup (s.cur ++ [sym.setWidth 8]) s.fwd = none) (ho : s.olen = s.obufCap) : Raises s (.encs sym) .obufFull
  /-- R177: a miss with no code left. -/
  | encsDictFull {sym : Arg} (hp : s.phase = .enc) (hsym : sym.toNat ≤ 255)
      (hmiss : fwdLookup (s.cur ++ [sym.setWidth 8]) s.fwd = none) (ho : s.olen ≠ s.obufCap)
      (hn : s.nextCode = s.dictCap) : Raises s (.encs sym) .dictFull
  /-- R176: a flush without room for the code of `CUR`. -/
  | enceObufFull (hp : s.phase = .enc) (hcur : s.cur ≠ []) (ho : s.olen = s.obufCap) : Raises s .ence .obufFull
  /-- R172: a code that resolves by no case. -/
  | deccInvalidCode {code : Arg} (hp : s.phase = .dec) (hr : resolveCode code.toNat s = .invalid) :
      Raises s (.decc code) .invalidCode
  /-- R176: an entry without room for all its symbols. -/
  | deccObufFull {code : Arg} {e : SymSeq} {a : Arb} (hp : s.phase = .dec) (he : resolveCode code.toNat s = .entry e a)
      (ho : s.obufCap < s.olen + e.length) : Raises s (.decc code) .obufFull
  /-- R177: a subsequent code with no code left. -/
  | deccDictFull {code : Arg} {e : SymSeq} {a : Arb} (hp : s.phase = .dec) (hf : s.firstFlag = false)
      (he : resolveCode code.toNat s = .entry e a) (hroom : s.olen + e.length ≤ s.obufCap)
      (hn : s.nextCode = s.dictCap) : Raises s (.decc code) .dictFull

/-! The phase table (R183) -/

theorem tablePhase_drst (p : Phase) : tablePhase p .drst = some .idle := by
  cases p <;> rfl

theorem tablePhase_fault (hi : i ≠ .drst) : tablePhase .fault i = some .fault := by
  cases i with
  | drst => exact absurd rfl hi
  | _ => rfl

/-- Outside FAULT no row of the table leads to FAULT. -/
theorem tablePhase_ne_fault {p : Phase} (hp : p ≠ .fault) (i : Instr) : tablePhase p i ≠ some .fault := by
  cases p with
  | fault => exact absurd rfl hp
  | _ => cases i <;> nofun

/-- The three ways of being out of phase that `exec_cases` tells apart are the empty entries of the table. -/
theorem tablePhase_eq_none {p : Phase} (hf : p ≠ .fault)
    (hout : (i = .encb ∨ i = .decb) ∧ p ≠ .idle ∨ (i = .ence ∨ ∃ sym, i = .encs sym) ∧ p ≠ .enc ∨
      (i = .dece ∨ ∃ code, i = .decc code) ∧ p ≠ .dec) : tablePhase p i = none := by
  rcases hout with ⟨rfl | rfl, hp⟩ | ⟨rfl | ⟨sym, rfl⟩, hp⟩ | ⟨rfl | ⟨code, rfl⟩, hp⟩ <;> cases p <;> trivial

/-- At an empty entry of the table a command legal in one phase only raises PROTOCOL (R174). -/
theorem inPhase_of_tablePhase_eq_none {p : Phase} {r : Result} (hown : tablePhase p i ≠ none) (hi : i ≠ .drst)
    (hout : tablePhase s.phase i = none) : inPhase p i s r = .next (faultEntry .protocol (encode i) s) := by
  refine inPhase_other (fun hf => ?_) (fun hp => hown (hp ▸ hout))
  rw [hf, tablePhase_fault hi] at hout
  cases hout

theorem exec_of_tablePhase_eq_none (hout : tablePhase s.phase i = none) :
    exec i s = .next (faultEntry .protocol (encode i) s) := by
  cases i with
  | drst => rw [tablePhase_drst] at hout; cases hout
  | _ => exact inPhase_of_tablePhase_eq_none (Option.some_ne_none _) nofun hout

/-! What is recorded (R31) -/

theorem recordedInfo_encs_badSymbol (sym : Arg) : recordedInfo .badSymbol (.encs sym) = zextArg sym := by
  simp [recordedInfo, encode]

theorem recordedInfo_decc_invalidCode (code : Arg) : recordedInfo .invalidCode (.decc code) = zextArg code := by
  simp [recordedInfo, encode]

/-! A command that raises a cause makes fault entry, and one that raises none completes -/

theorem Raises.exec_eq (h : Raises s i c) : exec i s = .next (faultEntry c (recordedInfo c i) s) := by
  cases h with
  | protocol hout => exact exec_of_tablePhase_eq_none hout
  | encsBadSymbol hp hsym =>
    rw [recordedInfo_encs_badSymbol]
    exact (inPhase_own (by decide) hp).trans (by rw [encStep, symbolOperand_of_gt hsym, raiseFault])
  | encsObufFull hp hsym hmiss ho =>
    exact (exec_encs hp (symbolOperand_of_le hsym)).trans (encSymbol_of_obufFull _ hmiss ho)
  | encsDictFull hp hsym hmiss ho hn =>
    exact (exec_encs hp (symbolOperand_of_le hsym)).trans (encSymbol_of_dictFull _ hmiss ho hn)
  | enceObufFull hp hcur ho => exact (exec_ence hp).trans (encFlush_of_obufFull hcur ho)
  | deccInvalidCode hp hr => rw [recordedInfo_decc_invalidCode]; exact exec_decc_invalid hp hr
  | deccObufFull hp he ho => exact (exec_decc_entry hp he).trans (decEntry_of_obufFull _ _ ho)
  | deccDictFull hp hf he hroom hn => exact (exec_decc_entry hp he).trans (decEntry_of_dictFull _ _ hroom hf hn)

/-- The command ended in fault entry with a cause it raises and what that cause records (R179). -/
def EndsInFault (s : State) (i : Instr) (t : State) : Prop :=
  ∃ c, Raises s i c ∧ t = faultEntry c (recordedInfo c i) s

/-- The command ended in the phase of the table (R183) with the fault record's cause as it was, or cleared by `DRST`. -/
def Completes (s : State) (i : Instr) (t : State) : Prop :=
  tablePhase s.phase i = some t.phase ∧ (t.fcause = s.fcause ∨ t.fcause = .none)

theorem completes_of_row {p q : Phase} (hp : s.phase = p) (hrow : tablePhase p i = some q) (hq : t.phase = q)
    (hc : t.fcause = s.fcause) : Completes s i t :=
  ⟨by rw [hp, hrow, hq], .inl hc⟩

theorem encStep_outcome (hp : s.phase = .enc) {sym : Arg} (ht : encStep sym s = .next t) :
    EndsInFault s (.encs sym) t ∨ Completes s (.encs sym) t := by
  rcases encStep_cases ht with ⟨hsym, rfl⟩ | ⟨hsym, ht⟩
  · exact .inl ⟨_, .encsBadSymbol hp hsym, by rw [recordedInfo_encs_badSymbol]⟩
  rcases encSymbol_cases ht with ⟨-, rfl⟩ | ⟨hmiss, ho, rfl⟩ | ⟨hmiss, ho, hn, rfl⟩ | ⟨-, -, -, -, _, -, rfl⟩
  · exact .inr (completes_of_row hp rfl hp rfl)
  · exact .inl ⟨_, .encsObufFull hp hsym hmiss ho, rfl⟩
  · exact .inl ⟨_, .encsDictFull hp hsym hmiss ho hn, rfl⟩
  · exact .inr (completes_of_row hp rfl hp rfl)

theorem encFlush_outcome (hp : s.phase = .enc) (ht : encFlush s = .next t) :
    EndsInFault s .ence t ∨ Completes s .ence t := by
  rcases encFlush_cases ht with ⟨-, rfl⟩ | ⟨hcur, ho, rfl⟩ | ⟨-, -, _, -, rfl⟩
  · exact .inr (completes_of_row hp rfl rfl rfl)
  · exact .inl ⟨_, .enceObufFull hp hcur ho, rfl⟩
  · exact .inr (completes_of_row hp rfl rfl rfl)

theorem decStep_outcome (hp : s.phase = .dec) {code : Arg} (ht : decStep code s = .next t) :
    EndsInFault s (.decc code) t ∨ Completes s (.decc code) t := by
  rcases decStep_cases ht with ⟨hr, rfl⟩ | ⟨e, a, he, ht⟩
  · exact .inl ⟨_, .deccInvalidCode hp hr, by rw [recordedInfo_decc_invalidCode]⟩
  rcases decEntry_cases ht with ⟨ho, rfl⟩ | ⟨-, -, rfl⟩ | ⟨hroom, hf, hn, rfl⟩ | ⟨-, -, -, -, _, -, rfl⟩
  · exact .inl ⟨_, .deccObufFull hp he ho, rfl⟩
  · exact .inr (completes_of_row hp rfl hp rfl)
  · exact .inl ⟨_, .deccDictFull hp hf he hroom hn, rfl⟩
  · exact .inr (completes_of_row hp rfl hp rfl)

/-- Everything a command can do, as far as faults and phases go. -/
theorem exec_outcome (h : exec i s = .next t) : EndsInFault s i t ∨ Completes s i t := by
  rcases exec_cases h with ⟨rfl, rfl⟩ | ⟨hf, rfl⟩ | ⟨hf, rfl, hout⟩ | ⟨hp, rfl, rfl⟩ | ⟨hp, rfl, rfl⟩ |
    ⟨hp, sym, rfl, ht⟩ | ⟨hp, rfl, ht⟩ | ⟨hp, code, rfl, ht⟩ | ⟨hp, rfl, rfl⟩
  · exact .inr ⟨tablePhase_drst _, .inr rfl⟩
  · have hi : i ≠ .drst := by
      rintro rfl
      have hphase : Phase.idle = t.phase := congrArg State.phase (Host.Outcome.next.inj h)
      cases hphase.trans hf
    exact .inr (completes_of_row hf (tablePhase_fault hi) hf rfl)
  · exact .inl ⟨_, .protocol (tablePhase_eq_none hf hout), rfl⟩
  · exact .inr (completes_of_row hp rfl rfl rfl)
  · exact .inr (completes_of_row hp rfl rfl rfl)
  · exact encStep_outcome hp ht
  · exact encFlush_outcome hp ht
  · exact decStep_outcome hp ht
  · exact .inr (completes_of_row hp rfl rfl rfl)

/-- From a state without a fault record, the cause a command leaves is one it raises. -/
theorem raises_of_fcause (hn : s.fcause = .none) (h : exec i s = .next t) (hc : t.fcause ≠ .none) :
    Raises s i t.fcause := by
  rcases exec_outcome h with ⟨c, hr, rfl⟩ | ⟨-, hkept | hcleared⟩
  · exact hr
  · exact absurd (hkept.trans hn) hc
  · exact absurd hcleared hc

/-- A cause is PROTOCOL at an empty entry of the table, and else one of those the command may raise (R171). -/
theorem Raises.protocol_or_mayRaise (h : Raises s i c) :
    (tablePhase s.phase i = none ∧ c = .protocol) ∨
      ((∃ p, tablePhase s.phase i = some p) ∧ s.phase ≠ .fault ∧ c ∈ mayRaise i) := by
  cases h with
  | protocol hout => exact .inl ⟨hout, rfl⟩
  | encsBadSymbol hp | encsObufFull hp | encsDictFull hp | enceObufFull hp
  | deccInvalidCode hp | deccObufFull hp | deccDictFull hp =>
    rw [hp]
    exact .inr ⟨⟨_, rfl⟩, by decide, by simp [mayRaise]⟩

theorem Raises.ne_none (h : Raises s i c) : c ≠ .none := by
  cases h <;> decide

/-! The words of the two commands with an operand -/

theorem toNat_wordOf (op : BitVec 4) (arg : Arg) : (wordOf op arg).toNat = op.toNat * 2 ^ 28 + arg.toNat := by
  have happ : (wordOf op arg).toNat = (op ++ 0#4).toNat <<< 24 ||| arg.toNat := BitVec.toNat_append _ _
  rw [happ, ← Nat.shiftLeft_add_eq_or_of_lt arg.isLt, BitVec.toNat_append, BitVec.toNat_zero, Nat.or_zero,
    ← Nat.shiftLeft_add, Nat.shiftLeft_eq]

/-- The fields of a word do not overlap (R71): the operand is added to the word of operand 0. -/
theorem wordOf_eq_add (op : BitVec 4) (arg : Arg) : wordOf op arg = wordOf op 0#24 + arg.setWidth 32 := by
  have hop := op.isLt
  have harg := arg.isLt
  apply BitVec.eq_of_toNat_eq
  rw [BitVec.toNat_add, toNat_wordOf, toNat_wordOf, BitVec.toNat_setWidth, BitVec.toNat_zero]
  omega

/-! The obligations -/

/-- Settles O31: the phases named are the empty entries of the table, and the words recorded those of `encode`. -/
theorem commandOutOfPhaseFaults : Obligations.CommandOutOfPhaseFaults := by
  intro s
  have hout {i : Instr} {w : Word} {p q : Phase} (hw : encode i = w) (hp : tablePhase p i = none)
      (hq : tablePhase q i = none) (h : s.phase = p ∨ s.phase = q) : exec i s = .next (faultEntry .protocol w s) := by
    subst hw
    refine exec_of_tablePhase_eq_none ?_
    obtain h | h := h
    · rw [h, hp]
    · rw [h, hq]
  exact ⟨hout rfl rfl rfl, fun sym => hout (wordOf_eq_add 3 sym) rfl rfl, hout rfl rfl rfl, hout rfl rfl rfl,
    fun code => hout (wordOf_eq_add 6 code) rfl rfl, hout rfl rfl rfl⟩

/-- Settles O32: the operand recorded is the symbol. -/
theorem badSymbolFaults : Obligations.BadSymbolFaults := fun s sym hp hsym => by
  rw [(Raises.encsBadSymbol hp hsym).exec_eq, recordedInfo_encs_badSymbol, zextArg]

/-- Settles O34: OBUF_FULL is raised in three cases, and every other command leaves another cause. -/
theorem fullOutputBufferFaults : Obligations.FullOutputBufferFaults := by
  refine ⟨fun s sym hp hsym hmiss ho => (Raises.encsObufFull hp hsym hmiss ho).exec_eq,
    fun s hp hcur ho => (Raises.enceObufFull hp hcur ho).exec_eq,
    fun s code e a hp he ho => (Raises.deccObufFull hp he ho).exec_eq, fun s t i h hf ht hc => ?_⟩
  have hr := raises_of_fcause (fcause_eq_none h hf) ht (by simp [hc])
  rw [hc] at hr
  cases hr with
  | encsObufFull hp hsym hmiss ho => exact .inl ⟨_, rfl, hp, hsym, hmiss, ho⟩
  | enceObufFull hp hcur ho => exact .inr (.inl ⟨rfl, hp, hcur, ho⟩)
  | deccObufFull hp he ho => exact .inr (.inr ⟨_, _, _, rfl, hp, he, ho⟩)

/-- Settles O35: DICT_FULL is raised in two cases, both inserts, and every other command leaves another cause. -/
theorem fullDictionaryFaults : Obligations.FullDictionaryFaults := by
  refine ⟨fun s sym hp hsym hmiss ho hn => (Raises.encsDictFull hp hsym hmiss ho hn).exec_eq,
    fun s code e a hp hf he hroom hn => (Raises.deccDictFull hp hf he hroom hn).exec_eq, fun s t i h hf ht hc => ?_⟩
  have hr := raises_of_fcause (fcause_eq_none h hf) ht (by simp [hc])
  rw [hc] at hr
  cases hr with
  | encsDictFull hp hsym hmiss ho hn => exact ⟨hn, .inl ⟨_, rfl, hp, hmiss⟩⟩
  | deccDictFull hp hf he hroom hn => exact ⟨hn, .inr ⟨_, _, _, rfl, hp, hf, he⟩⟩

/-- Settles O37: a command that completes ends in a phase of the table, which outside FAULT is not FAULT. -/
theorem faultsArePrecise : Obligations.FaultsArePrecise := by
  refine ⟨fun c info s => ⟨_, rfl, fun hc => if_pos hc, fun hc => if_neg hc⟩, fun s t i hf h ht => ?_⟩
  rcases exec_outcome h with ⟨c, hr, rfl⟩ | ⟨hphase, -⟩
  · exact ⟨c, hr.ne_none, rfl⟩
  · exact absurd (ht ▸ hphase) (tablePhase_ne_fault hf i)

/-- Settles O38: a command completes in the table's phase, or raises PROTOCOL or a cause of its own. -/
theorem phaseTableIsFollowed : Obligations.PhaseTableIsFollowed := by
  intro s t i h
  rcases exec_outcome h with ⟨c, hr, rfl⟩ | ⟨hphase, -⟩
  · obtain ⟨hout, rfl⟩ | ⟨⟨p, hin⟩, hf, hc⟩ := hr.protocol_or_mayRaise
    · rw [hout]
      exact ⟨rfl, rfl⟩
    · rw [hin]
      exact .inr ⟨hf, rfl, hc⟩
  · rw [hphase]
    exact .inl rfl

end Sys2Proof.Machine
end

section
/-!
Hardware reset (R20, R200): what it leaves, seen through the registers and the reads of `OBUF`, and that only the parameters
and the model's own fields pass through it.
-/
namespace Sys2Proof.Machine

/-- `STATUS` after hardware reset (R33): IDLE, both flags clear and ARB none are all encoded by zeros. -/
theorem statusWord_resetWith (dictCap obufCap : Nat) : statusWord (State.resetWith dictCap obufCap) = 0 := by
  simp only [statusWord, State.resetWith]
  decide

/-- `NEXT` reads `FIRST_CODE` after hardware reset (R5, R33). -/
theorem regRead_next_resetWith (dictCap obufCap : Nat) :
    regRead 1 (State.resetWith dictCap obufCap) = some 0x00000100 := rfl

/-- Settles O10: the engine's items and the last four registers are those of the definition, and with `OLEN` 0 no word of
`OBUF` is valid. -/
theorem resetLeavesResetValues : Obligations.ResetLeavesResetValues := by
  intro dictCap obufCap
  have hobuf : ∀ i, obufRead i (State.resetWith dictCap obufCap) = none := obufRead_of_olen_zero rfl
  have hstatus := congrArg some (statusWord_resetWith dictCap obufCap)
  have hnext := regRead_next_resetWith dictCap obufCap
  exact ⟨_, rfl, rfl, rfl, rfl, rfl, rfl, rfl, rfl, rfl, rfl, rfl, rfl, hobuf, hstatus, hnext, rfl, rfl, rfl, rfl⟩

/-- Hardware reset writes every field but the parameters and the model's own (R200). -/
theorem hostReset_eq_resetWith (s : State) :
    hostReset s = { State.resetWith s.dictCap s.obufCap with
      hostIn := s.hostIn, hostOut := s.hostOut, draws := s.draws } := rfl

theorem hostOp_reset (s : State) : hostOp .reset s = .next (hostReset s) := rfl

/-- Settles O11: the step performs the reset, which keeps nothing of the engine's state. -/
theorem hardwareResetIgnoresState : Obligations.HardwareResetIgnoresState := by
  intro s rest hin
  rw [step_of_pending hin, hostOp_reset, hostReset_eq_resetWith]

end Sys2Proof.Machine
end
